-- ==== Sys2Proof/Word.lean ====
section
/-! DEFINITION. The widths of the block's values (00_scope.md R6, R8): all of them are unsigned. -/

namespace Sys2Proof

/-- A byte: a data-bus value, a coordinate field, a register index, a palette id, a byte of asset memory. -/
abbrev Byte := BitVec 8

/-- A 16-bit value moved over the bus as two bytes: a Color or the value written to a controller register. -/
abbrev Half := BitVec 16

/-- A command word (30_encoding.md R80). -/
abbrev CmdWord := BitVec 128

/-- An asset memory byte address (20_memory.md R50). -/
abbrev AssetAddr := BitVec 16

end Sys2Proof
end

