-- ==== Sys2Proof/Config.lean ====
section
/-! DEFINITION. What an implementation fixes: the constants of 00_scope.md R6, the open parameters of R7 (each an
opaque constant without a value), and the free values of what the spec leaves open while a run goes on. -/

namespace Sys2Proof

/-! ### Names used by the parameters -/

/-- The logical state of CS, WR and RST (R11). -/
inductive Line where
  | asserted
  | deasserted
deriving DecidableEq, Repr, Inhabited

/-- The logical state of RS (R11). -/
inductive RsLine where
  | index
  | data
deriving DecidableEq, Repr, Inhabited

/-- The logical state of BL (R11). -/
inductive Backlight where
  | on
  | off
deriving DecidableEq, Repr, Inhabited

/-- The bit order of the 3-bit indices within a tile row (R7, 43_sprite.md R160). -/
inductive UnpackOrder where
  | msbFirst
  | lsbFirst
deriving DecidableEq, Repr, Inhabited

/-- Which electrical level the logical state `asserted` (for RS: `index`; for BL: `on`) has on a line (R7 `POL_*`). -/
inductive Polarity where
  | activeHigh
  | activeLow
deriving DecidableEq, Repr, Inhabited

/-- The names of the bus steps: those of `BusSel` and `BusData` (40_bus_protocol.md R110, R113, R114), and one name for
each line that the single steps `RST(a)` and `BL(b)` of an initialization sequence drive (44_scroll_init.md R196). R110
names a step by its transaction and number, and these two belong to no transaction: one name per line, so one hold time
whatever the value driven, is the model's (DESIGN CHOICE, unsafe, log 28). -/
inductive StepName where
  | s1 | s2 | s3 | s4
  | w1 | w2 | w3 | w4 | w5 | w6 | w7 | w8
  | rstLine
  | blLine
deriving DecidableEq, Repr, Inhabited

/-- The items of `INIT_SEQ` (44_scroll_init.md R196). Every other command's bus sequence is made of the same items:
`sel` is `BusSel`, `data` is `BusData`, `reg` is `WriteReg`. -/
inductive Item where
  | sel (i : Byte)
  | data (h l : Byte)
  | reg (i : Byte) (v : Half)
  | rst (a : Line)
  | bl (b : Backlight)
  /-- `DELAY(n)` with `n = more + 1`, so that `n ≥ 1`. -/
  | delay (more : Nat)
deriving DecidableEq, Repr, Inhabited

/-! ### The fixed parameters (R6) -/

def panelW : Nat := 176
def panelH : Nat := 220
def transparentIndex : BitVec 3 := 7#3
def tileDim : Nat := 8
def tileBytes : Nat := 24
def scrollMax : Byte := 218#8

/-! ### The open parameters (R7) -/

/-- The open parameters as one value, the argument that R34 gives a model's step relation. The bounds of R7 hold by
construction: `NUM_PALETTES = numPalettesLess1 + 1`, `ASSET_BYTES = assetBytesLess24 + 24`, and each hold time is one
more than the number kept here. -/
structure Params where
  regHsa : Byte
  regHea : Byte
  regVsa : Byte
  regVea : Byte
  regCurx : Byte
  regCury : Byte
  regGram : Byte
  regScroll : Byte
  numPalettesLess1 : Fin 256
  /-- `PALETTES`; rows at and beyond `NUM_PALETTES` and entry 7 of every row are never read (20_memory.md R55). -/
  palettes : Vector (Vector Half 8) 256
  assetBytesLess24 : Fin 65513
  unpackOrder : UnpackOrder
  initSeq : List Item
  /-- `STEP_CYCLES` less 1, in the order of `StepName`'s constructors. -/
  stepCyclesLess1 : Vector Nat 14
  /-- Clock cycles of decode and checks beyond the first (93_implementation_defined.md U10). -/
  decodeExtra : Nat
  /-- Clock cycles a rejected command stays BUSY after its decode (U10). -/
  rejectExtra : Nat
  polRs : Polarity
  polCs : Polarity
  polWr : Polarity
  polRst : Polarity
  polBl : Polarity
deriving DecidableEq, Repr

/-! ### The build's values: no source gives one (91_not_in_source.md), so each is a constant without a body -/

opaque Config.regHsa : Byte
opaque Config.regHea : Byte
opaque Config.regVsa : Byte
opaque Config.regVea : Byte
opaque Config.regCurx : Byte
opaque Config.regCury : Byte
opaque Config.regGram : Byte
opaque Config.regScroll : Byte
opaque Config.numPalettesLess1 : Fin 256
opaque Config.palettes : Vector (Vector Half 8) 256
opaque Config.assetBytesLess24 : Fin 65513
opaque Config.unpackOrder : UnpackOrder
opaque Config.initSeq : List Item
opaque Config.stepCyclesLess1 : Vector Nat 14
opaque Config.decodeExtra : Nat
opaque Config.rejectExtra : Nat
opaque Config.polRs : Polarity
opaque Config.polCs : Polarity
opaque Config.polWr : Polarity
opaque Config.polRst : Polarity
opaque Config.polBl : Polarity

/-- The parameters of the built block. -/
def Config.params : Params where
  regHsa := Config.regHsa
  regHea := Config.regHea
  regVsa := Config.regVsa
  regVea := Config.regVea
  regCurx := Config.regCurx
  regCury := Config.regCury
  regGram := Config.regGram
  regScroll := Config.regScroll
  numPalettesLess1 := Config.numPalettesLess1
  palettes := Config.palettes
  assetBytesLess24 := Config.assetBytesLess24
  unpackOrder := Config.unpackOrder
  initSeq := Config.initSeq
  stepCyclesLess1 := Config.stepCyclesLess1
  decodeExtra := Config.decodeExtra
  rejectExtra := Config.rejectExtra
  polRs := Config.polRs
  polCs := Config.polCs
  polWr := Config.polWr
  polRst := Config.polRst
  polBl := Config.polBl

/-! ### Free values: the n-th one drawn, at a place -/

/-- A controller register's value after block reset, after an abort (20_memory.md R71, 70_reset_and_hazards.md R241),
after a GRAM write outside window or panel (20_memory.md R69) or after a drawing command before INIT
(70_reset_and_hazards.md R243), and the scroll register's after INIT (44_scroll_init.md R197); the second argument is the
register's place. -/
opaque Config.freeReg : Nat → Nat → Half

/-- A GRAM cell's value after the same events; the second argument is the cell. -/
opaque Config.freeGram : Nat → Nat → Half

/-- One of the controller's other registers after block reset, an abort or a drawing command before
INIT; the second argument is its index. -/
opaque Config.freeOther : Nat → Nat → Half

/-- Whether the controller's byte phase is LOW after block reset, an abort or a drawing command before INIT. -/
opaque Config.freePhaseLow : Nat → Bool

/-- Which of the values a contested asset byte has had a read of it returns (20_memory.md R54); the arguments are the
number of contested reads before and the byte's address. -/
opaque Config.raceChoice : Nat → Nat → Nat

end Sys2Proof
end

