-- ==== Sys2Proof/Syntax.lean ====
section
/-! DEFINITION. The 13 commands of 30_encoding.md R83, one constructor per row of the opcode table, operands in the
order of that row's assembler syntax (R88). Every operand is an unsigned immediate of its slot's width (R82). -/

namespace Sys2Proof

inductive Instr where
  | selectReg (idx : Byte)
  | writeData (high low : Byte)
  | setWindow (x0 y0 x1 y1 : Byte)
  | setCursor (x y : Byte)
  | drawPixel (x y : Byte) (color : Half)
  | drawHline (x y width : Byte) (color : Half)
  | drawRect (x y width height : Byte) (color : Half)
  | clearScreen
  | drawTile (x y scale pal : Byte) (addr : AssetAddr) (fv fh : Bool)
  | drawComposite (x y scale pal : Byte) (tl tr bl br : AssetAddr)
  | scrollFwd
  | scrollBwd
  | init
deriving DecidableEq, Repr

end Sys2Proof
end

