-- ==== Sys2Proof/Decode.lean ====
section
/-! DEFINITION. The decoder of 30_encoding.md R80–R87, total on every 128-bit word and rejecting by name, and the
encoder written from the same slot table. -/

namespace Sys2Proof

/-- What a command word is (R87): exactly one of a legal command, an illegal opcode, a reserved bit set. -/
inductive Decoded where
  | legal (i : Instr)
  | illegalOpcode
  | reservedBits
deriving DecidableEq, Repr

/-! ### Slots (R81) -/

def slotOp (w : CmdWord) : BitVec 4 := w.extractLsb' 0 4
def slotFV (w : CmdWord) : Bool := w.getLsbD 4
def slotFH (w : CmdWord) : Bool := w.getLsbD 5
def slotA (w : CmdWord) : Byte := w.extractLsb' 8 8
def slotB (w : CmdWord) : Byte := w.extractLsb' 16 8
def slotC (w : CmdWord) : Byte := w.extractLsb' 24 8
def slotD (w : CmdWord) : Byte := w.extractLsb' 32 8
def slotColor (w : CmdWord) : Half := w.extractLsb' 48 16
def slotT0 (w : CmdWord) : AssetAddr := w.extractLsb' 64 16
def slotT1 (w : CmdWord) : AssetAddr := w.extractLsb' 80 16
def slotT2 (w : CmdWord) : AssetAddr := w.extractLsb' 96 16
def slotT3 (w : CmdWord) : AssetAddr := w.extractLsb' 112 16

/-! ### `MASK` of each command (R84) -/

def maskSelectReg : CmdWord := 0xFFFFFFFFFFFFFFFFFFFFFFFFFFFF00FF#128
def maskWriteData : CmdWord := 0xFFFFFFFFFFFFFFFFFFFFFFFFFF0000FF#128
def maskSetWindow : CmdWord := 0xFFFFFFFFFFFFFFFFFFFFFF00000000FF#128
def maskSetCursor : CmdWord := 0xFFFFFFFFFFFFFFFFFFFFFFFFFF0000FF#128
def maskDrawPixel : CmdWord := 0xFFFFFFFFFFFFFFFF0000FFFFFF0000FF#128
def maskDrawHline : CmdWord := 0xFFFFFFFFFFFFFFFF0000FFFF000000FF#128
def maskDrawRect : CmdWord := 0xFFFFFFFFFFFFFFFF0000FF00000000FF#128
def maskClearScreen : CmdWord := 0xFFFFFFFFFFFFFFFFFFFFFFFFFFFFFFFF#128
def maskDrawTile : CmdWord := 0xFFFFFFFFFFFF0000FFFFFF00000000CF#128
def maskDrawComposite : CmdWord := 0x0000000000000000FFFFFF00000000FF#128
def maskScrollFwd : CmdWord := 0xFFFFFFFFFFFFFFFFFFFFFFFFFFFFFFFF#128
def maskScrollBwd : CmdWord := 0xFFFFFFFFFFFFFFFFFFFFFFFFFFFFFFFF#128
def maskInit : CmdWord := 0xFFFFFFFFFFFFFFFFFFFFFFFFFFFFFFFF#128

/-- A word that has the opcode `op` is the legal command `i` exactly when `w & MASK = MATCH`, `MATCH` being the opcode
alone (R84); otherwise a reserved bit is set (R86). -/
def legalIf (w mask : CmdWord) (op : Nat) (i : Instr) : Decoded :=
  if w &&& mask = BitVec.ofNat 128 op then .legal i else .reservedBits

/-- The decoder selects the command by the opcode alone (R80); opcodes 0xD, 0xE and 0xF are illegal whatever the
other bits (R85). -/
def decode (w : CmdWord) : Decoded :=
  match (slotOp w).toNat with
  | 0x0 => legalIf w maskSelectReg 0x0 (.selectReg (slotA w))
  | 0x1 => legalIf w maskWriteData 0x1 (.writeData (slotA w) (slotB w))
  | 0x2 => legalIf w maskSetWindow 0x2 (.setWindow (slotA w) (slotB w) (slotC w) (slotD w))
  | 0x3 => legalIf w maskSetCursor 0x3 (.setCursor (slotA w) (slotB w))
  | 0x4 => legalIf w maskDrawPixel 0x4 (.drawPixel (slotA w) (slotB w) (slotColor w))
  | 0x5 => legalIf w maskDrawHline 0x5 (.drawHline (slotA w) (slotB w) (slotC w) (slotColor w))
  | 0x6 => legalIf w maskDrawRect 0x6 (.drawRect (slotA w) (slotB w) (slotC w) (slotD w) (slotColor w))
  | 0x7 => legalIf w maskClearScreen 0x7 .clearScreen
  | 0x8 => legalIf w maskDrawTile 0x8
      (.drawTile (slotA w) (slotB w) (slotC w) (slotD w) (slotT0 w) (slotFV w) (slotFH w))
  | 0x9 => legalIf w maskDrawComposite 0x9
      (.drawComposite (slotA w) (slotB w) (slotC w) (slotD w) (slotT0 w) (slotT1 w) (slotT2 w) (slotT3 w))
  | 0xA => legalIf w maskScrollFwd 0xA .scrollFwd
  | 0xB => legalIf w maskScrollBwd 0xB .scrollBwd
  | 0xC => legalIf w maskInit 0xC .init
  | _ => .illegalOpcode

/-! ### Encoder -/

/-- The contents of every slot of a word, in R81's order from bit 0 up; the two reserved slots are not here, since
they are always zero (R86, R88). -/
structure Slots where
  op : BitVec 4
  fv : Bool := false
  fh : Bool := false
  a : Byte := 0#8
  b : Byte := 0#8
  c : Byte := 0#8
  d : Byte := 0#8
  color : Half := 0#16
  t0 : AssetAddr := 0#16
  t1 : AssetAddr := 0#16
  t2 : AssetAddr := 0#16
  t3 : AssetAddr := 0#16
deriving DecidableEq, Repr

/-- The word with the given slots, reserved slots 7:6 and 47:40 zero (R81). -/
def packSlots (s : Slots) : CmdWord :=
  s.t3 ++ s.t2 ++ s.t1 ++ s.t0 ++ s.color ++ 0#8 ++ s.d ++ s.c ++ s.b ++ s.a ++ 0#2 ++
    BitVec.ofBool s.fh ++ BitVec.ofBool s.fv ++ s.op

/-- The slots of each command (R83); a slot a command does not use is zero (R86). -/
def slotsOf : Instr → Slots
  | .selectReg idx => { op := 0x0#4, a := idx }
  | .writeData high low => { op := 0x1#4, a := high, b := low }
  | .setWindow x0 y0 x1 y1 => { op := 0x2#4, a := x0, b := y0, c := x1, d := y1 }
  | .setCursor x y => { op := 0x3#4, a := x, b := y }
  | .drawPixel x y color => { op := 0x4#4, a := x, b := y, color := color }
  | .drawHline x y width color => { op := 0x5#4, a := x, b := y, c := width, color := color }
  | .drawRect x y width height color =>
    { op := 0x6#4, a := x, b := y, c := width, d := height, color := color }
  | .clearScreen => { op := 0x7#4 }
  | .drawTile x y scale pal addr fv fh =>
    { op := 0x8#4, fv := fv, fh := fh, a := x, b := y, c := scale, d := pal, t0 := addr }
  | .drawComposite x y scale pal tl tr bl br =>
    { op := 0x9#4, a := x, b := y, c := scale, d := pal, t0 := tl, t1 := tr, t2 := bl, t3 := br }
  | .scrollFwd => { op := 0xA#4 }
  | .scrollBwd => { op := 0xB#4 }
  | .init => { op := 0xC#4 }

/-- The word of a command. -/
def encode (i : Instr) : CmdWord := packSlots (slotsOf i)

/-! ### The opcode table's numbering -/

/-- The command word whose low `nbits` bits are `w` and whose other bits are zero. A command is one 128-bit unit with
no byte order on the command port (20_memory.md R58), so the table's bit n is bit n of the word. -/
def tableWord (nbits w : Nat) : CmdWord := BitVec.ofNat 128 (w % 2 ^ nbits)

/-- The instruction the decoder reads from a table word. -/
def decodeTableWord (nbits w : Nat) : Option Instr :=
  match decode (tableWord nbits w) with
  | .legal i => some i
  | .illegalOpcode => none
  | .reservedBits => none

end Sys2Proof
end

