-- ==== Sys2Proof/Machine/State.lean ====
section
/-! DEFINITION. The state of 10_state.md R24 with its environment: the asset memory (20_memory.md R52), the reference
controller (20_memory.md §7), the parameters that R34 gives the step as arguments, and the host's inputs. -/

namespace Sys2Proof.Machine

/-! ### Memory as data -/

/-- A store of `w`-bit values: (address, value) pairs, addresses strictly rising, no entry equal to what an unlisted
address reads as (`Memory.wf` in Ops.lean). `Memory 8` is a list of `Host.Cell`. -/
abbrev Memory (w : Nat) := List (Nat × BitVec w)

/-! ### Pins (R25) -/

/-- The display-bus output vector (R25). -/
structure Pins where
  d : Byte
  rs : RsLine
  cs : Line
  wr : Line
  rst : Line
  bl : Backlight
deriving DecidableEq, Repr

/-- The electrical level of each display line, `true` for high (R23, R25). -/
structure LcdLevels where
  d : Byte
  rs : Bool
  cs : Bool
  wr : Bool
  rst : Bool
  bl : Bool
deriving DecidableEq, Repr

/-- The new values a bus step gives to a named subset of the pins (40_bus_protocol.md R110); `none` is a pin the step
does not name. -/
structure PinChange where
  d : Option Byte := none
  rs : Option RsLine := none
  cs : Option Line := none
  wr : Option Line := none
  rst : Option Line := none
  bl : Option Backlight := none
deriving DecidableEq, Repr

/-! ### The sequencer's position (R22) -/

/-- An output pixel of a tile (43_sprite.md R168): where its source row's three bytes begin, its position `q` in the
row, the flip, the palette, and the cursor of the correction if the pixel is transparent. -/
structure PixelOp where
  rowAddr : Nat
  q : Fin 8
  fh : Bool
  pal : Byte
  nextX : Nat
  yrow : Nat
deriving DecidableEq, Repr

/-- One thing the sequencer does at a clock edge: a named bus step (R110), the start of a wait in which no step occurs for
`more + 1` edges (44_scroll_init.md R198), or the step W2 or W5 of an opaque tile pixel's `BusData`, which drives the high
or the low byte of its colour (43_sprite.md R167). `found` is that colour by the bytes read so far; they may be read again
until this step (20_memory.md R54). -/
inductive Micro where
  | step (name : StepName) (change : PinChange)
  | wait (more : Nat)
  | color (high : Bool) (px : PixelOp) (found : Half)
deriving DecidableEq, Repr

/-- One operation of a command's bus sequence: an item, or a tile pixel whose items depend on the bytes read when it is
reached. -/
inductive Op where
  | item (t : Item)
  | pixel (px : PixelOp)
deriving DecidableEq, Repr

/-- The error codes of 60_exceptions.md R211 other than `E_NONE`. -/
inductive ErrCode where
  | illegalOpcode
  | reservedBits
  | badScale
  | zeroExtent
  | badPalette
  | badAddress
  | badWindow
  | outOfPanel
deriving DecidableEq, Repr

/-- What a command is to the reference controller beyond its bus steps (70_reset_and_hazards.md R243;
93_implementation_defined.md U8, U9). -/
inductive CommandKind where
  /-- A raw, addressing or scroll command. -/
  | plain
  /-- A primitive or tile command: before INIT its effect on the controller is unspecified (R243, U8). -/
  | drawing
  /-- INIT: the controller's scroll register is open after it unless `INIT_SEQ` writes it (44_scroll_init.md R197, U9). -/
  | init
deriving DecidableEq, Repr

/-- What a command does: end in a rejection (R214), or set the scroll offset (its present value for all commands but
three) and perform a bus sequence. -/
inductive Plan where
  | reject (code : ErrCode)
  | run (kind : CommandKind) (scroll : Byte) (ops : List Op)
deriving DecidableEq, Repr

/-- Whether a command is executing (R24). -/
inductive Phase where
  | idle
  | busy
deriving DecidableEq, Repr

/-- The sequencer's position within the captured command (R22, R33(d)). -/
inductive SeqPos where
  /-- No command. -/
  | none
  /-- The captured command is being decoded and checked, for `left` more edges before the last. -/
  | decoding (left : Nat)
  /-- The command is rejected and stays BUSY for `left` more edges before the last. -/
  | rejecting (left : Nat) (code : ErrCode)
  /-- The present pin vector is held for `hold` more edges; then `micros`, then `ops`, and the command of this kind is
  complete. -/
  | running (kind : CommandKind) (hold : Nat) (micros : List Micro) (ops : List Op)
deriving DecidableEq, Repr

/-! ### The reference controller (20_memory.md §7) -/

/-- The controller's byte phase (20_memory.md R66). -/
inductive BytePhase where
  | high
  | low
deriving DecidableEq, Repr

/-- The reference controller (20_memory.md R66–R68). -/
structure Controller where
  ir : Byte
  ph : BytePhase
  hold : Byte
  hsa : Half
  hea : Half
  vsa : Half
  vea : Half
  acx : Half
  acy : Half
  scroll : Half
  /-- `GRAM[row][column]` at address `row * PANEL_W + column`. -/
  gram : Memory 16
  /-- Every other register, at its index (20_memory.md R67). -/
  regs : Memory 16
  /-- Whether an INIT has been completed since the controller's state was last unspecified
  (70_reset_and_hazards.md R243). -/
  initialized : Bool
  /-- The MODEL's own: how many times free values have been drawn. -/
  draws : Nat
deriving DecidableEq, Repr

/-! ### Host inputs (R23, 70_reset_and_hazards.md R244) -/

/-- What the host does next. -/
inductive HostInput where
  /-- Offer a word, hold it until it is accepted, and do nothing else until the command has ended. -/
  | command (w : CmdWord)
  /-- One rising edge of `clk` with the values of `rst`, `err_clr` and, if `cmd_valid = 1`, `cmd_word`. -/
  | edge (rst errClr : Bool) (offer : Option CmdWord)
  /-- Write a byte of the asset memory. -/
  | assetWrite (addr : AssetAddr) (b : Byte)
deriving DecidableEq, Repr

/-! ### State -/

/-- The machine's state. -/
structure State where
  phase : Phase
  cmd : CmdWord
  pins : Pins
  scrollOffset : Byte
  err : Bool
  errCode : BitVec 4
  /-- The position of the sequencer within the captured command (R22). -/
  seq : SeqPos
  /-- The pin trace (R27), newest value first. -/
  trace : List Pins
  /-- The asset memory (20_memory.md R52). -/
  assets : Memory 8
  /-- Values that asset bytes held earlier while the present command executes (20_memory.md R54). -/
  olds : List Host.Cell
  controller : Controller
  /-- The parameters, which no step writes (R34). -/
  params : Params
  /-- What the host will do, in order. -/
  inputs : List HostInput
  /-- The MODEL's own: how many times reads have drawn a free choice between old and new bytes. -/
  raceReads : Nat
deriving DecidableEq, Repr

/-- Why the machine stops. -/
inductive Fault where
  /-- Raised by a step whose host input writes an asset memory byte at or above `ASSET_BYTES`, an address that does not
  exist (20_memory.md R52, R62). Safe: the model stops where the platform may do anything. -/
  | noSuchAssetByte (addr : AssetAddr)
deriving DecidableEq, Repr

/-- Why the machine gives an instruction no meaning. -/
inductive Refusal where
  /-- Raised by exec for an instruction without a meaning. No instruction of this model is refused. Safe. -/
  | notModelled (mnemonic : String)
deriving DecidableEq, Repr

/-! ### Reset (R36) -/

/-- The reset pin vector (R36). -/
def resetPins : Pins where
  d := 0x00#8
  rs := .data
  cs := .deasserted
  wr := .deasserted
  rst := .deasserted
  bl := .off

/-- The reference controller before anything has been written to it: no INIT yet (R243); of the rest R71 gives no value,
so each one here is the model's (DESIGN CHOICE, log 5). -/
def Controller.start : Controller where
  ir := 0#8
  ph := .high
  hold := 0#8
  hsa := 0#16
  hea := 0#16
  vsa := 0#16
  vea := 0#16
  acx := 0#16
  acy := 0#16
  scroll := 0#16
  gram := []
  regs := []
  initialized := false
  draws := 0

/-- The machine right after reset (R36); `cmd` is unspecified there (DESIGN CHOICE 0, log 4). -/
def State.reset : State where
  phase := .idle
  cmd := 0#128
  pins := resetPins
  scrollOffset := 0#8
  err := false
  errCode := 0#4
  seq := .none
  trace := [resetPins]
  assets := []
  olds := []
  controller := Controller.start
  params := Config.params
  inputs := []
  raceReads := 0

end Sys2Proof.Machine
end

