-- ==== Sys2Proof/Machine/Memory.lean ====
section
/-! DEFINITION. Stores as canonical lists: the asset memory (20_memory.md R52), the reference controller's GRAM and its
other registers (20_memory.md R67, R68). -/

namespace Sys2Proof.Machine

/-- What an unlisted address reads as (DESIGN CHOICE: log 5 for the controller, log 6 for the asset memory). -/
def Memory.unlisted (w : Nat) : BitVec w := 0#w

/-- The value at an address. -/
def Memory.read {w : Nat} : Memory w → Nat → BitVec w
  | [], _ => Memory.unlisted w
  | (k, v) :: rest, a => if a = k then v else Memory.read rest a

/-- Add an entry in front, unless it says what an unlisted address says anyway. -/
def Memory.cons {w : Nat} (a : Nat) (v : BitVec w) (rest : Memory w) : Memory w :=
  if v = Memory.unlisted w then rest else (a, v) :: rest

/-- Give an address a value, keeping the canonical form. -/
def Memory.write {w : Nat} : Memory w → Nat → BitVec w → Memory w
  | [], a, v => Memory.cons a v []
  | (k, u) :: rest, a, v =>
    if a < k then Memory.cons a v ((k, u) :: rest)
    else if a = k then Memory.cons a v rest
    else (k, u) :: Memory.write rest a v

/-- The store whose values at `base, base + 1, …` are the list's. -/
def Memory.ofList {w : Nat} (base : Nat) : List (BitVec w) → Memory w
  | [] => []
  | v :: rest => Memory.cons base v (Memory.ofList (base + 1) rest)

/-- The canonical form: addresses strictly rising, no entry equal to what an unlisted address reads as. -/
abbrev Memory.wf {w : Nat} (m : Memory w) : Prop :=
  m.Pairwise (fun c e => c.1 < e.1) ∧ ∀ c ∈ m, c.2 ≠ Memory.unlisted w

/-- Every listed address is below `n`. -/
abbrev Memory.below {w : Nat} (m : Memory w) (n : Nat) : Prop := ∀ c ∈ m, c.1 < n

end Sys2Proof.Machine
end

