-- ==== Sys2Proof/Machine/Controller.lean ====
section
/-! DEFINITION. The reference controller model (20_memory.md R66–R71): the environment that the block's bus steps act
on. Nothing here can change the block (40_bus_protocol.md R121). -/

namespace Sys2Proof.Machine

/-- GRAM cells of the panel. -/
def gramCells : Nat := panelW * panelH

/-- The address of `GRAM[y][x]`. -/
def gramCell (x y : Nat) : Nat := y * panelW + x

/-- A GRAM of free values: any value in every cell (20_memory.md R69, R71). -/
@[irreducible] def freeGramOf (n : Nat) : Memory 16 :=
  Memory.ofList 0 ((List.range gramCells).map (Config.freeGram n))

/-- A bank of other registers of free values. -/
@[irreducible] def freeRegsOf (n : Nat) : Memory 16 :=
  Memory.ofList 0 ((List.range 256).map (Config.freeOther n))

/-- The controller in an unspecified state: after block reset (R71, U13), after an aborted command
(70_reset_and_hazards.md R241, U7), and after a drawing command before INIT (R243, U8); INIT is to be issued (again). -/
def Controller.unspecified (c : Controller) : Controller where
  ir := (Config.freeReg c.draws 0).setWidth 8
  ph := if Config.freePhaseLow c.draws then .low else .high
  hold := (Config.freeReg c.draws 1).setWidth 8
  hsa := Config.freeReg c.draws 2
  hea := Config.freeReg c.draws 3
  vsa := Config.freeReg c.draws 4
  vea := Config.freeReg c.draws 5
  acx := Config.freeReg c.draws 6
  acy := Config.freeReg c.draws 7
  scroll := Config.freeReg c.draws 8
  gram := freeGramOf c.draws
  regs := freeRegsOf c.draws
  initialized := false
  draws := c.draws + 1

/-- What the start of a command does to the controller before its first bus step: INIT leaves the scroll register open,
a free value until something writes it (44_scroll_init.md R197, 93_implementation_defined.md U9; DESIGN CHOICE,
log 30). -/
def Controller.beginCommand (k : CommandKind) (c : Controller) : Controller :=
  match k with
  | .plain => c
  | .drawing => c
  | .init => { c with scroll := Config.freeReg c.draws 8, draws := c.draws + 1 }

/-- What the end of a command does to the controller after its last bus step: a drawing command before INIT leaves it
unspecified (70_reset_and_hazards.md R243, 93_implementation_defined.md U8; DEDUCED, log 29); INIT initializes it. -/
def Controller.endCommand (k : CommandKind) (c : Controller) : Controller :=
  match k with
  | .plain => c
  | .drawing => if c.initialized then c else c.unspecified
  | .init => { c with initialized := true }

/-- Whether the address counter is inside the window and the panel (R68). -/
def Controller.inside (c : Controller) : Bool :=
  c.hsa.toNat ≤ c.acx.toNat && c.acx.toNat ≤ c.hea.toNat &&
  c.vsa.toNat ≤ c.acy.toNat && c.acy.toNat ≤ c.vea.toNat &&
  c.acx.toNat < panelW && c.acy.toNat < panelH

/-- The address counter's advance after a GRAM write: row-major, wrapping inside the window (R68). -/
def Controller.advance (c : Controller) : Controller :=
  if c.acx.toNat + 1 ≤ c.hea.toNat then { c with acx := c.acx + 1#16 }
  else if c.acy.toNat + 1 ≤ c.vea.toNat then { c with acx := c.hsa, acy := c.acy + 1#16 }
  else { c with acx := c.hsa, acy := c.vsa }

/-- `RegWrite(REG_GRAM, v)`: inside window and panel the cell takes `v` and the counter advances (R68); elsewhere every
cell and the address counter take free values (R69), and the rest of the controller stays (DESIGN CHOICE, log 8). -/
def Controller.writeGram (v : Half) (c : Controller) : Controller :=
  if c.inside then
    Controller.advance { c with gram := Memory.write c.gram (gramCell c.acx.toNat c.acy.toNat) v }
  else
    { c with
      gram := freeGramOf c.draws
      acx := Config.freeReg c.draws 6
      acy := Config.freeReg c.draws 7
      draws := c.draws + 1 }

/-- `RegWrite(i, v)` (R67); where two indices are equal the first in R67's order is taken (DESIGN CHOICE, log 10). -/
def Controller.regWrite (p : Params) (i : Byte) (v : Half) (c : Controller) : Controller :=
  if i = p.regHsa then { c with hsa := v }
  else if i = p.regHea then { c with hea := v }
  else if i = p.regVsa then { c with vsa := v }
  else if i = p.regVea then { c with vea := v }
  else if i = p.regCurx then { c with acx := v }
  else if i = p.regCury then { c with acy := v }
  else if i = p.regScroll then { c with scroll := v }
  else if i = p.regGram then Controller.writeGram v c
  else { c with regs := Memory.write c.regs i.toNat v }

/-- The write strobe's trailing edge with the new pins `n` (R66). -/
def Controller.strobe (p : Params) (n : Pins) (c : Controller) : Controller :=
  match n.rs, c.ph with
  | .index, _ => { c with ir := n.d, ph := .high }
  | .data, .high => { c with hold := n.d, ph := .low }
  | .data, .low => Controller.regWrite p c.ir (c.hold ++ n.d) { c with ph := .high }

/-- The controller sees the pins change from `o` to `n` (R66). The lines RST and BL act on nothing the reference model
has (log 11). -/
def Controller.observe (p : Params) (o n : Pins) (c : Controller) : Controller :=
  let c' := if o.wr = .asserted ∧ n.wr = .deasserted ∧ n.cs = .asserted then Controller.strobe p n c else c
  if o.cs = .asserted ∧ n.cs = .deasserted then { c' with ph := .high } else c'

end Sys2Proof.Machine
end

