-- ==== Sys2Proof/Machine/Flags.lean ====
section
/-! DEFINITION. The block's flags BUSY and ERR, the error code, the status word and `cmd_ready`
(10_state.md R26, R28–R31). -/

namespace Sys2Proof.Machine

/-- The 4-bit codes (60_exceptions.md R211). -/
def ErrCode.bits : ErrCode → BitVec 4
  | .illegalOpcode => 1#4
  | .reservedBits => 2#4
  | .badScale => 3#4
  | .zeroExtent => 4#4
  | .badPalette => 5#4
  | .badAddress => 6#4
  | .badWindow => 7#4
  | .outOfPanel => 8#4

/-- Record a rejection: `err` is set, and the code is written only where `err` was 0 (R30, R31). -/
def State.recordErr (code : ErrCode) (s : State) : State :=
  { s with err := true, errCode := if s.err then s.errCode else code.bits }

/-- `err_clr = 1` at an edge (R30). -/
def State.clearErr (s : State) : State :=
  { s with err := false, errCode := 0#4 }

/-- `busy` (R28). -/
def State.busy (s : State) : Bool := s.phase == .busy

/-- The status word: BUSY in bit 0, ERR in bit 1, bits 3:2 zero, ERR_CODE in 7:4, SCROLL in 15:8 (R26). -/
def State.status (s : State) : BitVec 16 :=
  s.scrollOffset ++ s.errCode ++ 0#2 ++ BitVec.ofBool s.err ++ BitVec.ofBool s.busy

/-- `cmd_ready` with the present value of `rst` (R29). -/
def State.cmdReady (rst : Bool) (s : State) : Bool := s.phase == .idle && !rst

end Sys2Proof.Machine
end

