-- ==== Sys2Proof/Machine/Operands.lean ====
section
/-! DEFINITION. What commands make of their operands: the bytes of a 16-bit value, the operand checks
(60_exceptions.md R213), the register-write sequences (41_addressing.md R130, R133; 42_primitives.md R147, R148), and
the reading of tile data (43_sprite.md R160–R163, R166). Arithmetic on operands is exact (00_scope.md R9). -/

namespace Sys2Proof.Machine

/-! ### Values on the bus -/

/-- `v[15:8]`, sent first (20_memory.md R57). -/
def hiByte (v : Half) : Byte := v.extractLsb' 8 8

/-- `v[7:0]`, sent second (20_memory.md R57). -/
def loByte (v : Half) : Byte := v.extractLsb' 0 8

/-- `zext_16` of a coordinate or a scroll offset (40_bus_protocol.md R115). -/
def zext16 (n : Nat) : Half := BitVec.ofNat 16 n

/-! ### Parameters -/

/-- `NUM_PALETTES` (00_scope.md R7). -/
def numPalettes (p : Params) : Nat := p.numPalettesLess1.val + 1

/-- `ASSET_BYTES` (00_scope.md R7). -/
def assetBytes (p : Params) : Nat := p.assetBytesLess24.val + 24

/-- `PALETTES(pal, idx)` (20_memory.md R55). -/
def palRead (p : Params) (pal : Byte) (idx : BitVec 3) : Half :=
  (p.palettes.get pal.toFin).get idx.toFin

/-- The place of a step name in `STEP_CYCLES`; one place for each of the lines RST and BL (DESIGN CHOICE, log 28). -/
def stepIndex : StepName → Fin 14
  | .s1 => 0
  | .s2 => 1
  | .s3 => 2
  | .s4 => 3
  | .w1 => 4
  | .w2 => 5
  | .w3 => 6
  | .w4 => 7
  | .w5 => 8
  | .w6 => 9
  | .w7 => 10
  | .w8 => 11
  | .rstLine => 12
  | .blLine => 13

/-- How many edges beyond the first a step is held: `STEP_CYCLES(k) - 1` (40_bus_protocol.md R110). -/
def holdExtra (p : Params) (k : StepName) : Nat := p.stepCyclesLess1.get (stepIndex k)

/-! ### Operand checks (60_exceptions.md R213) -/

/-- `x < PANEL_W` and `y < PANEL_H`. -/
def onPanel (x y : Nat) : Bool := x < panelW && y < panelH

/-- `x + w ≤ PANEL_W` and `y + h ≤ PANEL_H`. -/
def fitsPanel (x y w h : Nat) : Bool := x + w ≤ panelW && y + h ≤ panelH

/-- `pal < NUM_PALETTES`. -/
def palOk (p : Params) (pal : Byte) : Bool := pal.toNat < numPalettes p

/-- `a + 23 < ASSET_BYTES` (20_memory.md R60). -/
def tileAddrOk (p : Params) (a : AssetAddr) : Bool := a.toNat + 23 < assetBytes p

/-! ### Register-write sequences -/

/-- `SetWindowSeq(x0, y0, x1, y1)` (41_addressing.md R130). -/
def setWindowSeq (p : Params) (x0 y0 x1 y1 : Nat) : List Item :=
  [.reg p.regHsa (zext16 x0), .reg p.regHea (zext16 x1), .reg p.regVsa (zext16 y0), .reg p.regVea (zext16 y1)]

/-- `SetCursorSeq(x, y)` (41_addressing.md R133). -/
def setCursorSeq (p : Params) (x y : Nat) : List Item :=
  [.reg p.regCurx (zext16 x), .reg p.regCury (zext16 y)]

/-- `OpenWindow(x0, y0, x1, y1)` (42_primitives.md R147). -/
def openWindow (p : Params) (x0 y0 x1 y1 : Nat) : List Item :=
  setWindowSeq p x0 y0 x1 y1 ++ setCursorSeq p x0 y0

/-- `BusData` of a colour (43_sprite.md R167). -/
def colorItem (c : Half) : Item := .data (hiByte c) (loByte c)

/-- `StreamFill(c, n)` (42_primitives.md R148). -/
def streamFill (p : Params) (c : Half) (n : Nat) : List Item :=
  .sel p.regGram :: List.replicate n (colorItem c)

/-! ### Tile data -/

/-- `Unpack(b0, b1, b2, p)` (43_sprite.md R160). -/
def unpack (order : UnpackOrder) (b0 b1 b2 : Byte) (pos : Nat) : BitVec 3 :=
  match order with
  | .msbFirst => (b0 ++ b1 ++ b2).extractLsb' (21 - 3 * pos) 3
  | .lsbFirst => (b2 ++ b1 ++ b0).extractLsb' (3 * pos) 3

/-- `DecodeIndex(b0, b1, b2, q, fh)` (43_sprite.md R162). -/
def decodeIndex (order : UnpackOrder) (b0 b1 b2 : Byte) (q : Nat) (fh : Bool) : BitVec 3 :=
  unpack order b0 b1 b2 (if fh then 7 - q else q)

/-- The index of an output pixel, with `rd` reading a byte of the asset memory (20_memory.md R53). -/
def pixelIndex (p : Params) (rd : Nat → Byte) (px : PixelOp) : BitVec 3 :=
  decodeIndex p.unpackOrder (rd px.rowAddr) (rd (px.rowAddr + 1)) (rd (px.rowAddr + 2)) px.q.val px.fh

/-- The correction a transparent pixel emits (43_sprite.md R166). -/
def correction (p : Params) (nextX yrow : Nat) : List Item :=
  setCursorSeq p nextX yrow ++ [.sel p.regGram]

/-- What an output pixel emits: the correction if it is transparent, else one colour write (43_sprite.md R163, R167). -/
def pixelItems (p : Params) (rd : Nat → Byte) (px : PixelOp) : List Item :=
  if pixelIndex p rd px = transparentIndex then correction p px.nextX px.yrow
  else [colorItem (palRead p px.pal (pixelIndex p rd px))]

/-- The items of an operation. -/
def Op.items (p : Params) (rd : Nat → Byte) : Op → List Item
  | .item t => [t]
  | .pixel px => pixelItems p rd px

end Sys2Proof.Machine
end

