-- ==== Sys2Proof/Machine/Ops.lean ====
section
/-! DEFINITION. The shared operations: bus steps and transactions (40_bus_protocol.md R110–R115), running a bus
sequence, ending a command, rejecting one (60_exceptions.md R214), and block reset (70_reset_and_hazards.md R240,
R241). -/

namespace Sys2Proof.Machine

/-! ### Pins -/

/-- A bus step's new pin vector: fields not named keep their values (R110). -/
def Pins.apply (p : Pins) (c : PinChange) : Pins where
  d := c.d.getD p.d
  rs := c.rs.getD p.rs
  cs := c.cs.getD p.cs
  wr := c.wr.getD p.wr
  rst := c.rst.getD p.rst
  bl := c.bl.getD p.bl

/-- The electrical level of a line whose logical state is the one its polarity names (`active`). -/
def polarityLevel (pol : Polarity) (active : Bool) : Bool :=
  match pol with
  | .activeHigh => active
  | .activeLow => !active

/-- The ports `LCD_x` (10_state.md R23, R25). -/
def Pins.levels (n : Pins) (p : Params) : LcdLevels where
  d := n.d
  rs := polarityLevel p.polRs (n.rs == .index)
  cs := polarityLevel p.polCs (n.cs == .asserted)
  wr := polarityLevel p.polWr (n.wr == .asserted)
  rst := polarityLevel p.polRst (n.rst == .asserted)
  bl := polarityLevel p.polBl (n.bl == .on)

/-- Append a pin vector to a pin trace; a vector equal to the last one is merged with it (10_state.md R27). -/
def pushTrace (n : Pins) : List Pins → List Pins
  | [] => [n]
  | o :: rest => if n = o then o :: rest else n :: o :: rest

/-! ### Transactions as bus steps -/

/-- The four steps of `BusSel(i)` (R113). -/
def selSteps (i : Byte) : List Micro :=
  [ .step .s1 { d := some i },
    .step .s2 { rs := some .index, cs := some .asserted },
    .step .s3 { wr := some .asserted },
    .step .s4 { wr := some .deasserted } ]

/-- The eight steps of `BusData(h, l)` (R114). -/
def dataSteps (h l : Byte) : List Micro :=
  [ .step .w1 { rs := some .data, cs := some .asserted },
    .step .w2 { d := some h },
    .step .w3 { wr := some .asserted },
    .step .w4 { wr := some .deasserted },
    .step .w5 { d := some l },
    .step .w6 { wr := some .asserted },
    .step .w7 { wr := some .deasserted },
    .step .w8 { cs := some .deasserted } ]

/-- What the sequencer does for an item (R115, 44_scroll_init.md R196). -/
def itemMicros : Item → List Micro
  | .sel i => selSteps i
  | .data h l => dataSteps h l
  | .reg i v => selSteps i ++ dataSteps (hiByte v) (loByte v)
  | .rst a => [.step .rstLine { rst := some a }]
  | .bl b => [.step .blLine { bl := some b }]
  | .delay more => [.wait more]

/-- The steps of `BusData` for the colour of an opaque pixel: those of `dataSteps`, with the two that drive a byte of the
colour left to their edges (43_sprite.md R167, 20_memory.md R54). -/
def colorSteps (px : PixelOp) (found : Half) : List Micro :=
  [ .step .w1 { rs := some .data, cs := some .asserted },
    .color true px found,
    .step .w3 { wr := some .asserted },
    .step .w4 { wr := some .deasserted },
    .color false px found,
    .step .w6 { wr := some .asserted },
    .step .w7 { wr := some .deasserted },
    .step .w8 { cs := some .deasserted } ]

/-- What the sequencer does for an output pixel, with `rd` reading a byte of the asset memory (43_sprite.md R166,
R167). -/
def pixelMicros (p : Params) (rd : Nat → Byte) (px : PixelOp) : List Micro :=
  if pixelIndex p rd px = transparentIndex then (correction p px.nextX px.yrow).flatMap itemMicros
  else colorSteps px (palRead p px.pal (pixelIndex p rd px))

/-- What the sequencer does for an operation. -/
def Op.micros (p : Params) (rd : Nat → Byte) : Op → List Micro
  | .item t => itemMicros t
  | .pixel px => pixelMicros p rd px

/-- The byte of a colour that W2 (`high`) or W5 drives. -/
def colorByte (high : Bool) (c : Half) : Byte := if high then hiByte c else loByte c

/-! ### Running a bus sequence -/

/-- One bus step: the pins change, the trace grows, the controller sees the change (R110, 20_memory.md R66). -/
def State.busStep (c : PinChange) (s : State) : State :=
  { s with
    pins := s.pins.apply c
    trace := pushTrace (s.pins.apply c) s.trace
    controller := Controller.observe s.params s.pins (s.pins.apply c) s.controller }

/-- A sequencer action without its time: a wait changes nothing (R111, 44_scroll_init.md R198). -/
def State.micro (s : State) : Micro → State
  | .step _ c => s.busStep c
  | .wait _ => s
  | .color high _ found => s.busStep { d := some (colorByte high found) }

/-- An item's steps, in order. -/
def State.runItem (s : State) (t : Item) : State := (itemMicros t).foldl State.micro s

/-- Items in order, each complete before the next begins (20_memory.md R63). -/
def State.runItems (s : State) (ts : List Item) : State := ts.foldl State.runItem s

/-- A byte of the asset memory (20_memory.md R52). -/
def State.assetByte (s : State) (a : Nat) : Byte := Memory.read s.assets a

/-- A command's operations in order, with no host write between them. -/
def State.runOps (s : State) (ops : List Op) : State :=
  ops.foldl (fun t o => t.runItems (o.items t.params t.assetByte)) s

/-! ### The start and the end of a command -/

/-- A command that passed its checks starts: the scroll offset is set (44_scroll_init.md R190, R197), and what its start
does to the controller. -/
def State.start (kind : CommandKind) (scroll : Byte) (s : State) : State :=
  { s with scrollOffset := scroll, controller := s.controller.beginCommand kind }

/-- The command is over: `phase <- IDLE`; nothing is left of it in the sequencer. -/
def State.finish (s : State) : State :=
  { s with phase := .idle, seq := .none, olds := [] }

/-- The bus sequence of a command is complete (10_state.md R28), and what its end does to the controller. -/
def State.complete (kind : CommandKind) (s : State) : State :=
  State.finish { s with controller := s.controller.endCommand kind }

/-- `raise Reject(code)`: the error is recorded, no bus step is performed, `phase <- IDLE` (60_exceptions.md R214). -/
def State.reject (code : ErrCode) (s : State) : State := (s.recordErr code).finish

/-- A command as one transition (10_state.md R22): rejected with no effect on the bus, or executed in full
(60_exceptions.md R216). -/
def State.perform (s : State) : Plan → State
  | .reject code => s.reject code
  | .run kind scroll ops => ((s.start kind scroll).runOps ops).complete kind

/-! ### Block reset -/

/-- An edge at which `rst` is asserted: the reset state of 10_state.md R36 is taken, whatever the block was doing
(70_reset_and_hazards.md R240, R241); the asset memory keeps its contents (10_state.md R35) and the controller is left
unspecified (20_memory.md R71). -/
def State.blockReset (s : State) : State :=
  { s with
    phase := .idle
    cmd := 0#128
    pins := resetPins
    scrollOffset := 0#8
    err := false
    errCode := 0#4
    seq := .none
    trace := pushTrace resetPins s.trace
    olds := []
    controller := s.controller.unspecified }

end Sys2Proof.Machine
end

