-- ==== Sys2Proof/Machine/Addressing.lean ====
section
/-! DEFINITION. The addressing window sequencer's commands SET_WINDOW and SET_CURSOR (41_addressing.md R131, R134). -/

namespace Sys2Proof.Machine

/-- SET_WINDOW: bounds in order, then within the panel, then `SetWindowSeq` (R131). -/
def planSetWindow (p : Params) (x0 y0 x1 y1 : Byte) (scroll : Byte) : Plan :=
  if x0.toNat > x1.toNat ∨ y0.toNat > y1.toNat then .reject .badWindow
  else if !onPanel x1.toNat y1.toNat then .reject .outOfPanel
  else .run .plain scroll ((setWindowSeq p x0.toNat y0.toNat x1.toNat y1.toNat).map .item)

/-- SET_WINDOW as one transition. -/
def execSetWindow (x0 y0 x1 y1 : Byte) (s : State) : Host.Outcome State Fault Refusal :=
  .next (s.perform (planSetWindow s.params x0 y0 x1 y1 s.scrollOffset))

/-- SET_CURSOR: within the panel, then `SetCursorSeq` (R134). -/
def planSetCursor (p : Params) (x y : Byte) (scroll : Byte) : Plan :=
  if !onPanel x.toNat y.toNat then .reject .outOfPanel
  else .run .plain scroll ((setCursorSeq p x.toNat y.toNat).map .item)

/-- SET_CURSOR as one transition. -/
def execSetCursor (x y : Byte) (s : State) : Host.Outcome State Fault Refusal :=
  .next (s.perform (planSetCursor s.params x y s.scrollOffset))

end Sys2Proof.Machine
end

