-- ==== Sys2Proof/Machine/Bus.lean ====
section
/-! DEFINITION. The raw commands SELECT_REG and WRITE_DATA (40_bus_protocol.md R116, R117). -/

namespace Sys2Proof.Machine

/-- SELECT_REG: `BusSel(idx)`, no operand check (R116). -/
def planSelectReg (idx : Byte) (scroll : Byte) : Plan :=
  .run .plain scroll [.item (.sel idx)]

/-- SELECT_REG as one transition. -/
def execSelectReg (idx : Byte) (s : State) : Host.Outcome State Fault Refusal :=
  .next (s.perform (planSelectReg idx s.scrollOffset))

/-- WRITE_DATA: `BusData(high, low)`, no operand check (R117). -/
def planWriteData (high low : Byte) (scroll : Byte) : Plan :=
  .run .plain scroll [.item (.data high low)]

/-- WRITE_DATA as one transition. -/
def execWriteData (high low : Byte) (s : State) : Host.Outcome State Fault Refusal :=
  .next (s.perform (planWriteData high low s.scrollOffset))

end Sys2Proof.Machine
end

