-- ==== Sys2Proof/Machine/Primitives.lean ====
section
/-! DEFINITION. The primitive drawing commands (42_primitives.md R140–R148). -/

namespace Sys2Proof.Machine

/-- `OpenWindow(x0, y0, x1, y1)` and then `n` writes of `color` (R147, R148). -/
def fillItems (p : Params) (x0 y0 x1 y1 : Nat) (color : Half) (n : Nat) : List Item :=
  openWindow p x0 y0 x1 y1 ++ streamFill p color n

/-- DRAW_PIXEL (R140). -/
def planDrawPixel (p : Params) (x y : Byte) (color : Half) (scroll : Byte) : Plan :=
  if !onPanel x.toNat y.toNat then .reject .outOfPanel
  else .run .drawing scroll ((fillItems p x.toNat y.toNat x.toNat y.toNat color 1).map .item)

/-- DRAW_PIXEL as one transition. -/
def execDrawPixel (x y : Byte) (color : Half) (s : State) : Host.Outcome State Fault Refusal :=
  .next (s.perform (planDrawPixel s.params x y color s.scrollOffset))

/-- DRAW_HLINE: `width` counts the pixels after the first (R142, 90_conflicts.md C2). -/
def planDrawHline (p : Params) (x y width : Byte) (color : Half) (scroll : Byte) : Plan :=
  if !onPanel x.toNat y.toNat || x.toNat + width.toNat ≥ panelW then .reject .outOfPanel
  else .run .drawing scroll
    ((fillItems p x.toNat y.toNat (x.toNat + width.toNat) y.toNat color (width.toNat + 1)).map .item)

/-- DRAW_HLINE as one transition. -/
def execDrawHline (x y width : Byte) (color : Half) (s : State) : Host.Outcome State Fault Refusal :=
  .next (s.perform (planDrawHline s.params x y width color s.scrollOffset))

/-- DRAW_RECT: an extent, then within the panel, then a row-major stream (R144). -/
def planDrawRect (p : Params) (x y width height : Byte) (color : Half) (scroll : Byte) : Plan :=
  if width.toNat = 0 ∨ height.toNat = 0 then .reject .zeroExtent
  else if !fitsPanel x.toNat y.toNat width.toNat height.toNat then .reject .outOfPanel
  else .run .drawing scroll
    ((fillItems p x.toNat y.toNat (x.toNat + width.toNat - 1) (y.toNat + height.toNat - 1) color
      (width.toNat * height.toNat)).map .item)

/-- DRAW_RECT as one transition. -/
def execDrawRect (x y width height : Byte) (color : Half) (s : State) : Host.Outcome State Fault Refusal :=
  .next (s.perform (planDrawRect s.params x y width height color s.scrollOffset))

/-- CLEAR_SCREEN: the full panel, `PANEL_H × PANEL_W` zero writes (R146). -/
def planClearScreen (p : Params) (scroll : Byte) : Plan :=
  .run .drawing scroll ((fillItems p 0 0 (panelW - 1) (panelH - 1) 0x0000#16 (panelH * panelW)).map .item)

/-- CLEAR_SCREEN as one transition. -/
def execClearScreen (s : State) : Host.Outcome State Fault Refusal :=
  .next (s.perform (planClearScreen s.params s.scrollOffset))

end Sys2Proof.Machine
end

