-- ==== Sys2Proof/Machine/ScrollInit.lean ====
section
/-! DEFINITION. The scroll controller and the initialization command (44_scroll_init.md R190–R199). -/

namespace Sys2Proof.Machine

/-- `Next(s)` (R191). -/
def scrollNext (s : Byte) : Byte := if s = scrollMax then 0#8 else s + 1#8

/-- `Prev(s)` (R191). -/
def scrollPrev (s : Byte) : Byte := if s = 0#8 then scrollMax else s - 1#8

/-- The new offset is kept and written to the controller's scroll register (R190, R192). -/
def planScrollTo (p : Params) (scroll : Byte) : Plan :=
  .run .plain scroll [.item (.reg p.regScroll (zext16 scroll.toNat))]

/-- SCROLL_FWD (R190). -/
def planScrollFwd (p : Params) (scroll : Byte) : Plan := planScrollTo p (scrollNext scroll)

/-- SCROLL_FWD as one transition. -/
def execScrollFwd (s : State) : Host.Outcome State Fault Refusal :=
  .next (s.perform (planScrollFwd s.params s.scrollOffset))

/-- SCROLL_BWD (R192). -/
def planScrollBwd (p : Params) (scroll : Byte) : Plan := planScrollTo p (scrollPrev scroll)

/-- SCROLL_BWD as one transition. -/
def execScrollBwd (s : State) : Host.Outcome State Fault Refusal :=
  .next (s.perform (planScrollBwd s.params s.scrollOffset))

/-- INIT: the offset becomes 0, then `INIT_SEQ` in list order; the controller's scroll register is open unless the list
writes it (R197, U9). -/
def planInit (p : Params) : Plan := .run .init 0#8 (p.initSeq.map .item)

/-- INIT as one transition. -/
def execInit (s : State) : Host.Outcome State Fault Refusal :=
  .next (s.perform (planInit s.params))

end Sys2Proof.Machine
end

