-- ==== Sys2Proof/Machine/Sprite.lean ====
section
/-! DEFINITION. The blit transform pipeline and the tile commands (43_sprite.md R164–R178). -/

namespace Sys2Proof.Machine

/-- The panel row of output row `o` of a tile of height `big` at `y` (R165). -/
def yrowOf (y big o : Nat) (fv : Bool) : Nat := if fv then y + big - 1 - o else y + o

/-- One output row of `TileBody`: its cursor placement and select, then its output pixels in increasing column, each
source position `scale` times (R164, R166, R167). -/
def tileRow (p : Params) (x yrow scale rowAddr : Nat) (pal : Byte) (fh : Bool) : List Op :=
  (setCursorSeq p x yrow ++ [Item.sel p.regGram]).map Op.item ++
  (List.finRange 8).flatMap fun q =>
    (List.range scale).map fun k =>
      Op.pixel { rowAddr := rowAddr, q := q, fh := fh, pal := pal, nextX := x + (q.val * scale + k) + 1, yrow := yrow }

/-- `TileBody(x, y, scale, a, pal, fv, fh)` (R168): the window, then source rows 0..7 in order, each as `scale` output
rows. -/
def tileBody (p : Params) (x y scale a : Nat) (pal : Byte) (fv fh : Bool) : List Op :=
  (setWindowSeq p x y (x + 8 * scale - 1) (y + 8 * scale - 1)).map Op.item ++
  (List.range 8).flatMap fun r =>
    (List.range scale).flatMap fun rep =>
      tileRow p x (yrowOf y (8 * scale) (r * scale + rep) fv) scale (a + 3 * r) pal fh

/-- DRAW_TILE: scale, palette, address and panel checks in R170's order, then `TileBody`. -/
def planDrawTile (p : Params) (x y scale pal : Byte) (addr : AssetAddr) (fv fh : Bool) (scroll : Byte) : Plan :=
  if scale.toNat = 0 then .reject .badScale
  else if !palOk p pal then .reject .badPalette
  else if !tileAddrOk p addr then .reject .badAddress
  else if !fitsPanel x.toNat y.toNat (8 * scale.toNat) (8 * scale.toNat) then .reject .outOfPanel
  else .run .drawing scroll (tileBody p x.toNat y.toNat scale.toNat addr.toNat pal fv fh)

/-- DRAW_TILE as one transition. -/
def execDrawTile (x y scale pal : Byte) (addr : AssetAddr) (fv fh : Bool) (s : State) :
    Host.Outcome State Fault Refusal :=
  .next (s.perform (planDrawTile s.params x y scale pal addr fv fh s.scrollOffset))

/-- The four tiles of a composite: the bottom two with `fv = 1`, none with `fh = 1` (R176, 90_conflicts.md C10). -/
def compositeBody (p : Params) (x y scale : Nat) (pal : Byte) (tl tr bl br : Nat) : List Op :=
  tileBody p x y scale tl pal false false ++
  tileBody p (x + 8 * scale) y scale tr pal false false ++
  tileBody p x (y + 8 * scale) scale bl pal true false ++
  tileBody p (x + 8 * scale) (y + 8 * scale) scale br pal true false

/-- DRAW_COMPOSITE: all checks, for all four tiles, before any bus activity (R176). -/
def planDrawComposite (p : Params) (x y scale pal : Byte) (tl tr bl br : AssetAddr) (scroll : Byte) : Plan :=
  if scale.toNat = 0 then .reject .badScale
  else if !palOk p pal then .reject .badPalette
  else if !(tileAddrOk p tl && tileAddrOk p tr && tileAddrOk p bl && tileAddrOk p br) then .reject .badAddress
  else if !fitsPanel x.toNat y.toNat (16 * scale.toNat) (16 * scale.toNat) then .reject .outOfPanel
  else .run .drawing scroll
    (compositeBody p x.toNat y.toNat scale.toNat pal tl.toNat tr.toNat bl.toNat br.toNat)

/-- DRAW_COMPOSITE as one transition. -/
def execDrawComposite (x y scale pal : Byte) (tl tr bl br : AssetAddr) (s : State) :
    Host.Outcome State Fault Refusal :=
  .next (s.perform (planDrawComposite s.params x y scale pal tl tr bl br s.scrollOffset))

end Sys2Proof.Machine
end

