-- ==== Sys2Proof/Machine/Dispatch.lean ====
section
/-! DEFINITION. One arm per command: its meaning as one transition (10_state.md R22). -/

namespace Sys2Proof.Machine

def exec (i : Instr) (s : State) : Host.Outcome State Fault Refusal :=
  match i with
  | .selectReg idx => Sys2Proof.Machine.execSelectReg idx s
  | .writeData high low => Sys2Proof.Machine.execWriteData high low s
  | .setWindow x0 y0 x1 y1 => Sys2Proof.Machine.execSetWindow x0 y0 x1 y1 s
  | .setCursor x y => Sys2Proof.Machine.execSetCursor x y s
  | .drawPixel x y color => Sys2Proof.Machine.execDrawPixel x y color s
  | .drawHline x y width color => Sys2Proof.Machine.execDrawHline x y width color s
  | .drawRect x y width height color => Sys2Proof.Machine.execDrawRect x y width height color s
  | .clearScreen => Sys2Proof.Machine.execClearScreen s
  | .drawTile x y scale pal addr fv fh => Sys2Proof.Machine.execDrawTile x y scale pal addr fv fh s
  | .drawComposite x y scale pal tl tr bl br => Sys2Proof.Machine.execDrawComposite x y scale pal tl tr bl br s
  | .scrollFwd => Sys2Proof.Machine.execScrollFwd s
  | .scrollBwd => Sys2Proof.Machine.execScrollBwd s
  | .init => Sys2Proof.Machine.execInit s

end Sys2Proof.Machine
end

