-- ==== Sys2Proof/Machine/Sequencer.lean ====
section
/-! DEFINITION. The block at clock edges: acceptance, decode, one bus step at a time with its hold, rejection,
`err_clr`, block reset in mid-command, and host writes to asset bytes a running command reads (10_state.md R28–R30;
40_bus_protocol.md R110; 60_exceptions.md R220; 70_reset_and_hazards.md R240, R241; 20_memory.md R54). -/

namespace Sys2Proof.Machine

/-- What a decoded command does with the parameters and the present scroll offset. -/
def planOf (i : Instr) (p : Params) (scroll : Byte) : Plan :=
  match i with
  | .selectReg idx => planSelectReg idx scroll
  | .writeData high low => planWriteData high low scroll
  | .setWindow x0 y0 x1 y1 => planSetWindow p x0 y0 x1 y1 scroll
  | .setCursor x y => planSetCursor p x y scroll
  | .drawPixel x y color => planDrawPixel p x y color scroll
  | .drawHline x y width color => planDrawHline p x y width color scroll
  | .drawRect x y width height color => planDrawRect p x y width height color scroll
  | .clearScreen => planClearScreen p scroll
  | .drawTile x y scale pal addr fv fh => planDrawTile p x y scale pal addr fv fh scroll
  | .drawComposite x y scale pal tl tr bl br => planDrawComposite p x y scale pal tl tr bl br scroll
  | .scrollFwd => planScrollFwd p scroll
  | .scrollBwd => planScrollBwd p scroll
  | .init => planInit p

/-- What a command word does: a decode error is a rejection (30_encoding.md R85, R86; 60_exceptions.md R212). -/
def planWord (w : CmdWord) (p : Params) (scroll : Byte) : Plan :=
  match decode w with
  | .legal i => planOf i p scroll
  | .illegalOpcode => .reject .illegalOpcode
  | .reservedBits => .reject .reservedBits

/-! ### Reads of asset bytes that the host has changed -/

/-- The values a byte has had since the running command was accepted, the present one first (20_memory.md R54). -/
def State.byteValues (s : State) (a : Nat) : List Byte :=
  s.assetByte a :: (s.olds.filter (fun c => c.1 == a)).map (fun c => c.2)

/-- One read of a byte while a command is BUSY: any one of the values it has had, by free choice (R54, U11). -/
def State.racedByte (s : State) (a : Nat) : Byte :=
  (s.byteValues a).getD (Config.raceChoice s.raceReads a % (s.byteValues a).length) (s.assetByte a)

/-- A read of an asset byte by the running command. -/
def State.busyRead (s : State) : Nat → Byte :=
  match s.olds with
  | [] => s.assetByte
  | _ :: _ => s.racedByte

/-- What the sequencer does for an operation reached while BUSY, with the bytes as read there. -/
def State.opMicros (s : State) (o : Op) : List Micro := o.micros s.params s.busyRead

/-- An action at its own edge: the bytes behind a colour may be read anew there (20_memory.md R54, 43_sprite.md R168).
Where the host has changed a byte, each read is a free choice of its values; an index 7 so read changes nothing, since
entry 7 is never read and the pixel is already being drawn (43_sprite.md R163; DESIGN CHOICE, safe, log 9). -/
def State.reread (s : State) : Micro → Micro
  | .step k c => .step k c
  | .wait more => .wait more
  | .color high px found =>
    match s.olds with
    | [] => .color high px found
    | _ :: _ =>
      if pixelIndex s.params s.racedByte px = transparentIndex then .color high px found
      else .color high px (palRead s.params px.pal (pixelIndex s.params s.racedByte px))

/-- Whether an operation begins with reads of asset bytes. -/
def Op.reads : Op → Bool
  | .item _ => false
  | .pixel _ => true

/-- Whether an action may read asset bytes again. -/
def Micro.reads : Micro → Bool
  | .step _ _ => false
  | .wait _ => false
  | .color _ _ _ => true

/-- Count the free choices drawn by reads that may be contested. -/
def State.countRace (reads : Bool) (s : State) : State :=
  { s with raceReads := if reads && !s.olds.isEmpty then s.raceReads + 1 else s.raceReads }

/-! ### One edge of a command -/

/-- How many more edges an action is held after its own (40_bus_protocol.md R110, 44_scroll_init.md R198). -/
def holdOf (p : Params) : Micro → Nat
  | .step k _ => holdExtra p k
  | .wait more => more
  | .color high _ _ => holdExtra p (if high then .w2 else .w5)

/-- The edge at which the present pin vector has been held its cycles: the next action occurs, or the command ends. A
pixel is found transparent or opaque at the edge of its first bus step, and the bytes of its colour at the edges of the
steps that drive them, from reads made as late as there (20_memory.md R54, R64). -/
def State.advance (s : State) (kind : CommandKind) (micros : List Micro) (ops : List Op) : State :=
  match micros with
  | m :: ms =>
    { (s.countRace m.reads).micro (s.reread m) with seq := .running kind (holdOf s.params m) ms ops }
  | [] =>
    match ops with
    | [] => s.complete kind
    | o :: os =>
      match s.opMicros o with
      | [] => { s.countRace o.reads with seq := .running kind 0 [] os }
      | m :: ms => { (s.countRace o.reads).micro m with seq := .running kind (holdOf s.params m) ms os }

/-- A rejected command is BUSY for `left` more edges and then recorded (60_exceptions.md R214, R220). -/
def State.rejectAfter (s : State) (code : ErrCode) : Nat → State
  | 0 => s.reject code
  | left + 1 => { s with seq := .rejecting left code }

/-- The edge at which decode and checks are complete: the first bus step occurs, or the rejection begins
(60_exceptions.md R213). -/
def State.begin (s : State) : State :=
  match planWord s.cmd s.params s.scrollOffset with
  | .reject code => s.rejectAfter code s.params.rejectExtra
  | .run kind scroll ops => (s.start kind scroll).advance kind [] ops

/-- A rising edge while BUSY, `rst` deasserted. -/
def State.tick (s : State) : State :=
  match s.seq with
  | .none => s.finish
  | .decoding 0 => s.begin
  | .decoding (left + 1) => { s with seq := .decoding left }
  | .rejecting left code => s.rejectAfter code left
  | .running kind 0 micros ops => s.advance kind micros ops
  | .running kind (hold + 1) micros ops => { s with seq := .running kind hold micros ops }

/-- A command is accepted: `cmd <- cmd_word`, `phase <- BUSY` (10_state.md R29). -/
def State.accept (w : CmdWord) (s : State) : State :=
  { s with cmd := w, phase := .busy, seq := .decoding s.params.decodeExtra, olds := [] }

/-- One rising edge with the host's inputs, in R220's order of precedence: reset, clear, a command in progress (with
the rejection that may complete), acceptance. A word offered while BUSY is not captured (10_state.md R29). -/
def State.edge (rst errClr : Bool) (offer : Option CmdWord) (s : State) : State :=
  if rst then s.blockReset
  else
    let t := if errClr then s.clearErr else s
    match t.phase, offer with
    | .busy, _ => t.tick
    | .idle, some w => t.accept w
    | .idle, none => t

/-- The host writes an asset byte; while a command is BUSY the byte's value before is kept as one its reads may still
return (20_memory.md R54). -/
def State.hostWrite (a : AssetAddr) (b : Byte) (s : State) : State :=
  { s with
    assets := Memory.write s.assets a.toNat b
    olds := if s.busy then (a.toNat, s.assetByte a.toNat) :: s.olds else s.olds }

/-- The host writes an asset byte that exists, or the machine stops (20_memory.md R52, R62). -/
def State.hostWriteChecked (a : AssetAddr) (b : Byte) (s : State) : Host.Outcome State Fault Refusal :=
  if a.toNat < assetBytes s.params then .next (s.hostWrite a b) else .fault (.noSuchAssetByte a)

end Sys2Proof.Machine
end

