-- ==== Sys2Proof/Machine/Accept.lean ====
section
/-! DEFINITION. A whole command as one host input: offered, accepted, run to its end (10_state.md R22, R29). -/

namespace Sys2Proof.Machine

/-- The state in which an accepted command executes as one transition: `cmd` captured, BUSY (10_state.md R29). -/
def State.capture (w : CmdWord) (s : State) : State :=
  { s with cmd := w, phase := .busy, seq := .none, olds := [] }

/-- An accepted word, run as one transition: a legal command by its meaning, any other word rejected
(30_encoding.md R85–R87). -/
def runWord (w : CmdWord) (s : State) : Host.Outcome State Fault Refusal :=
  match decode w with
  | .legal i => exec i (s.capture w)
  | .illegalOpcode => .next ((s.capture w).reject .illegalOpcode)
  | .reservedBits => .next ((s.capture w).reject .reservedBits)

/-- The host offers `w` and holds it (10_state.md R29): while BUSY the block goes on with the command it has, one edge
at a time, and the offer stays; when IDLE the word is taken and runs. -/
def State.takeCommand (w : CmdWord) (rest : List HostInput) (s : State) : Host.Outcome State Fault Refusal :=
  match s.phase with
  | .busy => .next s.tick
  | .idle => runWord w { s with inputs := rest }

/-- The host does nothing: the clock runs. -/
def State.noInput (s : State) : State := s.edge false false none

end Sys2Proof.Machine
end

