-- ==== Sys2Proof/Machine/Step.lean ====
section
/-! DEFINITION. One step: the host's next input, or a clock edge without one. -/

namespace Sys2Proof.Machine

/-- The machine takes the host's next input. -/
def step (s : State) : Host.Outcome State Fault Refusal :=
  match s.inputs with
  | [] => .next s.noInput
  | .command w :: rest => s.takeCommand w rest
  | .edge rst errClr offer :: rest => .next (State.edge rst errClr offer { s with inputs := rest })
  | .assetWrite a b :: rest => State.hostWriteChecked a b { s with inputs := rest }

/-- `s` with a command word as the host's next input and the block ready for it (log 3). -/
def State.withFetchWord (s : State) (nbits w : Nat) : State :=
  { s with
    phase := .idle
    seq := .none
    inputs := .command (tableWord nbits w) :: s.inputs }

end Sys2Proof.Machine
end

