-- ==== Sys2Proof/Machine/Assembler.lean ====
section
/-! DEFINITION. The assembler syntax and the pseudo-instructions of 30_encoding.md R88, R89: a line of text, the line
as operands that may not fit their slots, and the commands it stands for. No step uses it. -/

namespace Sys2Proof.Machine

/-- A line of assembly with its operands as written, numbers of any size (R88, R89). -/
inductive AsmLine where
  | sel (idx : Nat)
  | wrd (high low : Nat)
  | win (x0 y0 x1 y1 : Nat)
  | cur (x y : Nat)
  | pix (x y color : Nat)
  | hline (x y width color : Nat)
  | rect (x y w h color : Nat)
  | cls
  | tile (x y scale pal addr : Nat) (fv fh : Bool)
  | comp (x y scale pal tl tr bl br : Nat)
  | scrf
  | scrb
  | init
  | wreg (idx v : Nat)
  | gram
  | px (color : Nat)
  | fill (x y w h color : Nat)
deriving DecidableEq, Repr

/-- An operand of an 8-bit slot, if it fits (R88). -/
def slot8 (n : Nat) : Option Byte := if n < 256 then some (BitVec.ofNat 8 n) else none

/-- An operand of a 16-bit slot, if it fits (R88). -/
def slot16 (n : Nat) : Option Half := if n < 65536 then some (BitVec.ofNat 16 n) else none

/-- The commands of a line, or an assembly error: the assembler never truncates (R88); pseudo-instructions expand as in
R89. -/
def assemble (p : Params) : AsmLine → Option (List Instr)
  | .sel idx => do return [.selectReg (← slot8 idx)]
  | .wrd high low => do return [.writeData (← slot8 high) (← slot8 low)]
  | .win x0 y0 x1 y1 => do return [.setWindow (← slot8 x0) (← slot8 y0) (← slot8 x1) (← slot8 y1)]
  | .cur x y => do return [.setCursor (← slot8 x) (← slot8 y)]
  | .pix x y color => do return [.drawPixel (← slot8 x) (← slot8 y) (← slot16 color)]
  | .hline x y width color => do
    return [.drawHline (← slot8 x) (← slot8 y) (← slot8 width) (← slot16 color)]
  | .rect x y w h color => do
    return [.drawRect (← slot8 x) (← slot8 y) (← slot8 w) (← slot8 h) (← slot16 color)]
  | .cls => some [.clearScreen]
  | .tile x y scale pal addr fv fh => do
    return [.drawTile (← slot8 x) (← slot8 y) (← slot8 scale) (← slot8 pal) (← slot16 addr) fv fh]
  | .comp x y scale pal tl tr bl br => do
    return [.drawComposite (← slot8 x) (← slot8 y) (← slot8 scale) (← slot8 pal)
      (← slot16 tl) (← slot16 tr) (← slot16 bl) (← slot16 br)]
  | .scrf => some [.scrollFwd]
  | .scrb => some [.scrollBwd]
  | .init => some [.init]
  | .wreg idx v => do
    let w ← slot16 v
    return [.selectReg (← slot8 idx), .writeData (w.extractLsb' 8 8) (w.extractLsb' 0 8)]
  | .gram => some [.selectReg p.regGram]
  | .px color => do
    let w ← slot16 color
    return [.writeData (w.extractLsb' 8 8) (w.extractLsb' 0 8)]
  | .fill x y w h color => do
    return [.drawRect (← slot8 x) (← slot8 y) (← slot8 w) (← slot8 h) (← slot16 color)]

/-- The words of a line. -/
def assembleWords (p : Params) (l : AsmLine) : Option (List CmdWord) := (assemble p l).map (List.map encode)

/-! ### Text (R88); blanks around a word and letter case are as log 19 says -/

/-- A blank. -/
def isBlank (c : Char) : Bool := c == ' ' || c == '\t' || c == '\r'

/-- A word without the blanks around it. -/
def trimBlanks (cs : List Char) : List Char :=
  ((cs.dropWhile isBlank).reverse.dropWhile isBlank).reverse

/-- The pieces of a list between commas. -/
def splitCommas : List Char → List (List Char)
  | [] => [[]]
  | c :: cs =>
    match splitCommas cs with
    | [] => [[c]]
    | piece :: pieces => if c = ',' then [] :: piece :: pieces else (c :: piece) :: pieces

/-- The value of a digit in a base of at most 16. -/
def digitOf (base : Nat) (c : Char) : Option Nat :=
  let n := c.toNat
  let d := if 48 ≤ n ∧ n ≤ 57 then n - 48 else if 97 ≤ n ∧ n ≤ 102 then n - 87 else if 65 ≤ n ∧ n ≤ 70 then n - 55
    else 16
  if d < base then some d else none

/-- A number's digits, most significant first. -/
def digitsOf (base : Nat) : Nat → List Char → Option Nat
  | acc, [] => some acc
  | acc, c :: cs => (digitOf base c).bind fun d => digitsOf base (acc * base + d) cs

/-- A number in decimal or `0x` hex (R88). -/
def number : List Char → Option Nat
  | [] => none
  | ['0', 'x'] => none
  | '0' :: 'x' :: cs => digitsOf 16 0 cs
  | cs => digitsOf 10 0 cs

/-- The optional trailing keywords of `tile`. -/
def tileFlags : List (List Char) → Option (Bool × Bool)
  | [] => some (false, false)
  | [['f', 'v']] => some (true, false)
  | [['f', 'h']] => some (false, true)
  | [['f', 'v'], ['f', 'h']] => some (true, true)
  | _ => none

/-- A mnemonic with its operands' texts. -/
def asmLine (mnemonic : List Char) (args : List (List Char)) : Option AsmLine := do
  let flags := args.drop 5
  let nums ← (if mnemonic = "tile".toList then args.take 5 else args).mapM number
  match String.ofList mnemonic, nums with
  | "sel", [idx] => some (.sel idx)
  | "wrd", [high, low] => some (.wrd high low)
  | "win", [x0, y0, x1, y1] => some (.win x0 y0 x1 y1)
  | "cur", [x, y] => some (.cur x y)
  | "pix", [x, y, color] => some (.pix x y color)
  | "hline", [x, y, width, color] => some (.hline x y width color)
  | "rect", [x, y, w, h, color] => some (.rect x y w h color)
  | "cls", [] => some .cls
  | "tile", [x, y, scale, pal, addr] => (tileFlags flags).map fun f => .tile x y scale pal addr f.1 f.2
  | "comp", [x, y, scale, pal, tl, tr, bl, br] => some (.comp x y scale pal tl tr bl br)
  | "scrf", [] => some .scrf
  | "scrb", [] => some .scrb
  | "init", [] => some .init
  | "wreg", [idx, v] => some (.wreg idx v)
  | "gram", [] => some .gram
  | "px", [color] => some (.px color)
  | "fill", [x, y, w, h, color] => some (.fill x y w h color)
  | _, _ => none

/-- A line of text: `none` is a syntax error, `some none` a line with nothing on it but perhaps a comment (R88). -/
def parseLine (text : List Char) : Option (Option AsmLine) :=
  let body := trimBlanks (text.takeWhile (· ≠ ';'))
  match body with
  | [] => some none
  | _ :: _ =>
    let mnemonic := body.takeWhile (fun c => !isBlank c)
    let rest := trimBlanks (body.dropWhile (fun c => !isBlank c))
    let args := match rest with
      | [] => []
      | _ :: _ => (splitCommas rest).map trimBlanks
    (asmLine mnemonic args).map some

end Sys2Proof.Machine
end

