-- ==== Sys2Proof/Machine/Observe.lean ====
section
/-! DEFINITION. What an observer of the display bus reads from the pin trace: the transaction trace
(40_bus_protocol.md R120). -/

namespace Sys2Proof.Machine

/-- A record of the transaction trace (R120). -/
inductive Trans where
  | sel (i : Byte)
  | data (h l : Byte)
deriving DecidableEq, Repr

/-- What has been read of a trace so far: the first byte of an unfinished pair, and the records in order. -/
structure BusReading where
  pending : Option Byte
  trans : List Trans
deriving DecidableEq, Repr

/-- One more pin vector `n` after the vector `o`: a trailing strobe edge with CS asserted carries an index or a data
byte (R120); with CS deasserted an unfinished pair is dropped, as after an abort (70_reset_and_hazards.md R241). -/
def BusReading.next (r : BusReading) (o n : Pins) : BusReading :=
  if n.cs = .deasserted then { r with pending := none }
  else if o.wr = .asserted ∧ n.wr = .deasserted then
    match n.rs, r.pending with
    | .index, _ => { pending := none, trans := r.trans ++ [.sel n.d] }
    | .data, none => { r with pending := some n.d }
    | .data, some h => { pending := none, trans := r.trans ++ [.data h n.d] }
  else r

/-- The reading of a pin trace given newest first. -/
def readTrace : List Pins → BusReading
  | [] => { pending := none, trans := [] }
  | [_] => { pending := none, trans := [] }
  | n :: o :: rest => (readTrace (o :: rest)).next o n

/-- The pin trace in the order it happened (10_state.md R27). -/
def State.pinTrace (s : State) : List Pins := s.trace.reverse

/-- The transaction trace (R120), oldest first. -/
def State.transactions (s : State) : List Trans := (readTrace s.trace).trans

/-- The records an item adds to the transaction trace (R113–R115). -/
def itemTrans : Item → List Trans
  | .sel i => [.sel i]
  | .data h l => [.data h l]
  | .reg i v => [.sel i, .data (hiByte v) (loByte v)]
  | .rst _ => []
  | .bl _ => []
  | .delay _ => []

/-- The records of a list of items. -/
def itemsTrans (ts : List Item) : List Trans := ts.flatMap itemTrans

/-- The items of a command's operations, with `rd` reading the asset memory. -/
def opsItems (p : Params) (rd : Nat → Byte) (ops : List Op) : List Item := ops.flatMap (Op.items p rd)

/-- How many `Sel` records a transaction trace has (70_reset_and_hazards.md R261). -/
def countSel (ts : List Trans) : Nat := ts.countP (fun t => match t with | .sel _ => true | .data _ _ => false)

/-- How many `Data` records a transaction trace has (70_reset_and_hazards.md R261). -/
def countData (ts : List Trans) : Nat := ts.countP (fun t => match t with | .sel _ => false | .data _ _ => true)

end Sys2Proof.Machine
end

