-- ==== Sys2Proof/WellFormed.lean ====
section
/-! DEFINITION. The caller contracts the spec names (00_scope.md R5) that no open parameter enters: a scale of at
least 1, a rectangle with an extent, a window whose bounds are in order, an area within the panel. The slots' widths
need no check, since an operand has its slot's width by type. A command that is not well formed here still decodes
and runs: its meaning rejects it (60_exceptions.md R213, R214), whatever the open parameters are. -/

namespace Sys2Proof

/-- The area of `w` by `h` pixels with its first pixel at `(x, y)` lies on the panel. -/
def areaOnPanel (x y w h : Nat) : Bool := x + w ≤ panelW && y + h ≤ panelH

/-- The contracts of each command (41_addressing.md R131, R134; 42_primitives.md R140, R142, R144; 43_sprite.md R170,
R176); the raw commands, CLEAR_SCREEN, the scroll commands and INIT have none (60_exceptions.md R213). -/
def Instr.wellFormed : Instr → Bool
  | .selectReg _ => true
  | .writeData _ _ => true
  | .setWindow x0 y0 x1 y1 =>
    x0.toNat ≤ x1.toNat && y0.toNat ≤ y1.toNat && areaOnPanel x1.toNat y1.toNat 1 1
  | .setCursor x y => areaOnPanel x.toNat y.toNat 1 1
  | .drawPixel x y _ => areaOnPanel x.toNat y.toNat 1 1
  | .drawHline x y width _ => areaOnPanel x.toNat y.toNat (width.toNat + 1) 1
  | .drawRect x y width height _ =>
    1 ≤ width.toNat && 1 ≤ height.toNat && areaOnPanel x.toNat y.toNat width.toNat height.toNat
  | .clearScreen => true
  | .drawTile x y scale _ _ _ _ =>
    1 ≤ scale.toNat && areaOnPanel x.toNat y.toNat (8 * scale.toNat) (8 * scale.toNat)
  | .drawComposite x y scale _ _ _ _ _ =>
    1 ≤ scale.toNat && areaOnPanel x.toNat y.toNat (16 * scale.toNat) (16 * scale.toNat)
  | .scrollFwd => true
  | .scrollBwd => true
  | .init => true

end Sys2Proof
end

