-- ==== Sys2Proof/Safety.lean ====
section
/-! DEFINITION. The terms claims are made in: when the bus is settled, the invariant of the machine, and what it means
for a command to leave the rest of the block alone. -/

namespace Sys2Proof.Machine

/-- The eight register indices are pairwise distinct, without which the spec claims nothing (00_scope.md R7). -/
abbrev RegsDistinct (p : Params) : Prop :=
  [p.regHsa, p.regHea, p.regVsa, p.regVea, p.regCurx, p.regCury, p.regGram, p.regScroll].Nodup

/-- Between transactions: the trace ends with the present pins, the write strobe is deasserted and no byte pair is
unfinished (40_bus_protocol.md R118–R120). -/
structure State.Settled (s : State) : Prop where
  traceEnds : s.trace.head? = some s.pins
  wrOff : s.pins.wr = .deasserted
  noPending : (readTrace s.trace).pending = none

/-- The bus steps left of the transaction in progress. -/
def SeqPos.micros : SeqPos → List Micro
  | .none => []
  | .decoding _ => []
  | .rejecting _ _ => []
  | .running _ _ micros _ => micros

/-- The invariant of the machine. -/
structure State.Inv (s : State) : Prop where
  /-- `scroll_offset` always lies in [0, 218] (10_state.md R32). -/
  scroll : s.scrollOffset.toNat ≤ 218
  /-- Codes 9–15 are never written (60_exceptions.md R211). -/
  code : s.errCode.toNat ≤ 8
  /-- `err` is 1 exactly when a code other than `E_NONE` is recorded (10_state.md R30, R31). -/
  errCode : s.err = true ↔ s.errCode ≠ 0#4
  /-- IDLE exactly when the sequencer has nothing (10_state.md R22). -/
  idle : s.phase = .idle ↔ s.seq = .none
  /-- Old asset bytes are kept only while a command executes (20_memory.md R54). -/
  olds : s.phase = .idle → s.olds = []
  /-- The trace ends with the present pins (10_state.md R27). -/
  traceEnds : s.trace.head? = some s.pins
  /-- Consecutive values of the trace differ (10_state.md R27). -/
  merged : s.trace.IsChain (fun a b => a ≠ b)
  /-- When the transaction in progress ends, the bus is settled (40_bus_protocol.md R118). -/
  settles : ((SeqPos.micros s.seq).foldl State.micro s).Settled
  assetsWf : Memory.wf s.assets
  assetsBelow : Memory.below s.assets (assetBytes s.params)
  gramWf : Memory.wf s.controller.gram
  gramBelow : Memory.below s.controller.gram gramCells
  regsWf : Memory.wf s.controller.regs
  regsBelow : Memory.below s.controller.regs 256

/-- `t` has the block's state of `s` but for what a bus sequence and the end of a command change: the parameters, the
error report, the asset memory and the inputs are as in `s`. Of the captured word, open while IDLE, nothing is said. -/
structure State.SameReport (s t : State) : Prop where
  params : t.params = s.params
  err : t.err = s.err
  errCode : t.errCode = s.errCode
  assets : t.assets = s.assets
  inputs : t.inputs = s.inputs
  raceReads : t.raceReads = s.raceReads

/-- The frame of a command: IDLE again, the report as before, and the scroll offset as before. -/
structure State.Frame (s t : State) : Prop extends State.SameReport s t where
  phase : t.phase = .idle
  seq : t.seq = .none
  olds : t.olds = []
  scrollOffset : t.scrollOffset = s.scrollOffset

/-- The command in progress is one that ends in a rejection with `code`: its rejection has begun, or its word, still
being decoded and checked, is one that is rejected with it (60_exceptions.md R212–R214). -/
def State.RejectsWith (s : State) (code : ErrCode) : Prop :=
  s.phase = .busy ∧
    ((∃ left, s.seq = .rejecting left code) ∨
      ((∃ left, s.seq = .decoding left) ∧ planWord s.cmd s.params s.scrollOffset = .reject code))

/-- `t` is `s` after a rejection with `code` (60_exceptions.md R214): nothing but the error report and the phase.
Of the captured word, open while IDLE, nothing is said. -/
structure State.RejectedAs (s t : State) (code : ErrCode) : Prop where
  err : t.err = true
  errCode : t.errCode = if s.err then s.errCode else code.bits
  phase : t.phase = .idle
  seq : t.seq = .none
  pins : t.pins = s.pins
  trace : t.trace = s.trace
  scrollOffset : t.scrollOffset = s.scrollOffset
  controller : t.controller = s.controller
  params : t.params = s.params
  assets : t.assets = s.assets
  inputs : t.inputs = s.inputs

/-- `n` clock edges without a host input. -/
def State.edges : Nat → State → State
  | 0, s => s
  | n + 1, s => State.edges n s.noInput

/-- The next edge performs the action `m` of a command of this kind, and `ms` and `ops` come after it. It may be the
next of the steps begun, the first of the next operation, or the first of a command whose decode and checks end
(40_bus_protocol.md R110, 44_scroll_init.md R198, 60_exceptions.md R213). -/
def State.NextAction (s : State) (kind : CommandKind) (m : Micro) (ms : List Micro) (ops : List Op) : Prop :=
  s.phase = .busy ∧
    (s.seq = .running kind 0 (m :: ms) ops ∨
      (∃ o, s.seq = .running kind 0 [] (o :: ops) ∧ s.opMicros o = m :: ms) ∨
      (s.seq = .decoding 0 ∧ ∃ scroll o,
        planWord s.cmd s.params s.scrollOffset = .run kind scroll (o :: ops) ∧
          s.opMicros o = m :: ms))

/-! ### Rejection causes -/

/-- Every cause for which a legal command is rejected, whatever its priority (60_exceptions.md R211). -/
def causes (p : Params) : Instr → List ErrCode
  | .selectReg _ => []
  | .writeData _ _ => []
  | .setWindow x0 y0 x1 y1 =>
    (if x0.toNat > x1.toNat ∨ y0.toNat > y1.toNat then [.badWindow] else []) ++
    (if x1.toNat ≥ 176 ∨ y1.toNat ≥ 220 then [.outOfPanel] else [])
  | .setCursor x y => if x.toNat ≥ 176 ∨ y.toNat ≥ 220 then [.outOfPanel] else []
  | .drawPixel x y _ => if x.toNat ≥ 176 ∨ y.toNat ≥ 220 then [.outOfPanel] else []
  | .drawHline x y width _ =>
    if x.toNat ≥ 176 ∨ y.toNat ≥ 220 ∨ x.toNat + width.toNat ≥ 176 then [.outOfPanel] else []
  | .drawRect x y width height _ =>
    (if x.toNat + width.toNat > 176 ∨ y.toNat + height.toNat > 220 then [.outOfPanel] else []) ++
    (if width.toNat = 0 ∨ height.toNat = 0 then [.zeroExtent] else [])
  | .clearScreen => []
  | .drawTile x y scale pal addr _ _ =>
    (if x.toNat + 8 * scale.toNat > 176 ∨ y.toNat + 8 * scale.toNat > 220 then [.outOfPanel] else []) ++
    (if addr.toNat + 23 ≥ assetBytes p then [.badAddress] else []) ++
    (if pal.toNat ≥ numPalettes p then [.badPalette] else []) ++
    (if scale.toNat = 0 then [.badScale] else [])
  | .drawComposite x y scale pal tl tr bl br =>
    (if x.toNat + 16 * scale.toNat > 176 ∨ y.toNat + 16 * scale.toNat > 220 then [.outOfPanel] else []) ++
    (if tl.toNat + 23 ≥ assetBytes p ∨ tr.toNat + 23 ≥ assetBytes p ∨ bl.toNat + 23 ≥ assetBytes p ∨
        br.toNat + 23 ≥ assetBytes p then [.badAddress] else []) ++
    (if pal.toNat ≥ numPalettes p then [.badPalette] else []) ++
    (if scale.toNat = 0 then [.badScale] else [])
  | .scrollFwd => []
  | .scrollBwd => []
  | .init => []

/-! ### Records of the transaction trace -/

/-- The records of a register write of a value below 256: its high byte is 0x00 (40_bus_protocol.md R115). -/
def regTrans (i : Byte) (v : Nat) : List Trans := [.sel i, .data 0x00#8 (BitVec.ofNat 8 v)]

/-- The records of `SetCursorSeq` (41_addressing.md R133). -/
def cursorTrans (p : Params) (x y : Nat) : List Trans := regTrans p.regCurx x ++ regTrans p.regCury y

/-- The records of `SetWindowSeq` (41_addressing.md R130). -/
def windowTrans (p : Params) (x0 y0 x1 y1 : Nat) : List Trans :=
  regTrans p.regHsa x0 ++ regTrans p.regHea x1 ++ regTrans p.regVsa y0 ++ regTrans p.regVea y1

/-- The record of a colour write. -/
def colorTrans (c : Half) : Trans := .data (c.extractLsb' 8 8) (c.extractLsb' 0 8)

/-- The records of a fill: window, cursor at its origin, the memory-write register selected once, `n` colour writes
(42_primitives.md R147, R148). -/
def fillTrans (p : Params) (x0 y0 x1 y1 : Nat) (c : Half) (n : Nat) : List Trans :=
  windowTrans p x0 y0 x1 y1 ++ cursorTrans p x0 y0 ++ [.sel p.regGram] ++ List.replicate n (colorTrans c)

/-- The index register after records that start with `ir` selected: the last `Sel` of them
(70_reset_and_hazards.md R251). -/
def lastSel (ir : Byte) (ts : List Trans) : Byte :=
  ts.foldl (fun i t => match t with | .sel j => j | .data _ _ => i) ir

/-- The register each accepted command leaves selected, with `ir` selected before it (70_reset_and_hazards.md R251). -/
def selectedAfter (p : Params) (ir : Byte) : Instr → Byte
  | .selectReg idx => idx
  | .writeData _ _ => ir
  | .setWindow _ _ _ _ => p.regVea
  | .setCursor _ _ => p.regCury
  | .drawPixel _ _ _ => p.regGram
  | .drawHline _ _ _ _ => p.regGram
  | .drawRect _ _ _ _ _ => p.regGram
  | .clearScreen => p.regGram
  | .drawTile _ _ _ _ _ _ _ => p.regGram
  | .drawComposite _ _ _ _ _ _ _ _ => p.regGram
  | .scrollFwd => p.regScroll
  | .scrollBwd => p.regScroll
  | .init => lastSel ir (itemsTrans p.initSeq)

/-- The colour writes among records that start with another register selected: the `Data` records while `g` is
selected (43_sprite.md R172). -/
def gramColors (g : Byte) (ts : List Trans) : List Trans :=
  (ts.foldl (fun (acc : Bool × List Trans) t =>
    match t with
    | .sel i => (i == g, acc.2)
    | .data h l => (acc.1, if acc.1 then acc.2 ++ [.data h l] else acc.2)) (false, [])).2

/-- The level RST has after a list of items that start with `a` on the line (44_scroll_init.md R196, R199). -/
def lastRst (a : Line) (ts : List Item) : Line :=
  ts.foldl (fun b t => match t with
    | .rst c => c
    | .sel _ | .data _ _ | .reg _ _ | .bl _ | .delay _ => b) a

/-- The state BL has after a list of items that start with `a` on the line (44_scroll_init.md R196, R199). -/
def lastBl (a : Backlight) (ts : List Item) : Backlight :=
  ts.foldl (fun b t => match t with
    | .bl c => c
    | .sel _ | .data _ _ | .reg _ _ | .rst _ | .delay _ => b) a

/-! ### Tiles -/

/-- The index that a tile at `a` has at source row `r`, output position `q` (43_sprite.md R160, R162). -/
def State.sourceIndex (s : State) (a r q : Nat) (fh : Bool) : BitVec 3 :=
  decodeIndex s.params.unpackOrder (s.assetByte (a + 3 * r)) (s.assetByte (a + 3 * r + 1))
    (s.assetByte (a + 3 * r + 2)) q fh

/-- The panel row of output row `o` of a tile of `big` rows at `y` (43_sprite.md R165). -/
def panelRow (y big o : Nat) (fv : Bool) : Nat := if fv then y + big - 1 - o else y + o

/-- The records of one output pixel: a correction or a colour write (43_sprite.md R166, R167). -/
def pixelTrans (p : Params) (pal : Byte) (idx : BitVec 3) (nextX yrow : Nat) : List Trans :=
  if idx = 7#3 then cursorTrans p nextX yrow ++ [.sel p.regGram] else [colorTrans (palRead p pal idx)]

/-- The records of a tile told by output rows and columns: output row `o` shows source row `o / scale`, output column
`col` shows source position `col / scale` (43_sprite.md R164–R167). -/
def State.tileTrans (s : State) (x y scale a : Nat) (pal : Byte) (fv fh : Bool) : List Trans :=
  windowTrans s.params x y (x + 8 * scale - 1) (y + 8 * scale - 1) ++
  (List.range (8 * scale)).flatMap fun o =>
    cursorTrans s.params x (panelRow y (8 * scale) o fv) ++ [.sel s.params.regGram] ++
    (List.range (8 * scale)).flatMap fun col =>
      pixelTrans s.params pal (s.sourceIndex a (o / scale) (col / scale) fh) (x + col + 1)
        (panelRow y (8 * scale) o fv)

/-- The number of the tile's 64 source pixels that have the transparent index (43_sprite.md R172). -/
def State.transparentPixels (s : State) (a : Nat) : Nat :=
  (List.range 64).countP fun n => s.sourceIndex a (n / 8) (n % 8) false == 7#3

/-- Every operand of an assembler line fits its slot (30_encoding.md R81, R88). -/
def AsmLine.fits : AsmLine → Bool
  | .sel idx => idx < 256
  | .wrd high low => high < 256 && low < 256
  | .win x0 y0 x1 y1 => x0 < 256 && y0 < 256 && x1 < 256 && y1 < 256
  | .cur x y => x < 256 && y < 256
  | .pix x y color => x < 256 && y < 256 && color < 65536
  | .hline x y width color => x < 256 && y < 256 && width < 256 && color < 65536
  | .rect x y w h color => x < 256 && y < 256 && w < 256 && h < 256 && color < 65536
  | .cls => true
  | .tile x y scale pal addr _ _ => x < 256 && y < 256 && scale < 256 && pal < 256 && addr < 65536
  | .comp x y scale pal tl tr bl br =>
    x < 256 && y < 256 && scale < 256 && pal < 256 && tl < 65536 && tr < 65536 && bl < 65536 && br < 65536
  | .scrf => true
  | .scrb => true
  | .init => true
  | .wreg idx v => idx < 256 && v < 65536
  | .gram => true
  | .px color => color < 65536
  | .fill x y w h color => x < 256 && y < 256 && w < 256 && h < 256 && color < 65536

/-- A cell of the panel as read from the controller's GRAM. -/
def State.cell (s : State) (x y : Nat) : Half := Memory.read s.controller.gram (gramCell x y)

/-! ### Pin vectors, told vector by vector -/

/-- The four pin vectors of `BusSel(i)` from the vector `n` (40_bus_protocol.md R113). -/
def selVectors (n : Pins) (i : Byte) : List Pins :=
  [ { n with d := i },
    { n with d := i, rs := .index, cs := .asserted },
    { n with d := i, rs := .index, cs := .asserted, wr := .asserted },
    { n with d := i, rs := .index, cs := .asserted, wr := .deasserted } ]

/-- The eight pin vectors of `BusData(h, l)` from the vector `n` (40_bus_protocol.md R114). -/
def dataVectors (n : Pins) (h l : Byte) : List Pins :=
  [ { n with rs := .data, cs := .asserted },
    { n with d := h, rs := .data, cs := .asserted },
    { n with d := h, rs := .data, cs := .asserted, wr := .asserted },
    { n with d := h, rs := .data, cs := .asserted, wr := .deasserted },
    { n with d := l, rs := .data, cs := .asserted, wr := .deasserted },
    { n with d := l, rs := .data, cs := .asserted, wr := .asserted },
    { n with d := l, rs := .data, cs := .asserted, wr := .deasserted },
    { n with d := l, rs := .data, cs := .deasserted, wr := .deasserted } ]

/-- The pin vectors of an item of `INIT_SEQ` from the vector `n` (44_scroll_init.md R196); a delay has none. -/
def itemVectors (n : Pins) : Item → List Pins
  | .sel i => selVectors n i
  | .data h l => dataVectors n h l
  | .reg i v =>
    selVectors n i ++
      dataVectors { n with d := i, rs := .index, cs := .asserted, wr := .deasserted }
        (v.extractLsb' 8 8) (v.extractLsb' 0 8)
  | .rst a => [{ n with rst := a }]
  | .bl b => [{ n with bl := b }]
  | .delay _ => []

/-- The pin vectors of a list of items, each from the last vector of the one before. -/
def seqVectors : Pins → List Item → List Pins
  | _, [] => []
  | n, t :: ts => itemVectors n t ++ seqVectors ((itemVectors n t).getLastD n) ts

/-- A pin trace (newest first) with more vectors, equal neighbours merged (10_state.md R27). -/
def grownTrace (tr vs : List Pins) : List Pins := vs.foldl (fun u n => pushTrace n u) tr

/-! ### The opcode table, and which commands draw -/

/-- Each legal opcode with its `MASK` (30_encoding.md R84). -/
def specMasks : List (BitVec 4 × CmdWord) :=
  [ (0x0#4, 0xFFFFFFFFFFFFFFFFFFFFFFFFFFFF00FF#128),
    (0x1#4, 0xFFFFFFFFFFFFFFFFFFFFFFFFFF0000FF#128),
    (0x2#4, 0xFFFFFFFFFFFFFFFFFFFFFF00000000FF#128),
    (0x3#4, 0xFFFFFFFFFFFFFFFFFFFFFFFFFF0000FF#128),
    (0x4#4, 0xFFFFFFFFFFFFFFFF0000FFFFFF0000FF#128),
    (0x5#4, 0xFFFFFFFFFFFFFFFF0000FFFF000000FF#128),
    (0x6#4, 0xFFFFFFFFFFFFFFFF0000FF00000000FF#128),
    (0x7#4, 0xFFFFFFFFFFFFFFFFFFFFFFFFFFFFFFFF#128),
    (0x8#4, 0xFFFFFFFFFFFF0000FFFFFF00000000CF#128),
    (0x9#4, 0x0000000000000000FFFFFF00000000FF#128),
    (0xA#4, 0xFFFFFFFFFFFFFFFFFFFFFFFFFFFFFFFF#128),
    (0xB#4, 0xFFFFFFFFFFFFFFFFFFFFFFFFFFFFFFFF#128),
    (0xC#4, 0xFFFFFFFFFFFFFFFFFFFFFFFFFFFFFFFF#128) ]

/-- The drawing commands: the primitives and the tile commands (42_primitives.md, 43_sprite.md). -/
def isDrawing : Instr → Bool
  | .selectReg _ => false
  | .writeData _ _ => false
  | .setWindow _ _ _ _ => false
  | .setCursor _ _ => false
  | .drawPixel _ _ _ => true
  | .drawHline _ _ _ _ => true
  | .drawRect _ _ _ _ _ => true
  | .clearScreen => true
  | .drawTile _ _ _ _ _ _ _ => true
  | .drawComposite _ _ _ _ _ _ _ _ => true
  | .scrollFwd => false
  | .scrollBwd => false
  | .init => false

/-! ### Placement in the reference controller -/

/-- The address `a` is that of a cell of the `w` by `h` rectangle at `(x, y)`. -/
def inRect (x y w h a : Nat) : Prop := ∃ i < w, ∃ j < h, a = gramCell (x + i) (y + j)

/-- What the reference controller keeps outside the cells that `area` holds of, on the way from `s` to `t`: every other
cell of the GRAM, the scroll register, the other registers; the memory-write register is selected and no free value was
drawn, so no GRAM write fell outside window or panel (20_memory.md R69). -/
structure State.KeepsOutside (s t : State) (area : Nat → Prop) : Prop where
  others : ∀ a, ¬ area a → Memory.read t.controller.gram a = Memory.read s.controller.gram a
  ir : t.controller.ir = s.params.regGram
  scroll : t.controller.scroll = s.controller.scroll
  regs : t.controller.regs = s.controller.regs
  draws : t.controller.draws = s.controller.draws

/-- The controller's window is the `w` by `h` rectangle at `(x, y)`. -/
structure Controller.WindowIs (c : Controller) (x y w h : Nat) : Prop where
  hsa : c.hsa.toNat = x
  hea : c.hea.toNat = x + w - 1
  vsa : c.vsa.toNat = y
  vea : c.vea.toNat = y + h - 1

/-- What a fill of the `w` by `h` rectangle at `(x, y)` does to the reference controller on the way from `s` to `t`
(42_primitives.md R145, 70_reset_and_hazards.md R251, R252). -/
structure State.Fills (s t : State) (x y w h : Nat) (color : Half) : Prop where
  cells : ∀ i < w, ∀ j < h, t.cell (x + i) (y + j) = color
  keeps : s.KeepsOutside t (inRect x y w h)
  /-- Each cell once, in row-major order: after `k` colour writes the address counter is at the `k`-th cell. -/
  rowMajor : ∀ k < w * h,
    let c := (s.runItems (openWindow s.params x y (x + w - 1) (y + h - 1) ++ streamFill s.params color k)).controller
    c.ir = s.params.regGram ∧ c.acx.toNat = x + k % w ∧ c.acy.toNat = y + k / w
  /-- The number of colour writes is `w * h`. -/
  writes : s.Settled → ∃ new, t.transactions = s.transactions ++ new ∧
    gramColors s.params.regGram new = List.replicate (w * h) (colorTrans color)
  acx : t.controller.acx.toNat = x
  acy : t.controller.acy.toNat = y
  window : t.controller.WindowIs x y w h

/-- Tile checks that pass (43_sprite.md R170), with `big` the drawn side. -/
structure TileFits (p : Params) (x y scale pal : Byte) (big : Nat) : Prop where
  scale : 1 ≤ scale.toNat
  pal : pal.toNat < numPalettes p
  right : x.toNat + big ≤ 176
  bottom : y.toNat + big ≤ 220

end Sys2Proof.Machine
end

