-- ==== Sys2Proof/Certificates/Slice0/Obligations.lean ====
section
/-! DEFINITION. The statements for the provers, each from the rule of spec/ its docstring names. No statement rests on the
value of a parameter or of a free value. -/

section Slice0Statements

open Sys2Proof Sys2Proof.Machine

/-! ### Reset, status, the command port -/

/-- R36, R240: the state the machine starts in, and the state taken at every edge at which `rst` is asserted, whatever
the block was doing. Nothing is said of `cmd`, which the rule leaves unspecified. -/
def Obligations.ResetState : Prop :=
  State.reset.phase = .idle ∧
  State.reset.pinTrace = [{ d := 0x00#8, rs := .data, cs := .deasserted, wr := .deasserted, rst := .deasserted, bl := .off }] ∧
  State.reset.pins = { d := 0x00#8, rs := .data, cs := .deasserted, wr := .deasserted, rst := .deasserted, bl := .off } ∧
  State.reset.scrollOffset = 0#8 ∧ State.reset.err = false ∧ State.reset.errCode = 0#4 ∧
  State.reset.cmdReady false = true ∧
  ∀ (s : State) (errClr : Bool) (offer : Option CmdWord),
    let t := s.edge true errClr offer
    t.phase = .idle ∧
    t.pins = { d := 0x00#8, rs := .data, cs := .deasserted, wr := .deasserted, rst := .deasserted, bl := .off } ∧
    t.scrollOffset = 0#8 ∧ t.err = false ∧ t.errCode = 0#4 ∧
    s.cmdReady true = false ∧ t.cmdReady true = false ∧ t.cmdReady false = true

/-- R241: reset in mid-command. The transactions done stay, none follows however long the clock runs, the pins take
their reset values at once (`LCD_RST` is not asserted), no error is recorded; the asset memory and the parameters stay
(R35). The controller's state after it is left free, and nothing is said of which it is. That a byte pair cut short by
the reset is no transaction is the model's reading (DEDUCED, log 23), and that the trace goes on through it (DESIGN
CHOICE, log 24). The last clause says that the whole state then rests: nothing moves the controller without a bus step
(R66), and that the captured word, which U18 leaves open while IDLE, rests too is the model's (DEDUCED, log 16). -/
def Obligations.ResetAbortsCommand : Prop :=
  ∀ (s : State) (errClr : Bool) (offer : Option CmdWord) (rest : List HostInput),
    s.inputs = .edge true errClr offer :: rest →
    ∃ t, step s = .next t ∧ t.phase = .idle ∧ t.seq = .none ∧
      t.pins.cs = .deasserted ∧ t.pins.wr = .deasserted ∧ t.pins.rst = .deasserted ∧
      t.err = false ∧ t.errCode = 0#4 ∧ t.scrollOffset = 0#8 ∧ t.transactions = s.transactions ∧
      t.assets = s.assets ∧ t.params = s.params ∧ t.inputs = rest ∧
      ∀ n, State.edges n t = t

/-- R26, R25: the status word's fields, and the electrical level each line has under its polarity. -/
def Obligations.StatusWordAndLines : Prop :=
  (∀ s : State,
    (s.status.getLsbD 0 = true ↔ s.phase = .busy) ∧ s.status.getLsbD 1 = s.err ∧
    s.status.extractLsb' 2 2 = 0#2 ∧ s.status.extractLsb' 4 4 = s.errCode ∧
    s.status.extractLsb' 8 8 = s.scrollOffset) ∧
  ∀ (n : Pins) (p : Params),
    (n.levels p).d = n.d ∧
    ((n.levels p).rs = true ↔ (n.rs = .index ↔ p.polRs = .activeHigh)) ∧
    ((n.levels p).cs = true ↔ (n.cs = .asserted ↔ p.polCs = .activeHigh)) ∧
    ((n.levels p).wr = true ↔ (n.wr = .asserted ↔ p.polWr = .activeHigh)) ∧
    ((n.levels p).rst = true ↔ (n.rst = .asserted ↔ p.polRst = .activeHigh)) ∧
    ((n.levels p).bl = true ↔ (n.bl = .on ↔ p.polBl = .activeHigh))

/-- R29, R220: `cmd_ready`, acceptance, a word offered while not ready has no effect, a command in progress keeps its
word; and the precedence of reset, clear, a completing rejection and acceptance at one edge. That pins, trace, controller
and scroll offset are as before at the acceptance edge is the model's: the first bus step comes later (DESIGN CHOICE,
log 13), and with it the new scroll offset (DEDUCED, log 14), of which R190 says only "at the start of the command". At an edge at which a command ends, that its
word stays is the model's too (DEDUCED, log 16). -/
def Obligations.ClockEdge : Prop :=
  ∀ (s : State) (rst errClr : Bool) (offer : Option CmdWord) (w : CmdWord) (code : ErrCode),
    (s.cmdReady rst = true ↔ s.phase = .idle ∧ rst = false) ∧
    (s.cmdReady rst = true →
      let t := s.edge rst errClr (some w)
      t.cmd = w ∧ t.phase = .busy ∧ t.pins = s.pins ∧ t.trace = s.trace ∧ t.scrollOffset = s.scrollOffset ∧
      t.controller = s.controller ∧ t.assets = s.assets ∧
      (errClr = false → t.err = s.err ∧ t.errCode = s.errCode) ∧
      (errClr = true → t.err = false ∧ t.errCode = 0#4)) ∧
    (s.cmdReady rst = false → s.edge rst errClr (some w) = s.edge rst errClr none) ∧
    (s.phase = .busy → (s.edge false errClr offer).cmd = s.cmd) ∧
    s.edge true errClr offer = s.edge true false none ∧
    s.edge false true offer = State.edge false false offer { s with err := false, errCode := 0#4 } ∧
    (s.phase = .busy → s.seq = .rejecting 0 code →
      (s.edge false true offer).err = true ∧ (s.edge false true offer).errCode = code.bits ∧
      (s.edge false true offer).phase = .idle)

/-- R30: `err` is set only by a rejection (of the word taken at this step, or of the word in progress), which leaves
pins, trace, controller and scroll offset alone; it goes away, or its code changes, only at an edge with `err_clr` or
`rst`. At an edge without `rst` at which a rejected command completes, that rejection's code is recorded after any clear
(an earlier code stays where there is no clear); at every other one the report is the one before, cleared by `err_clr`. -/
def Obligations.ErrorReport : Prop :=
  ∀ s t : State, step s = .next t →
    (s.err = false → t.err = true → ∃ code : ErrCode, t.errCode = code.bits ∧ t.phase = .idle ∧
      t.pins = s.pins ∧ t.trace = s.trace ∧ t.controller = s.controller ∧ t.scrollOffset = s.scrollOffset ∧
      ((s.phase = .busy ∧ ∃ left, s.seq = .rejecting left code) ∨
        ∃ w, ((s.phase = .busy ∧ w = s.cmd) ∨ (s.phase = .idle ∧ ∃ rest, s.inputs = .command w :: rest)) ∧
          planWord w s.params s.scrollOffset = .reject code)) ∧
    (s.err = true → (t.err = true ∧ t.errCode = s.errCode) ∨
      ∃ rst errClr offer rest, s.inputs = .edge rst errClr offer :: rest ∧ (rst = true ∨ errClr = true)) ∧
    ∀ rst errClr offer rest, s.inputs = .edge rst errClr offer :: rest →
      (rst = true → t.err = false ∧ t.errCode = 0#4) ∧
      (rst = false →
        (∀ code, s.RejectsWith code → t.phase = .idle →
          t.err = true ∧ t.errCode = if s.err = true ∧ errClr = false then s.errCode else code.bits) ∧
        ((t.phase = .busy ∨ ∀ code, ¬ s.RejectsWith code) →
          t.err = (s.err && !errClr) ∧ t.errCode = if errClr = true then 0#4 else s.errCode))

/-- R31: the first rejection's code is kept, and a command is accepted and executed in the same way whatever the error
report says. Where the command leaves the controller open, that both runs leave it alike is the model's (its free values
are numbered: logs 8, 29, 30). -/
def Obligations.LaterCommandsRunWithErr : Prop :=
  ∀ (i : Instr) (s t : State), exec i s = .next t →
    (s.err = true → t.err = true ∧ t.errCode = s.errCode) ∧
    (s.err = false → causes s.params i ≠ [] → t.err = true ∧ ∃ code ∈ causes s.params i, t.errCode = code.bits) ∧
    ∀ (b : Bool) (c : BitVec 4),
      (causes s.params i = [] →
        exec i { s with err := b, errCode := c } = .next { t with err := b, errCode := c }) ∧
      ∀ rst, State.cmdReady rst { s with err := b, errCode := c } = s.cmdReady rst

/-- R29, R65, and the model's log 3: what a step does with an offered word. IDLE, it is the command's meaning (or the
rejection of an undecodable word) with the word captured; BUSY, one clock edge passes and the offer stays. The same for
a table word placed by `withFetchWord`. An edge input is that clock edge with its `rst`, `err_clr` and offered word; with
no input left the clock runs with nothing asserted; a host write of a byte that exists is that write. -/
def Obligations.StepRunsDecodedCommand : Prop :=
  (∀ (s : State) (w : CmdWord) (rest : List HostInput), s.inputs = .command w :: rest →
    (s.phase = .busy → step s = .next s.noInput ∧ s.noInput.inputs = s.inputs) ∧
    (s.phase = .idle →
      let u : State := { s with inputs := rest, cmd := w, phase := .busy, seq := .none, olds := [] }
      (∀ i, decode w = .legal i → step s = exec i u) ∧
      (decode w = .illegalOpcode → step s = .next (u.reject .illegalOpcode)) ∧
      (decode w = .reservedBits → step s = .next (u.reject .reservedBits)))) ∧
  (∀ (s : State) (rst errClr : Bool) (offer : Option CmdWord) (rest : List HostInput),
    s.inputs = .edge rst errClr offer :: rest →
    step s = .next (State.edge rst errClr offer { s with inputs := rest })) ∧
  (∀ s : State, s.inputs = [] → step s = .next s.noInput ∧ s.noInput = s.edge false false none) ∧
  (∀ (s : State) (a : AssetAddr) (b : Byte) (rest : List HostInput),
    s.inputs = .assetWrite a b :: rest → a.toNat < assetBytes s.params →
    step s = .next (State.hostWrite a b { s with inputs := rest })) ∧
  ∀ (s : State) (nbits v : Nat) (i : Instr), decodeTableWord nbits v = some i →
    step (s.withFetchWord nbits v) =
      exec i { s with cmd := BitVec.ofNat 128 (v % 2 ^ nbits), phase := .busy, seq := .none, olds := [] }

/-- R210, R52, R62: no step is refused, and a step stops where the host writes an asset byte that does not exist, and
nowhere else (the model's log 15). -/
def Obligations.StepStopsOnlyOnAbsentAssetByte : Prop :=
  ∀ s : State,
    ((∃ t, step s = .next t) ∨
      ∃ a b rest, s.inputs = .assetWrite a b :: rest ∧ assetBytes s.params ≤ a.toNat ∧
        step s = .fault (.noSuchAssetByte a)) ∧
    ∀ a b rest, s.inputs = .assetWrite a b :: rest → assetBytes s.params ≤ a.toNat →
      step s = .fault (.noSuchAssetByte a)

/-! ### Encoding -/

/-- R85: the words with opcode 0xD, 0xE or 0xF, and no others, are illegal, and are rejected with code 1. -/
def Obligations.IllegalOpcodeRejected : Prop :=
  ∀ w : CmdWord,
    (decode w = .illegalOpcode ↔
      w.extractLsb' 0 4 = 0xD#4 ∨ w.extractLsb' 0 4 = 0xE#4 ∨ w.extractLsb' 0 4 = 0xF#4) ∧
    (decode w = .illegalOpcode →
      ∀ s : State, ∃ t, runWord w s = .next t ∧ (s.capture w).RejectedAs t .illegalOpcode ∧
        (s.err = false → t.errCode = 1#4))

/-- R86: a legal opcode with a reserved bit set is rejected with code 2; bits 7:6 are reserved in every command, bits 5:4
in every command but DRAW_TILE (opcode 0x8). -/
def Obligations.ReservedBitsRejected : Prop :=
  (∀ (w : CmdWord) (op : BitVec 4) (mask : CmdWord), (op, mask) ∈ specMasks → w.extractLsb' 0 4 = op →
    (∃ k, 4 ≤ k ∧ mask.getLsbD k = true ∧ w.getLsbD k = true) →
    decode w = .reservedBits ∧
    ∀ s : State, ∃ t, runWord w s = .next t ∧ (s.capture w).RejectedAs t .reservedBits ∧
      (s.err = false → t.errCode = 2#4)) ∧
  ∀ (op : BitVec 4) (mask : CmdWord), (op, mask) ∈ specMasks →
    mask.getLsbD 7 = true ∧ mask.getLsbD 6 = true ∧
    (op ≠ 0x8#4 → mask.getLsbD 5 = true ∧ mask.getLsbD 4 = true) ∧
    (op = 0x8#4 → mask.getLsbD 5 = false ∧ mask.getLsbD 4 = false)

/-- R84: a word is a legal command exactly when its masked bits are the opcode alone. -/
def Obligations.LegalIffMaskMatches : Prop :=
  ∀ w : CmdWord,
    ((∃ idx, decode w = .legal (.selectReg idx)) ↔ w &&& 0xFFFFFFFFFFFFFFFFFFFFFFFFFFFF00FF#128 = 0x0#128) ∧
    ((∃ h l, decode w = .legal (.writeData h l)) ↔ w &&& 0xFFFFFFFFFFFFFFFFFFFFFFFFFF0000FF#128 = 0x1#128) ∧
    ((∃ x0 y0 x1 y1, decode w = .legal (.setWindow x0 y0 x1 y1)) ↔
      w &&& 0xFFFFFFFFFFFFFFFFFFFFFF00000000FF#128 = 0x2#128) ∧
    ((∃ x y, decode w = .legal (.setCursor x y)) ↔ w &&& 0xFFFFFFFFFFFFFFFFFFFFFFFFFF0000FF#128 = 0x3#128) ∧
    ((∃ x y c, decode w = .legal (.drawPixel x y c)) ↔
      w &&& 0xFFFFFFFFFFFFFFFF0000FFFFFF0000FF#128 = 0x4#128) ∧
    ((∃ x y n c, decode w = .legal (.drawHline x y n c)) ↔
      w &&& 0xFFFFFFFFFFFFFFFF0000FFFF000000FF#128 = 0x5#128) ∧
    ((∃ x y n m c, decode w = .legal (.drawRect x y n m c)) ↔
      w &&& 0xFFFFFFFFFFFFFFFF0000FF00000000FF#128 = 0x6#128) ∧
    (decode w = .legal .clearScreen ↔ w &&& 0xFFFFFFFFFFFFFFFFFFFFFFFFFFFFFFFF#128 = 0x7#128) ∧
    ((∃ x y k pal a fv fh, decode w = .legal (.drawTile x y k pal a fv fh)) ↔
      w &&& 0xFFFFFFFFFFFF0000FFFFFF00000000CF#128 = 0x8#128) ∧
    ((∃ x y k pal tl tr bl br, decode w = .legal (.drawComposite x y k pal tl tr bl br)) ↔
      w &&& 0x0000000000000000FFFFFF00000000FF#128 = 0x9#128) ∧
    (decode w = .legal .scrollFwd ↔ w &&& 0xFFFFFFFFFFFFFFFFFFFFFFFFFFFFFFFF#128 = 0xA#128) ∧
    (decode w = .legal .scrollBwd ↔ w &&& 0xFFFFFFFFFFFFFFFFFFFFFFFFFFFFFFFF#128 = 0xB#128) ∧
    (decode w = .legal .init ↔ w &&& 0xFFFFFFFFFFFFFFFFFFFFFFFFFFFFFFFF#128 = 0xC#128)

/-- R82–R84, R88: every command, with every operand at every value its slot holds, is decoded from its encoding. -/
def Obligations.DecodeEncodeRoundTrip : Prop :=
  ∀ i : Instr, decode (encode i) = .legal i ∧ decodeTableWord 128 (encode i).toNat = some i

/-- R82, R86: a legal word is the encoding of the command it decodes to, so each operand is its slot's bits and every
other bit is fixed. -/
def Obligations.EncodeDecodeRoundTrip : Prop :=
  ∀ (w : CmdWord) (i : Instr), decode w = .legal i → encode i = w

/-- The example words of R116, R117, R131, R134, R140, R142, R144, R146, R176, R190, R192, R197, DRAW_TILE's
word of the vector V-T4, and one DRAW_TILE word that is not the spec's: written out from its slots (R81, R83) with x 1,
y 2, scale 3, pal 4, addr 0x1234, fv and fh set. -/
def Obligations.SpecWordsDecode : Prop :=
  decode 0x00000000000000000000000000002200#128 = .legal (.selectReg 0x22#8) ∧
  decode 0x0000000000000000000000000000F801#128 = .legal (.writeData 0xF8#8 0x00#8) ∧
  decode 0x0000000000000000000000140B140A02#128 = .legal (.setWindow 10#8 20#8 11#8 20#8) ∧
  decode 0x00000000000000000000000000140A03#128 = .legal (.setCursor 10#8 20#8) ∧
  decode 0x0000000000000000FFFF000000DBAF04#128 = .legal (.drawPixel 175#8 219#8 0xFFFF#16) ∧
  decode 0x0000000000000000001F000003000005#128 = .legal (.drawHline 0#8 0#8 3#8 0x001F#16) ∧
  decode 0x000000000000000007E0000202060506#128 = .legal (.drawRect 5#8 6#8 2#8 2#8 0x07E0#16) ∧
  decode 0x00000000000000000000000000000007#128 = .legal .clearScreen ∧
  decode 0x00000000000000300000000001140A18#128 =
    .legal (.drawTile 10#8 20#8 1#8 0#8 48#16 true false) ∧
  decode 0x00000000000012340000000403020138#128 =
    .legal (.drawTile 1#8 2#8 3#8 4#8 0x1234#16 true true) ∧
  decode 0x00480030001800000000000101201009#128 =
    .legal (.drawComposite 16#8 32#8 1#8 1#8 0#16 24#16 48#16 72#16) ∧
  decode 0x0000000000000000000000000000000A#128 = .legal .scrollFwd ∧
  decode 0x0000000000000000000000000000000B#128 = .legal .scrollBwd ∧
  decode 0x0000000000000000000000000000000C#128 = .legal .init

/-- R89, R88: the expansions of the pseudo-instructions; a line is refused exactly when an operand does not fit its slot;
what is assembled is always a legal word. -/
def Obligations.Assembler : Prop :=
  (∀ (p : Params) (idx : Byte) (v : Half),
    assemble p (.wreg idx.toNat v.toNat) =
      some [.selectReg idx, .writeData (v.extractLsb' 8 8) (v.extractLsb' 0 8)] ∧
    assemble p .gram = some [.selectReg p.regGram] ∧
    assemble p (.px v.toNat) = some [.writeData (v.extractLsb' 8 8) (v.extractLsb' 0 8)]) ∧
  (∀ (p : Params) (x y w h color : Nat), assemble p (.fill x y w h color) = assemble p (.rect x y w h color)) ∧
  (∀ (p : Params) (l : AsmLine), (assemble p l).isSome = l.fits) ∧
  ∀ (p : Params) (l : AsmLine) (ws : List CmdWord), assembleWords p l = some ws →
    ∀ w ∈ ws, ∃ i, decode w = .legal i ∧ encode i = w

/-! ### Bus steps and transactions -/

/-- R113: SELECT_REG is the four steps of `BusSel(idx)` and its effect at the controller is the register selection; the
rest of the block is as before (R116). -/
def Obligations.SelectRegResult : Prop :=
  ∀ (idx : Byte) (s : State), ∃ t, exec (.selectReg idx) s = .next t ∧
    t.trace = grownTrace s.trace (selVectors s.pins idx) ∧
    t.pins = { s.pins with d := idx, rs := .index, cs := .asserted, wr := .deasserted } ∧
    t.controller = { s.controller with ir := idx, ph := .high } ∧
    s.Frame t ∧
    (s.Settled → t.Settled ∧ t.transactions = s.transactions ++ [.sel idx])

/-- R114: WRITE_DATA is the eight steps of `BusData(high, low)`; the rest of the block is as before (R117). What the
controller does with the pair is another statement's. -/
def Obligations.WriteDataResult : Prop :=
  ∀ (high low : Byte) (s : State), ∃ t, exec (.writeData high low) s = .next t ∧
    t.trace = grownTrace s.trace (dataVectors s.pins high low) ∧
    t.pins = { s.pins with d := low, rs := .data, cs := .deasserted, wr := .deasserted } ∧
    s.Frame t ∧
    (s.Settled → t.Settled ∧ t.transactions = s.transactions ++ [.data high low])

/-- R119, R118: the pins after a transaction; the only step of a command's items that deasserts CS is W8; after a
`BusSel` CS stays asserted through any further ones until the W8 of the next `BusData`, which asserts it at W1 and keeps
it through W7. Reset deasserts it too. -/
def Obligations.ChipSelectFrames : Prop :=
  (∀ (s : State) (i h l : Byte),
    (s.runItem (.sel i)).pins = { s.pins with d := i, rs := .index, cs := .asserted, wr := .deasserted } ∧
    (s.runItem (.data h l)).pins = { s.pins with d := l, rs := .data, cs := .deasserted, wr := .deasserted }) ∧
  (∀ (it : Item) (k : StepName) (c : PinChange), .step k c ∈ itemMicros it → c.cs = some .deasserted → k = .w8) ∧
  (∀ (s : State) (i : Byte) (is : List Byte) (h l : Byte) (k : Nat), 1 ≤ k → k ≤ 7 →
    let t := s.runItems ((i :: is).map .sel)
    t.pins.cs = .asserted ∧
    (((dataSteps h l).take k).foldl State.micro t).pins.cs = .asserted ∧
    (((dataSteps h l).take k).foldl State.micro s).pins.cs = .asserted ∧
    (t.runItem (.data h l)).pins.cs = .deasserted) ∧
  ∀ (s : State) (errClr : Bool) (offer : Option CmdWord), (s.edge true errClr offer).pins.cs = .deasserted

/-- R121: a transaction records no error; and whatever the controller holds, the block's step is the same. -/
def Obligations.ControllerNeverActsOnBlock : Prop :=
  ∀ (s : State) (c : Controller),
    (∀ it : Item, (s.runItem it).err = s.err ∧ (s.runItem it).errCode = s.errCode) ∧
    (∀ t, step s = .next t → ∃ d, step { s with controller := c } = .next { t with controller := d }) ∧
    ∀ f, step s = .fault f → step { s with controller := c } = .fault f

/-- R110, R198: at the edge of a step the named fields change and the others keep their values; the vector is then held
for `STEP_CYCLES` edges in all, BUSY; `DELAY(n)` (here `n = more + 1`) is `n` edges with no bus step, BUSY, unseen in the
pin trace. This holds of every action, the first of an operation and of a command among them; of the steps W2 and W5 of a
tile pixel's colour, whose byte ContestedByteOldOrNew gives (R54), it says that D alone changes, and how long they hold.
The model's own are the names of the single steps on RST and BL, so that each line has one hold time (DESIGN CHOICE,
log 28), and that the next action follows at the first edge it may (DESIGN CHOICE, log 13). -/
def Obligations.StepAndDelayHold : Prop :=
  (∀ (n : Pins) (c : PinChange),
    (∀ v, c.d = some v → (n.apply c).d = v) ∧ (c.d = none → (n.apply c).d = n.d) ∧
    (∀ v, c.rs = some v → (n.apply c).rs = v) ∧ (c.rs = none → (n.apply c).rs = n.rs) ∧
    (∀ v, c.cs = some v → (n.apply c).cs = v) ∧ (c.cs = none → (n.apply c).cs = n.cs) ∧
    (∀ v, c.wr = some v → (n.apply c).wr = v) ∧ (c.wr = none → (n.apply c).wr = n.wr) ∧
    (∀ v, c.rst = some v → (n.apply c).rst = v) ∧ (c.rst = none → (n.apply c).rst = n.rst) ∧
    (∀ v, c.bl = some v → (n.apply c).bl = v) ∧ (c.bl = none → (n.apply c).bl = n.bl)) ∧
  (∀ (s : State) (kind : CommandKind) (k : StepName) (c : PinChange) (ms : List Micro) (ops : List Op) (n : Nat),
    s.NextAction kind (.step k c) ms ops → 1 ≤ n → n ≤ holdExtra s.params k + 1 →
    let t := State.edges n s
    t.pins = s.pins.apply c ∧ t.trace = pushTrace (s.pins.apply c) s.trace ∧ t.phase = .busy ∧
    t.seq = .running kind (holdExtra s.params k + 1 - n) ms ops ∧
    (s.trace.head? = some s.pins → s.pins.apply c = s.pins → t.trace = s.trace)) ∧
  (∀ (s : State) (kind : CommandKind) (more : Nat) (ms : List Micro) (ops : List Op) (n : Nat),
    s.NextAction kind (.wait more) ms ops → n ≤ more + 1 →
    let t := State.edges n s
    t.pins = s.pins ∧ t.trace = s.trace ∧ t.phase = .busy ∧
    (1 ≤ n → t.seq = .running kind (more + 1 - n) ms ops)) ∧
  (∀ (s : State) (kind : CommandKind) (high : Bool) (px : PixelOp) (found : Half) (ms : List Micro) (ops : List Op)
      (n : Nat),
    s.NextAction kind (.color high px found) ms ops → 1 ≤ n →
    n ≤ holdExtra s.params (if high then .w2 else .w5) + 1 →
    let t := State.edges n s
    (∃ v : Byte, t.pins = { s.pins with d := v } ∧ t.trace = pushTrace { s.pins with d := v } s.trace) ∧
    t.phase = .busy ∧
    t.seq = .running kind (holdExtra s.params (if high then .w2 else .w5) + 1 - n) ms ops) ∧
  ∀ (s : State) (kind : CommandKind) (more : Nat) (ops : List Op) (n : Nat),
    s.phase = .busy → s.seq = .running kind 0 [] (.item (.delay more) :: ops) → n ≤ more + 1 →
    let t := State.edges n s
    t.pins = s.pins ∧ t.trace = s.trace ∧ t.phase = .busy ∧
    (1 ≤ n → t.seq = .running kind (more + 1 - n) [] ops)

/-- R27, R61: the pin trace only grows, by whole steps of the machine. That it goes on through an edge with `rst`, where
R36 begins a trace with the reset vector, is the model's choice (DESIGN CHOICE, log 24). -/
def Obligations.PinTraceOnlyGrows : Prop :=
  ∀ s t : State, step s = .next t → ∃ new, t.pinTrace = s.pinTrace ++ new

/-! ### Addressing -/

/-- R130: SET_WINDOW with bounds in order and on the panel is `SetWindowSeq`: four register writes. -/
def Obligations.SetWindowResult : Prop :=
  ∀ (x0 y0 x1 y1 : Byte) (s : State), x0.toNat ≤ x1.toNat → y0.toNat ≤ y1.toNat → x1.toNat < 176 → y1.toNat < 220 →
    ∃ t, exec (.setWindow x0 y0 x1 y1) s = .next t ∧
      t.pins = { s.pins with d := y1, rs := .data, cs := .deasserted, wr := .deasserted } ∧
      t.controller =
        (s.runItems (setWindowSeq s.params x0.toNat y0.toNat x1.toNat y1.toNat)).controller ∧
      s.Frame t ∧
      (s.Settled → t.Settled ∧ t.transactions = s.transactions ++
        [ .sel s.params.regHsa, .data 0x00#8 x0, .sel s.params.regHea, .data 0x00#8 x1,
          .sel s.params.regVsa, .data 0x00#8 y0, .sel s.params.regVea, .data 0x00#8 y1 ])

/-- R133, R134: SET_CURSOR on the panel is `SetCursorSeq`: two register writes. -/
def Obligations.SetCursorResult : Prop :=
  ∀ (x y : Byte) (s : State), x.toNat < 176 → y.toNat < 220 →
    ∃ t, exec (.setCursor x y) s = .next t ∧
      t.pins = { s.pins with d := y, rs := .data, cs := .deasserted, wr := .deasserted } ∧
      t.controller = (s.runItems (setCursorSeq s.params x.toNat y.toNat)).controller ∧
      s.Frame t ∧
      (s.Settled → t.Settled ∧ t.transactions = s.transactions ++
        [.sel s.params.regCurx, .data 0x00#8 x, .sel s.params.regCury, .data 0x00#8 y])

/-- R132: the effect of the two sequences at the reference controller, for all values a register holds. The whole
controller is given: besides the bounds or the counter and the selected register, `hold` has the last value's high byte and
the byte phase is HIGH (R66), and the rest is as before. -/
def Obligations.WindowReachesController : Prop :=
  ∀ (s : State) (x0 y0 x1 y1 : Nat), RegsDistinct s.params →
    x0 < 65536 → y0 < 65536 → x1 < 65536 → y1 < 65536 →
    (let c := (s.runItems (setWindowSeq s.params x0 y0 x1 y1)).controller
     c.hsa.toNat = x0 ∧ c.hea.toNat = x1 ∧ c.vsa.toNat = y0 ∧ c.vea.toNat = y1 ∧
     c.acx = s.controller.acx ∧ c.acy = s.controller.acy ∧ c.ir = s.params.regVea ∧
     c = { s.controller with
       ir := s.params.regVea, ph := .high, hold := (BitVec.ofNat 16 y1).extractLsb' 8 8, hsa := BitVec.ofNat 16 x0,
       hea := BitVec.ofNat 16 x1, vsa := BitVec.ofNat 16 y0, vea := BitVec.ofNat 16 y1 }) ∧
    (let c := (s.runItems (setCursorSeq s.params x0 y0)).controller
     c.acx.toNat = x0 ∧ c.acy.toNat = y0 ∧ c.ir = s.params.regCury ∧
     c = { s.controller with
       ir := s.params.regCury, ph := .high, hold := (BitVec.ofNat 16 y0).extractLsb' 8 8, acx := BitVec.ofNat 16 x0,
       acy := BitVec.ofNat 16 y0 })

/-! ### Raw writes to the controller -/

/-- R67: the register a WRITE_DATA reaches is the one selected, whichever it is but `REG_GRAM`; the selection stays, so a
second pair rewrites it. The last clause, for an index that is none of the eight (that register keeps the pair, and
nothing else changes), is the model's reading (DEDUCED, unsafe, log 20): R67 leaves that effect outside. -/
def Obligations.WriteDataReachesRegister : Prop :=
  ∀ (h l : Byte) (s : State), RegsDistinct s.params → s.controller.ph = .high →
    s.controller.ir ≠ s.params.regGram →
    ∃ t, exec (.writeData h l) s = .next t ∧
      t.controller.ir = s.controller.ir ∧ t.controller.ph = .high ∧
      (let c := { s.controller with hold := h }
       let d := t.controller
       (s.controller.ir = s.params.regHsa → d = { c with hsa := h ++ l }) ∧
       (s.controller.ir = s.params.regHea → d = { c with hea := h ++ l }) ∧
       (s.controller.ir = s.params.regVsa → d = { c with vsa := h ++ l }) ∧
       (s.controller.ir = s.params.regVea → d = { c with vea := h ++ l }) ∧
       (s.controller.ir = s.params.regCurx → d = { c with acx := h ++ l }) ∧
       (s.controller.ir = s.params.regCury → d = { c with acy := h ++ l }) ∧
       (s.controller.ir = s.params.regScroll → d = { c with scroll := h ++ l }) ∧
       (s.controller.ir ∉ [s.params.regHsa, s.params.regHea, s.params.regVsa, s.params.regVea, s.params.regCurx,
          s.params.regCury, s.params.regScroll] → Memory.wf s.controller.regs →
        d = { c with regs := d.regs } ∧ Memory.read d.regs s.controller.ir.toNat = h ++ l ∧
        ∀ k, k ≠ s.controller.ir.toNat → Memory.read d.regs k = Memory.read s.controller.regs k))

/-- R68: a WRITE_DATA with `REG_GRAM` selected and the address counter inside window and panel writes that cell and no
other and advances the counter, wrapping inside the window. -/
def Obligations.GramWriteInside : Prop :=
  ∀ (h l : Byte) (s : State), RegsDistinct s.params → Memory.wf s.controller.gram → s.controller.ph = .high →
    s.controller.ir = s.params.regGram →
    s.controller.hsa.toNat ≤ s.controller.acx.toNat → s.controller.acx.toNat ≤ s.controller.hea.toNat →
    s.controller.vsa.toNat ≤ s.controller.acy.toNat → s.controller.acy.toNat ≤ s.controller.vea.toNat →
    s.controller.acx.toNat < 176 → s.controller.acy.toNat < 220 →
    ∃ t, exec (.writeData h l) s = .next t ∧
      t.controller.gram = Memory.write s.controller.gram (s.controller.acy.toNat * 176 + s.controller.acx.toNat) (h ++ l) ∧
      t.cell s.controller.acx.toNat s.controller.acy.toNat = h ++ l ∧
      (∀ a, a ≠ s.controller.acy.toNat * 176 + s.controller.acx.toNat →
        Memory.read t.controller.gram a = Memory.read s.controller.gram a) ∧
      (s.controller.acx.toNat + 1 ≤ s.controller.hea.toNat →
        t.controller.acx.toNat = s.controller.acx.toNat + 1 ∧ t.controller.acy = s.controller.acy) ∧
      (s.controller.hea.toNat < s.controller.acx.toNat + 1 → s.controller.acy.toNat + 1 ≤ s.controller.vea.toNat →
        t.controller.acx = s.controller.hsa ∧ t.controller.acy.toNat = s.controller.acy.toNat + 1) ∧
      (s.controller.hea.toNat < s.controller.acx.toNat + 1 → s.controller.vea.toNat < s.controller.acy.toNat + 1 →
        t.controller.acx = s.controller.hsa ∧ t.controller.acy = s.controller.vsa) ∧
      t.controller = { s.controller with
        hold := h, gram := t.controller.gram, acx := t.controller.acx, acy := t.controller.acy }

/-- Outside window or panel the block performs the WRITE_DATA as ever; of the GRAM and the address counter, which R69
leaves open, nothing is said. That the controller keeps its selection, its window, its scroll register and its other
registers is the model's choice, not R69's words (DESIGN CHOICE, unsafe, log 8). -/
def Obligations.GramWriteOutside : Prop :=
  ∀ (h l : Byte) (s : State), RegsDistinct s.params → s.controller.ph = .high →
    s.controller.ir = s.params.regGram → s.controller.inside = false →
    ∃ t, exec (.writeData h l) s = .next t ∧ s.Frame t ∧
      t.pins = { s.pins with d := l, rs := .data, cs := .deasserted, wr := .deasserted } ∧
      t.controller = { s.controller with
        hold := h, gram := t.controller.gram, acx := t.controller.acx, acy := t.controller.acy,
        draws := s.controller.draws + 1 }

/-! ### Primitive drawing -/

/-- R140: DRAW_PIXEL on the panel. -/
def Obligations.DrawPixelResult : Prop :=
  ∀ (x y : Byte) (color : Half) (s : State), x.toNat < 176 → y.toNat < 220 →
    ∃ t, exec (.drawPixel x y color) s = .next t ∧ s.Frame t ∧
      t.pins = { s.pins with d := color.extractLsb' 0 8, rs := .data, cs := .deasserted, wr := .deasserted } ∧
      (s.Settled → t.Settled ∧ t.transactions = s.transactions ++
        [ .sel s.params.regHsa, .data 0x00#8 x, .sel s.params.regHea, .data 0x00#8 x,
          .sel s.params.regVsa, .data 0x00#8 y, .sel s.params.regVea, .data 0x00#8 y,
          .sel s.params.regCurx, .data 0x00#8 x, .sel s.params.regCury, .data 0x00#8 y,
          .sel s.params.regGram, .data (color.extractLsb' 8 8) (color.extractLsb' 0 8) ])

/-- R142: DRAW_HLINE whose last column `x + width` is on the panel. -/
def Obligations.DrawHlineResult : Prop :=
  ∀ (x y width : Byte) (color : Half) (s : State), x.toNat + width.toNat < 176 → y.toNat < 220 →
    ∃ t, exec (.drawHline x y width color) s = .next t ∧ s.Frame t ∧
      t.pins = { s.pins with d := color.extractLsb' 0 8, rs := .data, cs := .deasserted, wr := .deasserted } ∧
      (s.Settled → t.Settled ∧ t.transactions = s.transactions ++
        fillTrans s.params x.toNat y.toNat (x.toNat + width.toNat) y.toNat color (width.toNat + 1))

/-- R144: DRAW_RECT with an extent and on the panel. -/
def Obligations.DrawRectResult : Prop :=
  ∀ (x y width height : Byte) (color : Half) (s : State), 1 ≤ width.toNat → 1 ≤ height.toNat →
    x.toNat + width.toNat ≤ 176 → y.toNat + height.toNat ≤ 220 →
    ∃ t, exec (.drawRect x y width height color) s = .next t ∧ s.Frame t ∧
      t.pins = { s.pins with d := color.extractLsb' 0 8, rs := .data, cs := .deasserted, wr := .deasserted } ∧
      (s.Settled → t.Settled ∧ t.transactions = s.transactions ++
        fillTrans s.params x.toNat y.toNat (x.toNat + width.toNat - 1) (y.toNat + height.toNat - 1) color
          (width.toNat * height.toNat))

/-- R146: CLEAR_SCREEN, always; its trace is that of DRAW_RECT of the whole panel in colour 0. The last clause says so of
the whole next state, the captured word among it (DEDUCED, log 16). Before INIT, where R243 leaves the controller open
after each of the two, that it is alike is the model's (its free values are numbered: DEDUCED, log 29). -/
def Obligations.ClearScreenResult : Prop :=
  ∀ s : State, ∃ t, exec .clearScreen s = .next t ∧ s.Frame t ∧
    t.pins = { s.pins with d := 0x00#8, rs := .data, cs := .deasserted, wr := .deasserted } ∧
    (s.Settled → t.Settled ∧ t.transactions = s.transactions ++
      fillTrans s.params 0 0 175 219 0x0000#16 38720) ∧
    exec (.drawRect 0#8 0#8 176#8 220#8 0x0000#16) s = .next t

/-- R145: what DRAW_RECT, DRAW_PIXEL, DRAW_HLINE and CLEAR_SCREEN paint, in the boot order that R243 asks of the host:
before INIT a drawing command's effect on the controller is unspecified (log 29). -/
def Obligations.FillPlacement : Prop :=
  ∀ s : State, RegsDistinct s.params → Memory.wf s.controller.gram → s.controller.initialized = true →
    (∀ (x y width height : Byte) (color : Half), 1 ≤ width.toNat → 1 ≤ height.toNat →
      x.toNat + width.toNat ≤ 176 → y.toNat + height.toNat ≤ 220 →
      ∃ t, exec (.drawRect x y width height color) s = .next t ∧
        s.Fills t x.toNat y.toNat width.toNat height.toNat color) ∧
    (∀ (x y : Byte) (color : Half), x.toNat < 176 → y.toNat < 220 →
      ∃ t, exec (.drawPixel x y color) s = .next t ∧ s.Fills t x.toNat y.toNat 1 1 color) ∧
    (∀ (x y width : Byte) (color : Half), x.toNat + width.toNat < 176 → y.toNat < 220 →
      ∃ t, exec (.drawHline x y width color) s = .next t ∧
        s.Fills t x.toNat y.toNat (width.toNat + 1) 1 color) ∧
    ∃ t, exec .clearScreen s = .next t ∧ s.Fills t 0 0 176 220 0x0000#16

/-! ### Tiles -/

/-- R161, R162: the bit ranges of the eight positions in both orders, and what the horizontal flip does to them. -/
def Obligations.UnpackBitRanges : Prop :=
  ∀ b0 b1 b2 : Byte,
    unpack .msbFirst b0 b1 b2 0 = b0.extractLsb' 5 3 ∧
    unpack .msbFirst b0 b1 b2 1 = b0.extractLsb' 2 3 ∧
    unpack .msbFirst b0 b1 b2 2 = b0.extractLsb' 0 2 ++ b1.extractLsb' 7 1 ∧
    unpack .msbFirst b0 b1 b2 3 = b1.extractLsb' 4 3 ∧
    unpack .msbFirst b0 b1 b2 4 = b1.extractLsb' 1 3 ∧
    unpack .msbFirst b0 b1 b2 5 = b1.extractLsb' 0 1 ++ b2.extractLsb' 6 2 ∧
    unpack .msbFirst b0 b1 b2 6 = b2.extractLsb' 3 3 ∧
    unpack .msbFirst b0 b1 b2 7 = b2.extractLsb' 0 3 ∧
    unpack .lsbFirst b0 b1 b2 0 = b0.extractLsb' 0 3 ∧
    unpack .lsbFirst b0 b1 b2 1 = b0.extractLsb' 3 3 ∧
    unpack .lsbFirst b0 b1 b2 2 = b1.extractLsb' 0 1 ++ b0.extractLsb' 6 2 ∧
    unpack .lsbFirst b0 b1 b2 3 = b1.extractLsb' 1 3 ∧
    unpack .lsbFirst b0 b1 b2 4 = b1.extractLsb' 4 3 ∧
    unpack .lsbFirst b0 b1 b2 5 = b2.extractLsb' 0 2 ++ b1.extractLsb' 7 1 ∧
    unpack .lsbFirst b0 b1 b2 6 = b2.extractLsb' 2 3 ∧
    unpack .lsbFirst b0 b1 b2 7 = b2.extractLsb' 5 3 ∧
    ∀ (order : UnpackOrder) (q : Nat), q ≤ 7 →
      decodeIndex order b0 b1 b2 q false = unpack order b0 b1 b2 q ∧
      decodeIndex order b0 b1 b2 q true = unpack order b0 b1 b2 (7 - q)

/-- R168, R170: DRAW_TILE that passes its checks performs `TileBody`: the window, then for each output row its cursor,
the select, and its output pixels in increasing column. RST and BL stay; the other pins are those the last transaction
leaves. -/
def Obligations.DrawTileResult : Prop :=
  ∀ (x y scale pal : Byte) (addr : AssetAddr) (fv fh : Bool) (s : State),
    TileFits s.params x y scale pal (8 * scale.toNat) → addr.toNat + 23 < assetBytes s.params →
    ∃ t, exec (.drawTile x y scale pal addr fv fh) s = .next t ∧ s.Frame t ∧
      t.pins.rst = s.pins.rst ∧ t.pins.bl = s.pins.bl ∧
      (s.Settled → t.Settled ∧ t.transactions = s.transactions ++
        s.tileTrans x.toNat y.toNat scale.toNat addr.toNat pal fv fh)

/-- R176: DRAW_COMPOSITE that passes its checks is the four tiles one after another, the bottom two with `fv = 1`, none
with `fh = 1`; before INIT that is said of the block alone, not of the controller (R243, log 29). The whole next state
takes in the captured word (DEDUCED, log 16). -/
def Obligations.DrawCompositeIsFourTiles : Prop :=
  ∀ (x y scale pal : Byte) (tl tr bl br : AssetAddr) (s : State),
    TileFits s.params x y scale pal (16 * scale.toNat) →
    tl.toNat + 23 < assetBytes s.params → tr.toNat + 23 < assetBytes s.params →
    bl.toNat + 23 < assetBytes s.params → br.toNat + 23 < assetBytes s.params →
    let x' := x + 8#8 * scale
    let y' := y + 8#8 * scale
    x'.toNat = x.toNat + 8 * scale.toNat ∧ y'.toNat = y.toNat + 8 * scale.toNat ∧
    ∃ t1 t2 t3 t, exec (.drawTile x y scale pal tl false false) s = .next t1 ∧
      exec (.drawTile x' y scale pal tr false false) t1 = .next t2 ∧
      exec (.drawTile x y' scale pal bl true false) t2 = .next t3 ∧
      exec (.drawTile x' y' scale pal br true false) t3 = .next t ∧
      (∃ c, exec (.drawComposite x y scale pal tl tr bl br) s = .next { t with controller := c } ∧
        (s.controller.initialized = true → c = t.controller)) ∧ s.Frame t ∧
      t.pins.rst = s.pins.rst ∧ t.pins.bl = s.pins.bl ∧
      (s.Settled → t.Settled ∧ t.transactions = s.transactions ++
        s.tileTrans x.toNat y.toNat scale.toNat tl.toNat pal false false ++
        s.tileTrans (x.toNat + 8 * scale.toNat) y.toNat scale.toNat tr.toNat pal false false ++
        s.tileTrans x.toNat (y.toNat + 8 * scale.toNat) scale.toNat bl.toNat pal true false ++
        s.tileTrans (x.toNat + 8 * scale.toNat) (y.toNat + 8 * scale.toNat) scale.toNat br.toNat pal true false)

/-- R175, R171: what DRAW_TILE paints. Each opaque output pixel's cell takes its colour, each transparent one's keeps its
content, no other cell is written, and no GRAM write falls outside window or panel; after INIT, as R243 asks (log 29). -/
def Obligations.TilePlacement : Prop :=
  ∀ (x y scale pal : Byte) (addr : AssetAddr) (fv fh : Bool) (s : State),
    RegsDistinct s.params → Memory.wf s.controller.gram → s.controller.initialized = true →
    TileFits s.params x y scale pal (8 * scale.toNat) → addr.toNat + 23 < assetBytes s.params →
    let big := 8 * scale.toNat
    ∃ t, exec (.drawTile x y scale pal addr fv fh) s = .next t ∧
      (∀ o < big, ∀ col < big,
        let idx := s.sourceIndex addr.toNat (o / scale.toNat) (col / scale.toNat) fh
        t.cell (x.toNat + col) (panelRow y.toNat big o fv) =
          if idx = 7#3 then s.cell (x.toNat + col) (panelRow y.toNat big o fv) else palRead s.params pal idx) ∧
      s.KeepsOutside t (inRect x.toNat y.toNat big big) ∧
      t.controller.WindowIs x.toNat y.toNat big big

/-- R177: what DRAW_COMPOSITE paints: four squares without gap or overlap, the top two upright, the bottom two with their
rows from the bottom up; after INIT, as R243 asks (log 29). -/
def Obligations.CompositePlacement : Prop :=
  ∀ (x y scale pal : Byte) (tl tr bl br : AssetAddr) (s : State),
    RegsDistinct s.params → Memory.wf s.controller.gram → s.controller.initialized = true →
    TileFits s.params x y scale pal (16 * scale.toNat) →
    tl.toNat + 23 < assetBytes s.params → tr.toNat + 23 < assetBytes s.params →
    bl.toNat + 23 < assetBytes s.params → br.toNat + 23 < assetBytes s.params →
    let big := 8 * scale.toNat
    ∃ t, exec (.drawComposite x y scale pal tl tr bl br) s = .next t ∧
      (∀ i < 2 * big, ∀ j < 2 * big,
        let a := if j < big then (if i < big then tl else tr) else (if i < big then bl else br)
        let o := if j < big then j else 2 * big - 1 - j
        let idx := s.sourceIndex a.toNat (o / scale.toNat) (i % big / scale.toNat) false
        t.cell (x.toNat + i) (y.toNat + j) =
          if idx = 7#3 then s.cell (x.toNat + i) (y.toNat + j) else palRead s.params pal idx) ∧
      s.KeepsOutside t (inRect x.toNat y.toNat (2 * big) (2 * big))

/-- R172: the transaction counts of DRAW_TILE, `T` being `scale²` times the number of the tile's transparent source
pixels. The corrections are the writes of the cursor's column beyond the one of each row. -/
def Obligations.TileCounts : Prop :=
  ∀ (x y scale pal : Byte) (addr : AssetAddr) (fv fh : Bool) (s : State),
    RegsDistinct s.params → s.Settled →
    TileFits s.params x y scale pal (8 * scale.toNat) → addr.toNat + 23 < assetBytes s.params →
    let S := 8 * scale.toNat
    let T := scale.toNat * scale.toNat * s.transparentPixels addr.toNat
    ∃ t new, exec (.drawTile x y scale pal addr fv fh) s = .next t ∧ t.transactions = s.transactions ++ new ∧
      (gramColors s.params.regGram new).length + T = S * S ∧
      new.count (.sel s.params.regCurx) = S + T ∧
      countSel new = 4 + 3 * S + 3 * T ∧
      countData new = 4 + 2 * S + S * S + T ∧
      new.count (.sel s.params.regGram) = S + T

/-- R173: a tile of one opaque index writes that palette entry `S²` times and corrects nothing, whatever the flips. -/
def Obligations.SingleIndexTile : Prop :=
  ∀ (x y scale pal : Byte) (addr : AssetAddr) (fv fh : Bool) (k : BitVec 3) (s : State),
    RegsDistinct s.params → s.Settled →
    TileFits s.params x y scale pal (8 * scale.toNat) → addr.toNat + 23 < assetBytes s.params →
    k ≠ 7#3 → (∀ r < 8, ∀ q < 8, s.sourceIndex addr.toNat r q false = k) →
    let S := 8 * scale.toNat
    ∃ t new, exec (.drawTile x y scale pal addr fv fh) s = .next t ∧ t.transactions = s.transactions ++ new ∧
      gramColors s.params.regGram new = List.replicate (S * S) (colorTrans (palRead s.params pal k)) ∧
      new.count (.sel s.params.regCurx) = S

/-- R174: DRAW_TILE with `fh = 1` does on the bus, and at the controller, what it does with `fh = 0` on a tile whose rows
hold the indices reversed. R174 speaks of the transaction trace. Of the controller before INIT, which R243 leaves open,
the clause is the model's (its free values are numbered: DEDUCED, log 29). -/
def Obligations.FlipSymmetry : Prop :=
  ∀ (x y scale pal : Byte) (addr : AssetAddr) (fv : Bool) (m : Memory 8) (s : State),
    (∀ r < 8, ∀ q < 8,
      State.sourceIndex { s with assets := m } addr.toNat r q false = s.sourceIndex addr.toNat r (7 - q) false) →
    ∃ t u, exec (.drawTile x y scale pal addr fv true) s = .next t ∧
      exec (.drawTile x y scale pal addr fv false) { s with assets := m } = .next u ∧
      u.trace = t.trace ∧ u.transactions = t.transactions ∧ u.pins = t.pins ∧ u.controller = t.controller ∧
      u.err = t.err ∧ u.errCode = t.errCode

/-- R178: a tile of 64 transparent indices writes no colour: the window, then per output row its cursor and `S`
corrections; the GRAM keeps every cell (after INIT, R243, log 29); and it is no error. -/
def Obligations.TransparentTile : Prop :=
  ∀ (x y scale pal : Byte) (addr : AssetAddr) (fv fh : Bool) (s : State),
    RegsDistinct s.params → s.Settled →
    TileFits s.params x y scale pal (8 * scale.toNat) → addr.toNat + 23 < assetBytes s.params →
    (∀ r < 8, ∀ q < 8, s.sourceIndex addr.toNat r q false = 7#3) →
    let S := 8 * scale.toNat
    ∃ t new, exec (.drawTile x y scale pal addr fv fh) s = .next t ∧ t.transactions = s.transactions ++ new ∧
      new = windowTrans s.params x.toNat y.toNat (x.toNat + S - 1) (y.toNat + S - 1) ++
        (List.range S).flatMap (fun o =>
          (List.range (S + 1)).flatMap fun n =>
            cursorTrans s.params (x.toNat + n) (panelRow y.toNat S o fv) ++ [.sel s.params.regGram]) ∧
      gramColors s.params.regGram new = [] ∧ t.err = s.err ∧
      (s.controller.initialized = true → t.controller.gram = s.controller.gram)

/-- R52–R55, R163: what DRAW_TILE and every other command make of the memories: only the tile's 24 bytes are read, and of
a palette neither entry 7 nor a row at or beyond `NUM_PALETTES`. Where a command leaves the controller open, that both runs
leave it alike is the model's (its free values are numbered: logs 8, 29, 30). -/
def Obligations.OnlyTileBytesAndColoursRead : Prop :=
  (∀ (x y scale pal : Byte) (addr : AssetAddr) (fv fh : Bool) (m : Memory 8) (s t : State),
    (∀ k < 24, Memory.read m (addr.toNat + k) = s.assetByte (addr.toNat + k)) →
    exec (.drawTile x y scale pal addr fv fh) s = .next t →
    exec (.drawTile x y scale pal addr fv fh) { s with assets := m } = .next { t with assets := m }) ∧
  (∀ (i : Instr) (m : Memory 8) (s t : State),
    (∀ x y scale pal addr fv fh, i ≠ .drawTile x y scale pal addr fv fh) →
    (∀ x y scale pal tl tr bl br, i ≠ .drawComposite x y scale pal tl tr bl br) →
    exec i s = .next t → exec i { s with assets := m } = .next { t with assets := m }) ∧
  ∀ (i : Instr) (roms : Vector (Vector Half 8) 256) (s t : State),
    (∀ (pal : Byte) (idx : BitVec 3), pal.toNat < numPalettes s.params → idx ≠ 7#3 →
      palRead { s.params with palettes := roms } pal idx = palRead s.params pal idx) →
    exec i s = .next t →
    exec i { s with params := { s.params with palettes := roms } } =
      .next { t with params := { s.params with palettes := roms } }

/-- R54: the host's write while a command is BUSY leaves each read the old or the new value, and the command's bus
sequence is computed from the values read: at the edge that reaches a pixel the actions are those of its bytes so read,
and at the two steps that drive a byte of its colour the bytes may have been read anew. A byte the host has not written
gives its only value, and where the host has written none the colour found stays. The record of the values (those the
byte has had since acceptance, of which there may be more than two), where reads are made, and that an index 7 read anew
keeps the colour found are the model's (DESIGN CHOICE, safe, log 9). -/
def Obligations.ContestedByteOldOrNew : Prop :=
  ∀ (s : State) (a : AssetAddr) (b : Byte) (k : Nat),
    s.racedByte k ∈ s.byteValues k ∧
    ((∀ c ∈ s.olds, c.1 ≠ k) → s.racedByte k = s.assetByte k) ∧
    (∀ v ∈ s.byteValues k, v = s.assetByte k ∨ (k, v) ∈ s.olds) ∧
    (∀ w, (s.accept w).byteValues k = [s.assetByte k]) ∧
    (s.phase = .busy → Memory.wf s.assets →
      (s.hostWrite a b).byteValues a.toNat = b :: s.byteValues a.toNat ∧
      (k ≠ a.toNat → (s.hostWrite a b).byteValues k = s.byteValues k)) ∧
    (∀ (kind : CommandKind) (px : PixelOp) (ops : List Op) (errClr : Bool) (offer : Option CmdWord),
      s.phase = .busy → s.seq = .running kind 0 [] (.pixel px :: ops) →
      ∃ (rd : Nat → Byte) (m : Micro) (ms : List Micro), (∀ j, rd j ∈ s.byteValues j) ∧
        pixelMicros s.params rd px = m :: ms ∧
        let t := s.edge false errClr offer
        t.pins = (s.micro m).pins ∧ t.trace = (s.micro m).trace ∧ t.controller = (s.micro m).controller ∧
        t.phase = .busy ∧ t.seq = .running kind (holdOf s.params m) ms ops ∧ t.olds = s.olds) ∧
    (∀ (p : Params) (rd : Nat → Byte) (px : PixelOp) (u : State),
      (pixelMicros p rd px).foldl State.micro u = u.runItems (pixelItems p rd px)) ∧
    ∀ (kind : CommandKind) (high : Bool) (px : PixelOp) (found : Half) (ms : List Micro) (ops : List Op) (errClr : Bool)
        (offer : Option CmdWord),
      s.phase = .busy → s.seq = .running kind 0 (.color high px found :: ms) ops →
      ∃ c : Half,
        (c = found ∨ ∃ rd : Nat → Byte, (∀ j, rd j ∈ s.byteValues j) ∧ pixelIndex s.params rd px ≠ 7#3 ∧
          c = palRead s.params px.pal (pixelIndex s.params rd px)) ∧
        (s.olds = [] → c = found) ∧
        let t := s.edge false errClr offer
        t.pins = { s.pins with d := if high then c.extractLsb' 8 8 else c.extractLsb' 0 8 } ∧
        t.trace = pushTrace t.pins s.trace ∧
        t.phase = .busy ∧ t.olds = s.olds ∧
        t.seq = .running kind (holdExtra s.params (if high then .w2 else .w5)) ms ops

/-! ### Scroll and initialization -/

/-- R191: the scroll arithmetic on [0, 218]. -/
def Obligations.ScrollArithmetic : Prop :=
  ∀ s : Byte, s.toNat ≤ 218 →
    (scrollNext s).toNat = (if s.toNat = 218 then 0 else s.toNat + 1) ∧
    (scrollPrev s).toNat = (if s.toNat = 0 then 218 else s.toNat - 1) ∧
    (scrollNext s).toNat ≤ 218 ∧ (scrollPrev s).toNat ≤ 218 ∧
    scrollPrev (scrollNext s) = s ∧ scrollNext (scrollPrev s) = s ∧
    scrollNext^[219] s = s

/-- R190, R192: SCROLL_FWD and SCROLL_BWD set the offset and write it to the controller's scroll register; the window,
the cursor and the GRAM are not touched. -/
def Obligations.ScrollResult : Prop :=
  ∀ (i : Instr) (v : Byte) (s : State),
    (i = .scrollFwd ∧ v = scrollNext s.scrollOffset) ∨ (i = .scrollBwd ∧ v = scrollPrev s.scrollOffset) →
    ∃ t, exec i s = .next t ∧ t.scrollOffset = v ∧ s.SameReport t ∧ t.phase = .idle ∧ t.seq = .none ∧ t.olds = [] ∧
      t.pins = { s.pins with d := v, rs := .data, cs := .deasserted, wr := .deasserted } ∧
      (s.Settled → t.Settled ∧ t.transactions = s.transactions ++ [.sel s.params.regScroll, .data 0x00#8 v]) ∧
      (RegsDistinct s.params → t.controller =
        { s.controller with ir := s.params.regScroll, ph := .high, hold := 0x00#8, scroll := v.setWidth 16 })

/-- R197, R196: INIT clears the offset and performs every item of `INIT_SEQ` in list order; nothing else of the block
changes. The controller goes where the items lead it, from a scroll register of which nothing is said (U9; the model's
free value, log 30): a last write of `REG_SCROLL` in the list decides it, whatever it was. From then on the controller is
initialized (R243, log 29). -/
def Obligations.InitResult : Prop :=
  ∀ s : State, ∃ t, exec .init s = .next t ∧ t.scrollOffset = 0#8 ∧ s.SameReport t ∧
    t.phase = .idle ∧ t.seq = .none ∧ t.olds = [] ∧
    t.trace = grownTrace s.trace (seqVectors s.pins s.params.initSeq) ∧
    t.pins = (seqVectors s.pins s.params.initSeq).getLastD s.pins ∧
    (∃ v : Half, t.controller =
      { (State.runItems { s with controller := { s.controller with scroll := v, draws := s.controller.draws + 1 } }
          s.params.initSeq).controller with initialized := true }) ∧
    (RegsDistinct s.params → ∀ pre v post, s.params.initSeq = pre ++ .reg s.params.regScroll v :: post →
      (∀ h l, .data h l ∉ post) → (∀ u, .reg s.params.regScroll u ∉ post) → t.controller.scroll = v) ∧
    (s.Settled → t.Settled ∧ t.transactions = s.transactions ++ itemsTrans s.params.initSeq)

/-- R199: RST and BL are driven by no command but INIT, which leaves them as the last such items of `INIT_SEQ` say, and by
reset. -/
def Obligations.OnlyInitDrivesRstBl : Prop :=
  (∀ (i : Instr) (s t : State), exec i s = .next t → i ≠ .init →
    t.pins.rst = s.pins.rst ∧ t.pins.bl = s.pins.bl) ∧
  (∀ s t : State, exec .init s = .next t →
    t.pins.rst = lastRst s.pins.rst s.params.initSeq ∧ t.pins.bl = lastBl s.pins.bl s.params.initSeq) ∧
  (∀ (it : Item) (k : StepName) (c : PinChange), .step k c ∈ itemMicros it →
    (c.rst ≠ none → ∃ a, it = .rst a) ∧ (c.bl ≠ none → ∃ b, it = .bl b)) ∧
  ∀ (s : State) (errClr : Bool) (offer : Option CmdWord),
    (s.edge true errClr offer).pins.rst = .deasserted ∧ (s.edge true errClr offer).pins.bl = .off

/-- R32: who writes the scroll offset, and that it stays in [0, 218]. -/
def Obligations.ScrollOffsetWriters : Prop :=
  ∀ s t : State, step s = .next t →
    (s.scrollOffset.toNat ≤ 218 → t.scrollOffset.toNat ≤ 218) ∧
    (t.scrollOffset = s.scrollOffset ∨
      (t.scrollOffset = 0#8 ∧ ∃ errClr offer rest, s.inputs = .edge true errClr offer :: rest) ∨
      ∃ w, ((s.phase = .busy ∧ w = s.cmd) ∨ (s.phase = .idle ∧ ∃ rest, s.inputs = .command w :: rest)) ∧
        ((decode w = .legal .init ∧ t.scrollOffset = 0#8) ∨
         (decode w = .legal .scrollFwd ∧ t.scrollOffset = scrollNext s.scrollOffset) ∨
         (decode w = .legal .scrollBwd ∧ t.scrollOffset = scrollPrev s.scrollOffset)))

/-- R193: no drawing command reads or writes the scroll offset, and none selects the scroll register. That both runs leave
the controller alike before INIT is the model's (its free values are numbered: DEDUCED, log 29). -/
def Obligations.DrawingIgnoresScroll : Prop :=
  ∀ (i : Instr) (v : Byte) (s t : State), isDrawing i = true → exec i s = .next t →
    t.scrollOffset = s.scrollOffset ∧
    exec i { s with scrollOffset := v } = .next { t with scrollOffset := v } ∧
    (RegsDistinct s.params → s.Settled →
      ∃ new, t.transactions = s.transactions ++ new ∧ .sel s.params.regScroll ∉ new)

/-! ### Rejection -/

/-- R212: of the causes that apply, the one with the smallest code is recorded; decode errors precede every operand
check. R214: a rejection changes nothing else. -/
def Obligations.RejectedWithSmallestCode : Prop :=
  (∀ (i : Instr) (s : State) (code : ErrCode), code ∈ causes s.params i →
    (∀ c ∈ causes s.params i, code.bits.toNat ≤ c.bits.toNat) →
    ∃ t, exec i s = .next t ∧ s.RejectedAs t code) ∧
  ∀ (w : CmdWord) (s : State),
    (decode w = .illegalOpcode → ∃ t, runWord w s = .next t ∧ (s.capture w).RejectedAs t .illegalOpcode) ∧
    (decode w = .reservedBits → ∃ t, runWord w s = .next t ∧ (s.capture w).RejectedAs t .reservedBits)

/-- R5, R213: a command that breaks a contract no parameter enters is rejected whatever the parameters are; one that
keeps them all, with palette and addresses in range, is executed without an error. -/
def Obligations.ContractsAreChecked : Prop :=
  ∀ (i : Instr) (s : State),
    (i.wellFormed = false → ∃ t code, exec i s = .next t ∧ s.RejectedAs t code) ∧
    (i.wellFormed = true →
      (∀ x y scale pal addr fv fh, i = .drawTile x y scale pal addr fv fh →
        pal.toNat < numPalettes s.params ∧ addr.toNat + 23 < assetBytes s.params) →
      (∀ x y scale pal tl tr bl br, i = .drawComposite x y scale pal tl tr bl br →
        pal.toNat < numPalettes s.params ∧ tl.toNat + 23 < assetBytes s.params ∧
        tr.toNat + 23 < assetBytes s.params ∧ bl.toNat + 23 < assetBytes s.params ∧
        br.toNat + 23 < assetBytes s.params) →
      ∃ t, exec i s = .next t ∧ t.err = s.err ∧ t.errCode = s.errCode)

/-! ### What commands leave at the controller -/

/-- R251: the register each command leaves selected; of an accepted drawing command after INIT (R243, log 29). -/
def Obligations.SelectedRegisterAfter : Prop :=
  ∀ s : State,
    (∀ i : Instr, ∃ t, exec i s = .next t ∧
      (causes s.params i ≠ [] → t.controller.ir = s.controller.ir) ∧
      (causes s.params i = [] → (isDrawing i = true → s.controller.initialized = true) →
        t.controller.ir = selectedAfter s.params s.controller.ir i)) ∧
    ∀ w : CmdWord, (∀ i, decode w ≠ .legal i) → ∃ t, runWord w s = .next t ∧ t.controller.ir = s.controller.ir

/-- R252: the address counter after each drawing command; after INIT, as R243 asks (log 29). -/
def Obligations.AddressCounterAfter : Prop :=
  ∀ s : State, RegsDistinct s.params → s.controller.initialized = true →
    (∀ (x y : Byte) (color : Half), x.toNat < 176 → y.toNat < 220 →
      ∃ t, exec (.drawPixel x y color) s = .next t ∧
        t.controller.acx.toNat = x.toNat ∧ t.controller.acy.toNat = y.toNat) ∧
    (∀ (x y width : Byte) (color : Half), x.toNat + width.toNat < 176 → y.toNat < 220 →
      ∃ t, exec (.drawHline x y width color) s = .next t ∧
        t.controller.acx.toNat = x.toNat ∧ t.controller.acy.toNat = y.toNat) ∧
    (∀ (x y width height : Byte) (color : Half), 1 ≤ width.toNat → 1 ≤ height.toNat →
      x.toNat + width.toNat ≤ 176 → y.toNat + height.toNat ≤ 220 →
      ∃ t, exec (.drawRect x y width height color) s = .next t ∧
        t.controller.acx.toNat = x.toNat ∧ t.controller.acy.toNat = y.toNat) ∧
    (∃ t, exec .clearScreen s = .next t ∧ t.controller.acx.toNat = 0 ∧ t.controller.acy.toNat = 0) ∧
    (∀ (x y scale pal : Byte) (addr : AssetAddr) (fv fh : Bool),
      TileFits s.params x y scale pal (8 * scale.toNat) → addr.toNat + 23 < assetBytes s.params →
      let S := 8 * scale.toNat
      ∃ t, exec (.drawTile x y scale pal addr fv fh) s = .next t ∧
        (s.sourceIndex addr.toNat 7 7 fh = 7#3 →
          t.controller.acx.toNat = x.toNat + S ∧
          t.controller.acy.toNat = if fv then y.toNat else y.toNat + S - 1) ∧
        (s.sourceIndex addr.toNat 7 7 fh ≠ 7#3 →
          t.controller.acx.toNat = x.toNat ∧
          t.controller.acy.toNat = if fv then y.toNat + 1 else y.toNat)) ∧
    ∀ (x y scale pal : Byte) (tl tr bl br : AssetAddr),
      TileFits s.params x y scale pal (16 * scale.toNat) →
      tl.toNat + 23 < assetBytes s.params → tr.toNat + 23 < assetBytes s.params →
      bl.toNat + 23 < assetBytes s.params → br.toNat + 23 < assetBytes s.params →
      let S := 8 * scale.toNat
      ∃ t, exec (.drawComposite x y scale pal tl tr bl br) s = .next t ∧
        (s.sourceIndex br.toNat 7 7 false = 7#3 →
          t.controller.acx.toNat = x.toNat + 2 * S ∧ t.controller.acy.toNat = y.toNat + S) ∧
        (s.sourceIndex br.toNat 7 7 false ≠ 7#3 →
          t.controller.acx.toNat = x.toNat + S ∧ t.controller.acy.toNat = y.toNat + S + 1)

/-- R253: SELECT_REG, and a tile or composite whose last output pixel is transparent, leave CS asserted, and it stays so
however long the block is left IDLE, without effect on the reference controller, and through further selects until a data
transaction; a tile or composite whose last output pixel is opaque leaves it deasserted. That the whole state rests while
IDLE takes in the captured word, which U18 leaves open there and the model keeps (DEDUCED, log 16). -/
def Obligations.ChipSelectAfter : Prop :=
  ∀ s : State,
    (∀ idx, ∃ t, exec (.selectReg idx) s = .next t ∧ t.pins.cs = .asserted ∧ (∀ n, State.edges n t = t) ∧
      (∀ j, ∃ u, exec (.selectReg j) t = .next u ∧ u.pins.cs = .asserted) ∧
      ∀ h l, ∃ u, exec (.writeData h l) t = .next u ∧ u.pins.cs = .deasserted) ∧
    (∀ (x y scale pal : Byte) (addr : AssetAddr) (fv fh : Bool),
      TileFits s.params x y scale pal (8 * scale.toNat) → addr.toNat + 23 < assetBytes s.params →
      ∃ t, exec (.drawTile x y scale pal addr fv fh) s = .next t ∧ (∀ n, State.edges n t = t) ∧
        t.pins.cs = if s.sourceIndex addr.toNat 7 7 fh = 7#3 then .asserted else .deasserted) ∧
    ∀ (x y scale pal : Byte) (tl tr bl br : AssetAddr),
      TileFits s.params x y scale pal (16 * scale.toNat) →
      tl.toNat + 23 < assetBytes s.params → tr.toNat + 23 < assetBytes s.params →
      bl.toNat + 23 < assetBytes s.params → br.toNat + 23 < assetBytes s.params →
      ∃ t, exec (.drawComposite x y scale pal tl tr bl br) s = .next t ∧ (∀ n, State.edges n t = t) ∧
        t.pins.cs = if s.sourceIndex br.toNat 7 7 false = 7#3 then .asserted else .deasserted

/-! ### The whole machine -/

/-- The invariant holds at reset. -/
def Obligations.ResetInv : Prop := State.reset.Inv

/-- Every step keeps the invariant (10_state.md R22, R27, R32; 60_exceptions.md R211; 40_bus_protocol.md R118). -/
def Obligations.StepKeepsInv : Prop :=
  ∀ s t : State, s.Inv → step s = .next t → t.Inv

/-- R34, R35, R52: no step writes a parameter, and only the host writes the asset memory, one byte at a time; and a host
write of a byte that exists leaves its value there, every other byte and the rest of the block as before (of `olds`, the
earlier values that R54 lets a running command read, another statement speaks). The captured word is written only where a
word is accepted and by reset (R29); that it stays after its command, when R24 gives it no meaning, is the model's
(DEDUCED, log 16). -/
def Obligations.ParamsAndAssetsKept : Prop :=
  (∀ (s : State) (a : AssetAddr) (b : Byte) (rest : List HostInput),
    s.inputs = .assetWrite a b :: rest → a.toNat < assetBytes s.params →
    ∃ t, step s = .next t ∧ t = { s with inputs := rest, assets := t.assets, olds := t.olds } ∧
      (Memory.wf s.assets → t.assetByte a.toNat = b ∧ ∀ k, k ≠ a.toNat → t.assetByte k = s.assetByte k)) ∧
  (∀ (i : Instr) (s t : State), exec i s = .next t → t.cmd = s.cmd) ∧
  ∀ s t : State, step s = .next t →
    t.params = s.params ∧
    (t.cmd = s.cmd ∨
      (s.phase = .idle ∧ ∃ w rest, s.inputs = .command w :: rest ∧ t.cmd = w) ∨
      (s.phase = .idle ∧ ∃ errClr w rest, s.inputs = .edge false errClr (some w) :: rest ∧ t.cmd = w) ∨
      ∃ errClr offer rest, s.inputs = .edge true errClr offer :: rest) ∧
    (t.assets = s.assets ∨
      ∃ a b rest, s.inputs = .assetWrite a b :: rest ∧ a.toNat < assetBytes s.params ∧
        (Memory.wf s.assets → t.assetByte a.toNat = b ∧ ∀ k, k ≠ a.toNat → t.assetByte k = s.assetByte k))

/-- R227, R216: whatever the block is doing, after finitely many edges it is IDLE; and a drawing command performs at most
156672 transactions. -/
def Obligations.EveryCommandEnds : Prop :=
  (∀ s : State, ∃ n, (State.edges n s).phase = .idle) ∧
  ∀ (i : Instr) (s t : State), isDrawing i = true → s.Settled → exec i s = .next t →
    ∃ new, t.transactions = s.transactions ++ new ∧ new.length ≤ 156672

/-- R22, R216: clock edge by clock edge, an accepted word ends, undisturbed, in exactly the state that its atomic
transition gives, for every hold time and latency; until then the block is BUSY. The two ways to run a command are the
model's log 2; that they agree also on what the spec leaves open rests on the numbered free values (logs 8, 29, 30) and on
the captured word's staying (log 16). -/
def Obligations.ClockRunReachesAtomicResult : Prop :=
  ∀ (w : CmdWord) (s t : State), runWord w s = .next t →
    ∃ n, State.edges n (s.accept w) = t ∧ 1 ≤ n ∧ ∀ m < n, (State.edges m (s.accept w)).phase = .busy

/-- R260, R28: a command is BUSY for at least four edges for each `BusSel` and eight for each `BusData` it performs. -/
def Obligations.BusyAtLeastBusCycles : Prop :=
  ∀ (w : CmdWord) (s t : State) (n : Nat), s.Settled → runWord w s = .next t →
    State.edges n (s.accept w) = t →
    ∃ new, t.transactions = s.transactions ++ new ∧ 4 * countSel new + 8 * countData new ≤ n

end Slice0Statements
end

