-- ==== Sys2Proof/Laws/Memory.lean ====
section
/-! SUPPORT. The laws of a store: read after write, and that every operation keeps the canonical form. -/

namespace Sys2Proof.Machine

variable {w : Nat}

@[simp] theorem Memory.read_nil (a : Nat) : Memory.read ([] : Memory w) a = Memory.unlisted w := rfl

/-- A canonical store reads as unlisted below its entries. -/
theorem Memory.read_of_lt (m : Memory w) (a : Nat) (h : ∀ c ∈ m, a < c.1) :
    Memory.read m a = Memory.unlisted w := by
  induction m with
  | nil => rfl
  | cons c rest ih =>
    obtain ⟨k, v⟩ := c
    have hk : a < k := h (k, v) (List.mem_cons_self ..)
    simp only [Memory.read, Nat.ne_of_lt hk, if_false]
    exact ih fun c hc => h c (List.mem_cons_of_mem _ hc)

theorem Memory.read_cons_same (a : Nat) (v : BitVec w) (rest : Memory w) (h : ∀ c ∈ rest, a < c.1) :
    Memory.read (Memory.cons a v rest) a = v := by
  unfold Memory.cons
  split
  · next hv => rw [Memory.read_of_lt rest a h, hv]
  · simp [Memory.read]

theorem Memory.read_cons_other (a b : Nat) (v : BitVec w) (rest : Memory w) (h : b ≠ a) :
    Memory.read (Memory.cons a v rest) b = Memory.read rest b := by
  unfold Memory.cons
  split <;> simp [Memory.read, h]

/-- Every entry of a write is the written one or one of the store's. -/
theorem Memory.mem_write (m : Memory w) (a : Nat) (v : BitVec w) (c : Nat × BitVec w)
    (hc : c ∈ Memory.write m a v) : c = (a, v) ∨ c ∈ m := by
  induction m with
  | nil =>
    simp only [Memory.write, Memory.cons] at hc
    split at hc <;> simp_all
  | cons e rest ih =>
    obtain ⟨k, u⟩ := e
    simp only [Memory.write, Memory.cons] at hc
    split at hc
    · split at hc <;> simp_all
    · split at hc
      · split at hc <;> simp_all
        rcases hc with h | h <;> simp [h]
      · simp only [List.mem_cons] at hc ⊢
        rcases hc with h | h
        · exact .inr (.inl h)
        · rcases ih h with h | h
          · exact .inl h
          · exact .inr (.inr h)

/-- A read after a write to the same address gives the value written. -/
theorem Memory.read_write_same (m : Memory w) (hm : Memory.wf m) (a : Nat) (v : BitVec w) :
    Memory.read (Memory.write m a v) a = v := by
  induction m with
  | nil => exact Memory.read_cons_same a v [] (by simp)
  | cons e rest ih =>
    obtain ⟨k, u⟩ := e
    obtain ⟨hp, hn⟩ := hm
    rw [List.pairwise_cons] at hp
    simp only [Memory.write]
    split
    · next h =>
      refine Memory.read_cons_same a v _ fun c hc => ?_
      rcases List.mem_cons.1 hc with rfl | hc
      · exact h
      · exact Nat.lt_trans h (hp.1 c hc)
    · split
      · next h => exact Memory.read_cons_same a v _ fun c hc => h ▸ hp.1 c hc
      · next h =>
        simp only [Memory.read, h, if_false]
        exact ih ⟨hp.2, fun c hc => hn c (List.mem_cons_of_mem _ hc)⟩

/-- A write leaves every other address alone. -/
theorem Memory.read_write_other (m : Memory w) (a b : Nat) (v : BitVec w) (h : b ≠ a) :
    Memory.read (Memory.write m a v) b = Memory.read m b := by
  induction m with
  | nil => exact Memory.read_cons_other a b v [] h
  | cons e rest ih =>
    obtain ⟨k, u⟩ := e
    simp only [Memory.write]
    split
    · exact Memory.read_cons_other a b v _ h
    · split
      · next hk => simp [Memory.read_cons_other a b v _ h, Memory.read, ← hk, h]
      · simp only [Memory.read]
        split
        · rfl
        · exact ih

theorem Memory.wf_nil : Memory.wf ([] : Memory w) := by simp [Memory.wf]

theorem Memory.wf_cons (a : Nat) (v : BitVec w) (rest : Memory w) (h : Memory.wf rest)
    (hlt : ∀ c ∈ rest, a < c.1) : Memory.wf (Memory.cons a v rest) := by
  unfold Memory.cons
  split
  · exact h
  · next hv =>
    refine ⟨List.pairwise_cons.2 ⟨hlt, h.1⟩, fun c hc => ?_⟩
    rcases List.mem_cons.1 hc with rfl | hc
    · exact hv
    · exact h.2 c hc

/-- A write keeps the canonical form. -/
theorem Memory.wf_write (m : Memory w) (hm : Memory.wf m) (a : Nat) (v : BitVec w) :
    Memory.wf (Memory.write m a v) := by
  induction m with
  | nil => exact Memory.wf_cons a v [] hm (by simp)
  | cons e rest ih =>
    obtain ⟨k, u⟩ := e
    obtain ⟨hp, hn⟩ := hm
    have hp' := List.pairwise_cons.1 hp
    have hrest : Memory.wf rest := ⟨hp'.2, fun c hc => hn c (List.mem_cons_of_mem _ hc)⟩
    simp only [Memory.write]
    split
    · next h =>
      refine Memory.wf_cons a v _ ⟨hp, hn⟩ fun c hc => ?_
      rcases List.mem_cons.1 hc with rfl | hc
      · exact h
      · exact Nat.lt_trans h (hp'.1 c hc)
    · split
      · next h => exact Memory.wf_cons a v _ hrest fun c hc => h ▸ hp'.1 c hc
      · next h1 h2 =>
        have hw := ih hrest
        refine ⟨List.pairwise_cons.2 ⟨fun c hc => ?_, hw.1⟩, fun c hc => ?_⟩
        · rcases Memory.mem_write rest a v c hc with rfl | hc
          · show k < a
            omega
          · exact hp'.1 c hc
        · rcases List.mem_cons.1 hc with rfl | hc
          · exact hn _ (List.mem_cons_self ..)
          · exact hw.2 c hc

/-- A write below `n` keeps every address below `n`. -/
theorem Memory.below_write (m : Memory w) (n : Nat) (hm : Memory.below m n) (a : Nat) (ha : a < n)
    (v : BitVec w) : Memory.below (Memory.write m a v) n := by
  intro c hc
  rcases Memory.mem_write m a v c hc with rfl | hc
  · exact ha
  · exact hm c hc

/-- The entries of a list laid out from `base`. -/
theorem Memory.ofList_bounds (base : Nat) (l : List (BitVec w)) :
    ∀ c ∈ Memory.ofList base l, base ≤ c.1 ∧ c.1 < base + l.length := by
  induction l generalizing base with
  | nil => simp [Memory.ofList]
  | cons v rest ih =>
    intro c hc
    have hc' : c = (base, v) ∨ c ∈ Memory.ofList (base + 1) rest := by
      simp only [Memory.ofList, Memory.cons] at hc
      split at hc <;> simp_all
    rcases hc' with rfl | hc'
    · simp
    · have := ih (base + 1) c hc'
      simp only [List.length_cons]
      omega

/-- Laying out a list gives the canonical form. -/
theorem Memory.wf_ofList (base : Nat) (l : List (BitVec w)) : Memory.wf (Memory.ofList base l) := by
  induction l generalizing base with
  | nil => exact Memory.wf_nil
  | cons v rest ih =>
    exact Memory.wf_cons base v _ (ih _) fun c hc => (Memory.ofList_bounds _ _ c hc).1

theorem freeGramOf_wf (n : Nat) : Memory.wf (freeGramOf n) := by
  unfold freeGramOf
  exact Memory.wf_ofList ..

theorem freeGramOf_below (n : Nat) : Memory.below (freeGramOf n) gramCells := by
  unfold freeGramOf
  exact fun c hc => by simpa using (Memory.ofList_bounds _ _ c hc).2

theorem freeRegsOf_wf (n : Nat) : Memory.wf (freeRegsOf n) := by
  unfold freeRegsOf
  exact Memory.wf_ofList ..

theorem freeRegsOf_below (n : Nat) : Memory.below (freeRegsOf n) 256 := by
  unfold freeRegsOf
  exact fun c hc => by simpa using (Memory.ofList_bounds _ _ c hc).2

end Sys2Proof.Machine
end

