-- ==== Sys2Proof/Laws/Controller.lean ====
section
/-! SUPPORT. The laws of the reference controller: what a strobe does, and that its stores stay canonical. -/

namespace Sys2Proof.Machine

/-- The controller's stores are canonical and within bounds. -/
structure Controller.StoresOk (c : Controller) : Prop where
  gramWf : Memory.wf c.gram
  gramBelow : Memory.below c.gram gramCells
  regsWf : Memory.wf c.regs
  regsBelow : Memory.below c.regs 256

theorem Controller.storesOk_congr {c d : Controller} (hg : d.gram = c.gram) (hr : d.regs = c.regs)
    (h : c.StoresOk) : d.StoresOk := by
  obtain ⟨h1, h2, h3, h4⟩ := h
  exact ⟨hg ▸ h1, hg ▸ h2, hr ▸ h3, hr ▸ h4⟩

theorem Controller.start_storesOk : Controller.start.StoresOk :=
  ⟨Memory.wf_nil, by simp [Controller.start, Memory.below], Memory.wf_nil, by simp [Controller.start, Memory.below]⟩

/-- A controller with free stores has canonical ones. -/
theorem Controller.free_storesOk (c : Controller) (n : Nat) (hg : c.gram = freeGramOf n)
    (hr : Memory.wf c.regs) (hb : Memory.below c.regs 256) : c.StoresOk := by
  refine ⟨?_, ?_, hr, hb⟩
  · rw [hg]
    exact freeGramOf_wf n
  · rw [hg]
    exact freeGramOf_below n

theorem Controller.unspecified_storesOk (c : Controller) : c.unspecified.StoresOk := by
  have hr : c.unspecified.regs = freeRegsOf c.draws := rfl
  refine Controller.free_storesOk _ c.draws rfl ?_ ?_
  · rw [hr]
    exact freeRegsOf_wf _
  · rw [hr]
    exact freeRegsOf_below _

@[simp] theorem Controller.beginCommand_plain (c : Controller) : c.beginCommand .plain = c := rfl
@[simp] theorem Controller.beginCommand_drawing (c : Controller) : c.beginCommand .drawing = c := rfl
@[simp] theorem Controller.endCommand_plain (c : Controller) : c.endCommand .plain = c := rfl

/-- After INIT a drawing command's end does nothing to the controller (70_reset_and_hazards.md R243). -/
theorem Controller.endCommand_drawing (c : Controller) (h : c.initialized = true) : c.endCommand .drawing = c := by
  simp [Controller.endCommand, h]

theorem Controller.beginCommand_storesOk (k : CommandKind) (c : Controller) (h : c.StoresOk) :
    (c.beginCommand k).StoresOk := by
  cases k <;> exact ⟨h.gramWf, h.gramBelow, h.regsWf, h.regsBelow⟩

theorem Controller.endCommand_storesOk (k : CommandKind) (c : Controller) (h : c.StoresOk) :
    (c.endCommand k).StoresOk := by
  cases k with
  | plain => exact h
  | drawing =>
    show (if c.initialized = true then c else c.unspecified).StoresOk
    split
    · exact h
    · exact Controller.unspecified_storesOk c
  | init => exact ⟨h.gramWf, h.gramBelow, h.regsWf, h.regsBelow⟩

@[simp] theorem Controller.advance_initialized (c : Controller) : c.advance.initialized = c.initialized := by
  unfold Controller.advance; split <;> [skip; split] <;> rfl

@[simp] theorem Controller.writeGram_initialized (v : Half) (c : Controller) :
    (c.writeGram v).initialized = c.initialized := by
  unfold Controller.writeGram; split <;> simp

@[simp] theorem Controller.regWrite_initialized (p : Params) (i : Byte) (v : Half) (c : Controller) :
    (c.regWrite p i v).initialized = c.initialized := by
  unfold Controller.regWrite; repeat' split
  all_goals simp

@[simp] theorem Controller.strobe_initialized (p : Params) (n : Pins) (c : Controller) :
    (c.strobe p n).initialized = c.initialized := by
  unfold Controller.strobe; split <;> simp

/-- Nothing on the bus makes the controller initialized, or takes it away: the commands and reset do. -/
@[simp] theorem Controller.observe_initialized (p : Params) (o n : Pins) (c : Controller) :
    (c.observe p o n).initialized = c.initialized := by
  unfold Controller.observe; dsimp only; split <;> split <;> simp

/-- What the condition of a GRAM write says (20_memory.md R68). -/
theorem Controller.inside_iff (c : Controller) :
    c.inside = true ↔ c.hsa.toNat ≤ c.acx.toNat ∧ c.acx.toNat ≤ c.hea.toNat ∧ c.vsa.toNat ≤ c.acy.toNat ∧
      c.acy.toNat ≤ c.vea.toNat ∧ c.acx.toNat < panelW ∧ c.acy.toNat < panelH := by
  simp [Controller.inside, and_assoc]

@[simp] theorem Controller.advance_gram (c : Controller) : c.advance.gram = c.gram := by
  unfold Controller.advance; split <;> [skip; split] <;> rfl

@[simp] theorem Controller.advance_regs (c : Controller) : c.advance.regs = c.regs := by
  unfold Controller.advance; split <;> [skip; split] <;> rfl

@[simp] theorem Controller.advance_ph (c : Controller) : c.advance.ph = c.ph := by
  unfold Controller.advance; split <;> [skip; split] <;> rfl

@[simp] theorem Controller.advance_ir (c : Controller) : c.advance.ir = c.ir := by
  unfold Controller.advance; split <;> [skip; split] <;> rfl

@[simp] theorem Controller.advance_scroll (c : Controller) : c.advance.scroll = c.scroll := by
  unfold Controller.advance; split <;> [skip; split] <;> rfl

@[simp] theorem Controller.writeGram_ph (v : Half) (c : Controller) : (c.writeGram v).ph = c.ph := by
  unfold Controller.writeGram; split <;> simp

@[simp] theorem Controller.writeGram_ir (v : Half) (c : Controller) : (c.writeGram v).ir = c.ir := by
  unfold Controller.writeGram; split <;> simp

@[simp] theorem Controller.writeGram_regs (v : Half) (c : Controller) : (c.writeGram v).regs = c.regs := by
  unfold Controller.writeGram; split <;> simp

theorem Controller.writeGram_storesOk (v : Half) (c : Controller) (h : c.StoresOk) :
    (c.writeGram v).StoresOk := by
  obtain ⟨h1, h2, h3, h4⟩ := h
  unfold Controller.writeGram
  split
  · next hin =>
    rw [Controller.inside_iff] at hin
    have hcell : gramCell c.acx.toNat c.acy.toNat < gramCells := by
      simp only [gramCell, gramCells, panelW, panelH] at *
      omega
    constructor
    · simpa using Memory.wf_write _ h1 _ _
    · simpa using Memory.below_write _ _ h2 _ hcell v
    · simpa using h3
    · simpa using h4
  · exact Controller.free_storesOk _ c.draws rfl h3 h4

/-- A register write keeps the index register and the byte phase. -/
@[simp] theorem Controller.regWrite_ph (p : Params) (i : Byte) (v : Half) (c : Controller) :
    (c.regWrite p i v).ph = c.ph := by
  unfold Controller.regWrite; repeat' split
  all_goals simp

@[simp] theorem Controller.regWrite_ir (p : Params) (i : Byte) (v : Half) (c : Controller) :
    (c.regWrite p i v).ir = c.ir := by
  unfold Controller.regWrite; repeat' split
  all_goals simp

theorem Controller.regWrite_storesOk (p : Params) (i : Byte) (v : Half) (c : Controller) (h : c.StoresOk) :
    (c.regWrite p i v).StoresOk := by
  unfold Controller.regWrite
  repeat' split
  all_goals first
    | exact Controller.writeGram_storesOk v c h
    | exact ⟨h.gramWf, h.gramBelow, h.regsWf, h.regsBelow⟩
    | exact ⟨h.gramWf, h.gramBelow, Memory.wf_write _ h.regsWf _ _, Memory.below_write _ _ h.regsBelow _ i.isLt _⟩

theorem Controller.strobe_storesOk (p : Params) (n : Pins) (c : Controller) (h : c.StoresOk) :
    (c.strobe p n).StoresOk := by
  unfold Controller.strobe
  split
  · exact ⟨h.gramWf, h.gramBelow, h.regsWf, h.regsBelow⟩
  · exact ⟨h.gramWf, h.gramBelow, h.regsWf, h.regsBelow⟩
  · exact Controller.regWrite_storesOk _ _ _ _ ⟨h.gramWf, h.gramBelow, h.regsWf, h.regsBelow⟩

/-- Whatever the pins do, the controller's stores stay canonical. -/
theorem Controller.observe_storesOk (p : Params) (o n : Pins) (c : Controller) (h : c.StoresOk) :
    (c.observe p o n).StoresOk := by
  unfold Controller.observe
  have hs : (if o.wr = .asserted ∧ n.wr = .deasserted ∧ n.cs = .asserted then Controller.strobe p n c
      else c).StoresOk := by
    split
    · exact Controller.strobe_storesOk p n c h
    · exact h
  dsimp only
  split
  · exact ⟨hs.gramWf, hs.gramBelow, hs.regsWf, hs.regsBelow⟩
  · exact hs

/-- Without a strobe edge and without CS being deasserted, the controller does nothing (20_memory.md R66). -/
theorem Controller.observe_quiet (p : Params) (o n : Pins) (c : Controller)
    (hw : n.wr = o.wr ∨ n.wr = .asserted) (hc : n.cs = o.cs ∨ n.cs = .asserted) : c.observe p o n = c := by
  have h1 : ¬(o.wr = .asserted ∧ n.wr = .deasserted ∧ n.cs = .asserted) := by
    rintro ⟨h, h', -⟩
    rcases hw with hw | hw <;> simp_all
  have h2 : ¬(o.cs = .asserted ∧ n.cs = .deasserted) := by
    rintro ⟨h, h'⟩
    rcases hc with hc | hc <;> simp_all
  simp only [Controller.observe, h1, h2, if_false]

/-- At the trailing edge of the write strobe with CS asserted the controller acts (20_memory.md R66). -/
theorem Controller.observe_strobe (p : Params) (o n : Pins) (c : Controller)
    (ho : o.wr = .asserted) (hn : n.wr = .deasserted) (hc : n.cs = .asserted) :
    c.observe p o n = c.strobe p n := by
  simp [Controller.observe, ho, hn, hc]

/-- CS deasserted between pairs puts the byte phase to HIGH (20_memory.md R66). -/
theorem Controller.observe_release (p : Params) (o n : Pins) (c : Controller)
    (hw : n.wr = o.wr) (ho : o.cs = .asserted) (hn : n.cs = .deasserted) :
    c.observe p o n = { c with ph := .high } := by
  simp [Controller.observe, hw, ho, hn]

/-- What an item does to a controller that is between byte pairs (20_memory.md R66, R67). -/
def Controller.item (p : Params) (c : Controller) : Item → Controller
  | .sel i => { c with ir := i, ph := .high }
  | .data h l => Controller.regWrite p c.ir (h ++ l) { c with hold := h, ph := .high }
  | .reg i v => Controller.regWrite p i v { c with ir := i, hold := hiByteOf v, ph := .high }
  | .rst _ => c
  | .bl _ => c
  | .delay _ => c
where
  /-- The high byte, which the controller holds until the low one comes. -/
  hiByteOf (v : Half) : Byte := v.extractLsb' 8 8

theorem Controller.item_ph (p : Params) (c : Controller) (t : Item) (h : c.ph = .high) :
    (c.item p t).ph = .high := by
  cases t <;> simp [Controller.item, h]

end Sys2Proof.Machine
end

