-- ==== Sys2Proof/Laws/State.lean ====
section
/-! SUPPORT. One lemma per field of State per update. -/

namespace Sys2Proof.Machine

/-! ### `State.busStep` -/

@[simp] theorem State.busStep_phase (c : PinChange) (s : State) : (s.busStep c).phase = s.phase := rfl
@[simp] theorem State.busStep_cmd (c : PinChange) (s : State) : (s.busStep c).cmd = s.cmd := rfl
@[simp] theorem State.busStep_pins (c : PinChange) (s : State) : (s.busStep c).pins = s.pins.apply c := rfl
@[simp] theorem State.busStep_scrollOffset (c : PinChange) (s : State) : (s.busStep c).scrollOffset = s.scrollOffset := rfl
@[simp] theorem State.busStep_err (c : PinChange) (s : State) : (s.busStep c).err = s.err := rfl
@[simp] theorem State.busStep_errCode (c : PinChange) (s : State) : (s.busStep c).errCode = s.errCode := rfl
@[simp] theorem State.busStep_seq (c : PinChange) (s : State) : (s.busStep c).seq = s.seq := rfl
@[simp] theorem State.busStep_trace (c : PinChange) (s : State) : (s.busStep c).trace = pushTrace (s.pins.apply c) s.trace := rfl
@[simp] theorem State.busStep_assets (c : PinChange) (s : State) : (s.busStep c).assets = s.assets := rfl
@[simp] theorem State.busStep_olds (c : PinChange) (s : State) : (s.busStep c).olds = s.olds := rfl
@[simp] theorem State.busStep_controller (c : PinChange) (s : State) : (s.busStep c).controller = Controller.observe s.params s.pins (s.pins.apply c) s.controller := rfl
@[simp] theorem State.busStep_params (c : PinChange) (s : State) : (s.busStep c).params = s.params := rfl
@[simp] theorem State.busStep_inputs (c : PinChange) (s : State) : (s.busStep c).inputs = s.inputs := rfl
@[simp] theorem State.busStep_raceReads (c : PinChange) (s : State) : (s.busStep c).raceReads = s.raceReads := rfl

/-! ### `State.recordErr` -/

@[simp] theorem State.recordErr_phase (code : ErrCode) (s : State) : (s.recordErr code).phase = s.phase := rfl
@[simp] theorem State.recordErr_cmd (code : ErrCode) (s : State) : (s.recordErr code).cmd = s.cmd := rfl
@[simp] theorem State.recordErr_pins (code : ErrCode) (s : State) : (s.recordErr code).pins = s.pins := rfl
@[simp] theorem State.recordErr_scrollOffset (code : ErrCode) (s : State) : (s.recordErr code).scrollOffset = s.scrollOffset := rfl
@[simp] theorem State.recordErr_err (code : ErrCode) (s : State) : (s.recordErr code).err = true := rfl
@[simp] theorem State.recordErr_errCode (code : ErrCode) (s : State) : (s.recordErr code).errCode = if s.err then s.errCode else code.bits := rfl
@[simp] theorem State.recordErr_seq (code : ErrCode) (s : State) : (s.recordErr code).seq = s.seq := rfl
@[simp] theorem State.recordErr_trace (code : ErrCode) (s : State) : (s.recordErr code).trace = s.trace := rfl
@[simp] theorem State.recordErr_assets (code : ErrCode) (s : State) : (s.recordErr code).assets = s.assets := rfl
@[simp] theorem State.recordErr_olds (code : ErrCode) (s : State) : (s.recordErr code).olds = s.olds := rfl
@[simp] theorem State.recordErr_controller (code : ErrCode) (s : State) : (s.recordErr code).controller = s.controller := rfl
@[simp] theorem State.recordErr_params (code : ErrCode) (s : State) : (s.recordErr code).params = s.params := rfl
@[simp] theorem State.recordErr_inputs (code : ErrCode) (s : State) : (s.recordErr code).inputs = s.inputs := rfl
@[simp] theorem State.recordErr_raceReads (code : ErrCode) (s : State) : (s.recordErr code).raceReads = s.raceReads := rfl

/-! ### `State.clearErr` -/

@[simp] theorem State.clearErr_phase (s : State) : s.clearErr.phase = s.phase := rfl
@[simp] theorem State.clearErr_cmd (s : State) : s.clearErr.cmd = s.cmd := rfl
@[simp] theorem State.clearErr_pins (s : State) : s.clearErr.pins = s.pins := rfl
@[simp] theorem State.clearErr_scrollOffset (s : State) : s.clearErr.scrollOffset = s.scrollOffset := rfl
@[simp] theorem State.clearErr_err (s : State) : s.clearErr.err = false := rfl
@[simp] theorem State.clearErr_errCode (s : State) : s.clearErr.errCode = 0#4 := rfl
@[simp] theorem State.clearErr_seq (s : State) : s.clearErr.seq = s.seq := rfl
@[simp] theorem State.clearErr_trace (s : State) : s.clearErr.trace = s.trace := rfl
@[simp] theorem State.clearErr_assets (s : State) : s.clearErr.assets = s.assets := rfl
@[simp] theorem State.clearErr_olds (s : State) : s.clearErr.olds = s.olds := rfl
@[simp] theorem State.clearErr_controller (s : State) : s.clearErr.controller = s.controller := rfl
@[simp] theorem State.clearErr_params (s : State) : s.clearErr.params = s.params := rfl
@[simp] theorem State.clearErr_inputs (s : State) : s.clearErr.inputs = s.inputs := rfl
@[simp] theorem State.clearErr_raceReads (s : State) : s.clearErr.raceReads = s.raceReads := rfl

/-! ### `State.finish` -/

@[simp] theorem State.finish_phase (s : State) : s.finish.phase = .idle := rfl
@[simp] theorem State.finish_cmd (s : State) : s.finish.cmd = s.cmd := rfl
@[simp] theorem State.finish_pins (s : State) : s.finish.pins = s.pins := rfl
@[simp] theorem State.finish_scrollOffset (s : State) : s.finish.scrollOffset = s.scrollOffset := rfl
@[simp] theorem State.finish_err (s : State) : s.finish.err = s.err := rfl
@[simp] theorem State.finish_errCode (s : State) : s.finish.errCode = s.errCode := rfl
@[simp] theorem State.finish_seq (s : State) : s.finish.seq = .none := rfl
@[simp] theorem State.finish_trace (s : State) : s.finish.trace = s.trace := rfl
@[simp] theorem State.finish_assets (s : State) : s.finish.assets = s.assets := rfl
@[simp] theorem State.finish_olds (s : State) : s.finish.olds = [] := rfl
@[simp] theorem State.finish_controller (s : State) : s.finish.controller = s.controller := rfl
@[simp] theorem State.finish_params (s : State) : s.finish.params = s.params := rfl
@[simp] theorem State.finish_inputs (s : State) : s.finish.inputs = s.inputs := rfl
@[simp] theorem State.finish_raceReads (s : State) : s.finish.raceReads = s.raceReads := rfl

/-! ### `State.start` -/

@[simp] theorem State.start_phase (kind : CommandKind) (scroll : Byte) (s : State) : (s.start kind scroll).phase = s.phase := rfl
@[simp] theorem State.start_cmd (kind : CommandKind) (scroll : Byte) (s : State) : (s.start kind scroll).cmd = s.cmd := rfl
@[simp] theorem State.start_pins (kind : CommandKind) (scroll : Byte) (s : State) : (s.start kind scroll).pins = s.pins := rfl
@[simp] theorem State.start_scrollOffset (kind : CommandKind) (scroll : Byte) (s : State) : (s.start kind scroll).scrollOffset = scroll := rfl
@[simp] theorem State.start_err (kind : CommandKind) (scroll : Byte) (s : State) : (s.start kind scroll).err = s.err := rfl
@[simp] theorem State.start_errCode (kind : CommandKind) (scroll : Byte) (s : State) : (s.start kind scroll).errCode = s.errCode := rfl
@[simp] theorem State.start_seq (kind : CommandKind) (scroll : Byte) (s : State) : (s.start kind scroll).seq = s.seq := rfl
@[simp] theorem State.start_trace (kind : CommandKind) (scroll : Byte) (s : State) : (s.start kind scroll).trace = s.trace := rfl
@[simp] theorem State.start_assets (kind : CommandKind) (scroll : Byte) (s : State) : (s.start kind scroll).assets = s.assets := rfl
@[simp] theorem State.start_olds (kind : CommandKind) (scroll : Byte) (s : State) : (s.start kind scroll).olds = s.olds := rfl
@[simp] theorem State.start_controller (kind : CommandKind) (scroll : Byte) (s : State) : (s.start kind scroll).controller = s.controller.beginCommand kind := rfl
@[simp] theorem State.start_params (kind : CommandKind) (scroll : Byte) (s : State) : (s.start kind scroll).params = s.params := rfl
@[simp] theorem State.start_inputs (kind : CommandKind) (scroll : Byte) (s : State) : (s.start kind scroll).inputs = s.inputs := rfl
@[simp] theorem State.start_raceReads (kind : CommandKind) (scroll : Byte) (s : State) : (s.start kind scroll).raceReads = s.raceReads := rfl

/-! ### `State.complete` -/

@[simp] theorem State.complete_phase (kind : CommandKind) (s : State) : (s.complete kind).phase = .idle := rfl
@[simp] theorem State.complete_cmd (kind : CommandKind) (s : State) : (s.complete kind).cmd = s.cmd := rfl
@[simp] theorem State.complete_pins (kind : CommandKind) (s : State) : (s.complete kind).pins = s.pins := rfl
@[simp] theorem State.complete_scrollOffset (kind : CommandKind) (s : State) : (s.complete kind).scrollOffset = s.scrollOffset := rfl
@[simp] theorem State.complete_err (kind : CommandKind) (s : State) : (s.complete kind).err = s.err := rfl
@[simp] theorem State.complete_errCode (kind : CommandKind) (s : State) : (s.complete kind).errCode = s.errCode := rfl
@[simp] theorem State.complete_seq (kind : CommandKind) (s : State) : (s.complete kind).seq = .none := rfl
@[simp] theorem State.complete_trace (kind : CommandKind) (s : State) : (s.complete kind).trace = s.trace := rfl
@[simp] theorem State.complete_assets (kind : CommandKind) (s : State) : (s.complete kind).assets = s.assets := rfl
@[simp] theorem State.complete_olds (kind : CommandKind) (s : State) : (s.complete kind).olds = [] := rfl
@[simp] theorem State.complete_controller (kind : CommandKind) (s : State) : (s.complete kind).controller = s.controller.endCommand kind := rfl
@[simp] theorem State.complete_params (kind : CommandKind) (s : State) : (s.complete kind).params = s.params := rfl
@[simp] theorem State.complete_inputs (kind : CommandKind) (s : State) : (s.complete kind).inputs = s.inputs := rfl
@[simp] theorem State.complete_raceReads (kind : CommandKind) (s : State) : (s.complete kind).raceReads = s.raceReads := rfl

/-! ### `State.reject` -/

@[simp] theorem State.reject_phase (code : ErrCode) (s : State) : (s.reject code).phase = .idle := rfl
@[simp] theorem State.reject_cmd (code : ErrCode) (s : State) : (s.reject code).cmd = s.cmd := rfl
@[simp] theorem State.reject_pins (code : ErrCode) (s : State) : (s.reject code).pins = s.pins := rfl
@[simp] theorem State.reject_scrollOffset (code : ErrCode) (s : State) : (s.reject code).scrollOffset = s.scrollOffset := rfl
@[simp] theorem State.reject_err (code : ErrCode) (s : State) : (s.reject code).err = true := rfl
@[simp] theorem State.reject_errCode (code : ErrCode) (s : State) : (s.reject code).errCode = if s.err then s.errCode else code.bits := rfl
@[simp] theorem State.reject_seq (code : ErrCode) (s : State) : (s.reject code).seq = .none := rfl
@[simp] theorem State.reject_trace (code : ErrCode) (s : State) : (s.reject code).trace = s.trace := rfl
@[simp] theorem State.reject_assets (code : ErrCode) (s : State) : (s.reject code).assets = s.assets := rfl
@[simp] theorem State.reject_olds (code : ErrCode) (s : State) : (s.reject code).olds = [] := rfl
@[simp] theorem State.reject_controller (code : ErrCode) (s : State) : (s.reject code).controller = s.controller := rfl
@[simp] theorem State.reject_params (code : ErrCode) (s : State) : (s.reject code).params = s.params := rfl
@[simp] theorem State.reject_inputs (code : ErrCode) (s : State) : (s.reject code).inputs = s.inputs := rfl
@[simp] theorem State.reject_raceReads (code : ErrCode) (s : State) : (s.reject code).raceReads = s.raceReads := rfl

/-! ### `State.blockReset` -/

@[simp] theorem State.blockReset_phase (s : State) : s.blockReset.phase = .idle := rfl
@[simp] theorem State.blockReset_cmd (s : State) : s.blockReset.cmd = 0#128 := rfl
@[simp] theorem State.blockReset_pins (s : State) : s.blockReset.pins = resetPins := rfl
@[simp] theorem State.blockReset_scrollOffset (s : State) : s.blockReset.scrollOffset = 0#8 := rfl
@[simp] theorem State.blockReset_err (s : State) : s.blockReset.err = false := rfl
@[simp] theorem State.blockReset_errCode (s : State) : s.blockReset.errCode = 0#4 := rfl
@[simp] theorem State.blockReset_seq (s : State) : s.blockReset.seq = .none := rfl
@[simp] theorem State.blockReset_trace (s : State) : s.blockReset.trace = pushTrace resetPins s.trace := rfl
@[simp] theorem State.blockReset_assets (s : State) : s.blockReset.assets = s.assets := rfl
@[simp] theorem State.blockReset_olds (s : State) : s.blockReset.olds = [] := rfl
@[simp] theorem State.blockReset_controller (s : State) : s.blockReset.controller = s.controller.unspecified := rfl
@[simp] theorem State.blockReset_params (s : State) : s.blockReset.params = s.params := rfl
@[simp] theorem State.blockReset_inputs (s : State) : s.blockReset.inputs = s.inputs := rfl
@[simp] theorem State.blockReset_raceReads (s : State) : s.blockReset.raceReads = s.raceReads := rfl

/-! ### `State.accept` -/

@[simp] theorem State.accept_phase (w : CmdWord) (s : State) : (s.accept w).phase = .busy := rfl
@[simp] theorem State.accept_cmd (w : CmdWord) (s : State) : (s.accept w).cmd = w := rfl
@[simp] theorem State.accept_pins (w : CmdWord) (s : State) : (s.accept w).pins = s.pins := rfl
@[simp] theorem State.accept_scrollOffset (w : CmdWord) (s : State) : (s.accept w).scrollOffset = s.scrollOffset := rfl
@[simp] theorem State.accept_err (w : CmdWord) (s : State) : (s.accept w).err = s.err := rfl
@[simp] theorem State.accept_errCode (w : CmdWord) (s : State) : (s.accept w).errCode = s.errCode := rfl
@[simp] theorem State.accept_seq (w : CmdWord) (s : State) : (s.accept w).seq = .decoding s.params.decodeExtra := rfl
@[simp] theorem State.accept_trace (w : CmdWord) (s : State) : (s.accept w).trace = s.trace := rfl
@[simp] theorem State.accept_assets (w : CmdWord) (s : State) : (s.accept w).assets = s.assets := rfl
@[simp] theorem State.accept_olds (w : CmdWord) (s : State) : (s.accept w).olds = [] := rfl
@[simp] theorem State.accept_controller (w : CmdWord) (s : State) : (s.accept w).controller = s.controller := rfl
@[simp] theorem State.accept_params (w : CmdWord) (s : State) : (s.accept w).params = s.params := rfl
@[simp] theorem State.accept_inputs (w : CmdWord) (s : State) : (s.accept w).inputs = s.inputs := rfl
@[simp] theorem State.accept_raceReads (w : CmdWord) (s : State) : (s.accept w).raceReads = s.raceReads := rfl

/-! ### `State.capture` -/

@[simp] theorem State.capture_phase (w : CmdWord) (s : State) : (s.capture w).phase = .busy := rfl
@[simp] theorem State.capture_cmd (w : CmdWord) (s : State) : (s.capture w).cmd = w := rfl
@[simp] theorem State.capture_pins (w : CmdWord) (s : State) : (s.capture w).pins = s.pins := rfl
@[simp] theorem State.capture_scrollOffset (w : CmdWord) (s : State) : (s.capture w).scrollOffset = s.scrollOffset := rfl
@[simp] theorem State.capture_err (w : CmdWord) (s : State) : (s.capture w).err = s.err := rfl
@[simp] theorem State.capture_errCode (w : CmdWord) (s : State) : (s.capture w).errCode = s.errCode := rfl
@[simp] theorem State.capture_seq (w : CmdWord) (s : State) : (s.capture w).seq = .none := rfl
@[simp] theorem State.capture_trace (w : CmdWord) (s : State) : (s.capture w).trace = s.trace := rfl
@[simp] theorem State.capture_assets (w : CmdWord) (s : State) : (s.capture w).assets = s.assets := rfl
@[simp] theorem State.capture_olds (w : CmdWord) (s : State) : (s.capture w).olds = [] := rfl
@[simp] theorem State.capture_controller (w : CmdWord) (s : State) : (s.capture w).controller = s.controller := rfl
@[simp] theorem State.capture_params (w : CmdWord) (s : State) : (s.capture w).params = s.params := rfl
@[simp] theorem State.capture_inputs (w : CmdWord) (s : State) : (s.capture w).inputs = s.inputs := rfl
@[simp] theorem State.capture_raceReads (w : CmdWord) (s : State) : (s.capture w).raceReads = s.raceReads := rfl

/-! ### `State.countRace` -/

@[simp] theorem State.countRace_phase (b : Bool) (s : State) : (s.countRace b).phase = s.phase := rfl
@[simp] theorem State.countRace_cmd (b : Bool) (s : State) : (s.countRace b).cmd = s.cmd := rfl
@[simp] theorem State.countRace_pins (b : Bool) (s : State) : (s.countRace b).pins = s.pins := rfl
@[simp] theorem State.countRace_scrollOffset (b : Bool) (s : State) : (s.countRace b).scrollOffset = s.scrollOffset := rfl
@[simp] theorem State.countRace_err (b : Bool) (s : State) : (s.countRace b).err = s.err := rfl
@[simp] theorem State.countRace_errCode (b : Bool) (s : State) : (s.countRace b).errCode = s.errCode := rfl
@[simp] theorem State.countRace_seq (b : Bool) (s : State) : (s.countRace b).seq = s.seq := rfl
@[simp] theorem State.countRace_trace (b : Bool) (s : State) : (s.countRace b).trace = s.trace := rfl
@[simp] theorem State.countRace_assets (b : Bool) (s : State) : (s.countRace b).assets = s.assets := rfl
@[simp] theorem State.countRace_olds (b : Bool) (s : State) : (s.countRace b).olds = s.olds := rfl
@[simp] theorem State.countRace_controller (b : Bool) (s : State) : (s.countRace b).controller = s.controller := rfl
@[simp] theorem State.countRace_params (b : Bool) (s : State) : (s.countRace b).params = s.params := rfl
@[simp] theorem State.countRace_inputs (b : Bool) (s : State) : (s.countRace b).inputs = s.inputs := rfl
@[simp] theorem State.countRace_raceReads (b : Bool) (s : State) :
    (s.countRace b).raceReads = if b && !s.olds.isEmpty then s.raceReads + 1 else s.raceReads := rfl

end Sys2Proof.Machine
end

