-- ==== Sys2Proof/Laws/Run.lean ====
section
/-! SUPPORT. What running bus steps, items and operations does: the fields it never touches, the pins at the end of each
transaction (40_bus_protocol.md R118), the records it adds to the transaction trace (R120), and what the controller has
after it. -/

namespace Sys2Proof.Machine

/-! ### Fields that no bus sequence changes -/

@[simp] theorem State.micro_phase (s : State) (m : Micro) : (s.micro m).phase = s.phase := by cases m <;> rfl

@[simp] theorem State.micros_phase (s : State) (ms : List Micro) : (ms.foldl State.micro s).phase = s.phase := by
  induction ms generalizing s with
  | nil => rfl
  | cons m ms ih => simp [ih]

@[simp] theorem State.runItem_phase (s : State) (t : Item) : (s.runItem t).phase = s.phase :=
  State.micros_phase s (itemMicros t)

@[simp] theorem State.runItems_phase (s : State) (ts : List Item) : (s.runItems ts).phase = s.phase := by
  induction ts generalizing s with
  | nil => rfl
  | cons t ts ih => exact (ih (s.runItem t)).trans (State.runItem_phase s t)

@[simp] theorem State.micro_cmd (s : State) (m : Micro) : (s.micro m).cmd = s.cmd := by cases m <;> rfl

@[simp] theorem State.micros_cmd (s : State) (ms : List Micro) : (ms.foldl State.micro s).cmd = s.cmd := by
  induction ms generalizing s with
  | nil => rfl
  | cons m ms ih => simp [ih]

@[simp] theorem State.runItem_cmd (s : State) (t : Item) : (s.runItem t).cmd = s.cmd :=
  State.micros_cmd s (itemMicros t)

@[simp] theorem State.runItems_cmd (s : State) (ts : List Item) : (s.runItems ts).cmd = s.cmd := by
  induction ts generalizing s with
  | nil => rfl
  | cons t ts ih => exact (ih (s.runItem t)).trans (State.runItem_cmd s t)

@[simp] theorem State.micro_scrollOffset (s : State) (m : Micro) : (s.micro m).scrollOffset = s.scrollOffset := by cases m <;> rfl

@[simp] theorem State.micros_scrollOffset (s : State) (ms : List Micro) : (ms.foldl State.micro s).scrollOffset = s.scrollOffset := by
  induction ms generalizing s with
  | nil => rfl
  | cons m ms ih => simp [ih]

@[simp] theorem State.runItem_scrollOffset (s : State) (t : Item) : (s.runItem t).scrollOffset = s.scrollOffset :=
  State.micros_scrollOffset s (itemMicros t)

@[simp] theorem State.runItems_scrollOffset (s : State) (ts : List Item) : (s.runItems ts).scrollOffset = s.scrollOffset := by
  induction ts generalizing s with
  | nil => rfl
  | cons t ts ih => exact (ih (s.runItem t)).trans (State.runItem_scrollOffset s t)

@[simp] theorem State.micro_err (s : State) (m : Micro) : (s.micro m).err = s.err := by cases m <;> rfl

@[simp] theorem State.micros_err (s : State) (ms : List Micro) : (ms.foldl State.micro s).err = s.err := by
  induction ms generalizing s with
  | nil => rfl
  | cons m ms ih => simp [ih]

@[simp] theorem State.runItem_err (s : State) (t : Item) : (s.runItem t).err = s.err :=
  State.micros_err s (itemMicros t)

@[simp] theorem State.runItems_err (s : State) (ts : List Item) : (s.runItems ts).err = s.err := by
  induction ts generalizing s with
  | nil => rfl
  | cons t ts ih => exact (ih (s.runItem t)).trans (State.runItem_err s t)

@[simp] theorem State.micro_errCode (s : State) (m : Micro) : (s.micro m).errCode = s.errCode := by cases m <;> rfl

@[simp] theorem State.micros_errCode (s : State) (ms : List Micro) : (ms.foldl State.micro s).errCode = s.errCode := by
  induction ms generalizing s with
  | nil => rfl
  | cons m ms ih => simp [ih]

@[simp] theorem State.runItem_errCode (s : State) (t : Item) : (s.runItem t).errCode = s.errCode :=
  State.micros_errCode s (itemMicros t)

@[simp] theorem State.runItems_errCode (s : State) (ts : List Item) : (s.runItems ts).errCode = s.errCode := by
  induction ts generalizing s with
  | nil => rfl
  | cons t ts ih => exact (ih (s.runItem t)).trans (State.runItem_errCode s t)

@[simp] theorem State.micro_seq (s : State) (m : Micro) : (s.micro m).seq = s.seq := by cases m <;> rfl

@[simp] theorem State.micros_seq (s : State) (ms : List Micro) : (ms.foldl State.micro s).seq = s.seq := by
  induction ms generalizing s with
  | nil => rfl
  | cons m ms ih => simp [ih]

@[simp] theorem State.runItem_seq (s : State) (t : Item) : (s.runItem t).seq = s.seq :=
  State.micros_seq s (itemMicros t)

@[simp] theorem State.runItems_seq (s : State) (ts : List Item) : (s.runItems ts).seq = s.seq := by
  induction ts generalizing s with
  | nil => rfl
  | cons t ts ih => exact (ih (s.runItem t)).trans (State.runItem_seq s t)

@[simp] theorem State.micro_assets (s : State) (m : Micro) : (s.micro m).assets = s.assets := by cases m <;> rfl

@[simp] theorem State.micros_assets (s : State) (ms : List Micro) : (ms.foldl State.micro s).assets = s.assets := by
  induction ms generalizing s with
  | nil => rfl
  | cons m ms ih => simp [ih]

@[simp] theorem State.runItem_assets (s : State) (t : Item) : (s.runItem t).assets = s.assets :=
  State.micros_assets s (itemMicros t)

@[simp] theorem State.runItems_assets (s : State) (ts : List Item) : (s.runItems ts).assets = s.assets := by
  induction ts generalizing s with
  | nil => rfl
  | cons t ts ih => exact (ih (s.runItem t)).trans (State.runItem_assets s t)

@[simp] theorem State.micro_olds (s : State) (m : Micro) : (s.micro m).olds = s.olds := by cases m <;> rfl

@[simp] theorem State.micros_olds (s : State) (ms : List Micro) : (ms.foldl State.micro s).olds = s.olds := by
  induction ms generalizing s with
  | nil => rfl
  | cons m ms ih => simp [ih]

@[simp] theorem State.runItem_olds (s : State) (t : Item) : (s.runItem t).olds = s.olds :=
  State.micros_olds s (itemMicros t)

@[simp] theorem State.runItems_olds (s : State) (ts : List Item) : (s.runItems ts).olds = s.olds := by
  induction ts generalizing s with
  | nil => rfl
  | cons t ts ih => exact (ih (s.runItem t)).trans (State.runItem_olds s t)

@[simp] theorem State.micro_params (s : State) (m : Micro) : (s.micro m).params = s.params := by cases m <;> rfl

@[simp] theorem State.micros_params (s : State) (ms : List Micro) : (ms.foldl State.micro s).params = s.params := by
  induction ms generalizing s with
  | nil => rfl
  | cons m ms ih => simp [ih]

@[simp] theorem State.runItem_params (s : State) (t : Item) : (s.runItem t).params = s.params :=
  State.micros_params s (itemMicros t)

@[simp] theorem State.runItems_params (s : State) (ts : List Item) : (s.runItems ts).params = s.params := by
  induction ts generalizing s with
  | nil => rfl
  | cons t ts ih => exact (ih (s.runItem t)).trans (State.runItem_params s t)

@[simp] theorem State.micro_inputs (s : State) (m : Micro) : (s.micro m).inputs = s.inputs := by cases m <;> rfl

@[simp] theorem State.micros_inputs (s : State) (ms : List Micro) : (ms.foldl State.micro s).inputs = s.inputs := by
  induction ms generalizing s with
  | nil => rfl
  | cons m ms ih => simp [ih]

@[simp] theorem State.runItem_inputs (s : State) (t : Item) : (s.runItem t).inputs = s.inputs :=
  State.micros_inputs s (itemMicros t)

@[simp] theorem State.runItems_inputs (s : State) (ts : List Item) : (s.runItems ts).inputs = s.inputs := by
  induction ts generalizing s with
  | nil => rfl
  | cons t ts ih => exact (ih (s.runItem t)).trans (State.runItem_inputs s t)

@[simp] theorem State.micro_raceReads (s : State) (m : Micro) : (s.micro m).raceReads = s.raceReads := by cases m <;> rfl

@[simp] theorem State.micros_raceReads (s : State) (ms : List Micro) : (ms.foldl State.micro s).raceReads = s.raceReads := by
  induction ms generalizing s with
  | nil => rfl
  | cons m ms ih => simp [ih]

@[simp] theorem State.runItem_raceReads (s : State) (t : Item) : (s.runItem t).raceReads = s.raceReads :=
  State.micros_raceReads s (itemMicros t)

@[simp] theorem State.runItems_raceReads (s : State) (ts : List Item) : (s.runItems ts).raceReads = s.raceReads := by
  induction ts generalizing s with
  | nil => rfl
  | cons t ts ih => exact (ih (s.runItem t)).trans (State.runItem_raceReads s t)

@[simp] theorem State.micro_initialized (s : State) (m : Micro) :
    (s.micro m).controller.initialized = s.controller.initialized := by cases m <;> simp [State.micro]

@[simp] theorem State.micros_initialized (s : State) (ms : List Micro) :
    (ms.foldl State.micro s).controller.initialized = s.controller.initialized := by
  induction ms generalizing s with
  | nil => rfl
  | cons m ms ih => simp [List.foldl_cons, ih]

@[simp] theorem State.runItems_initialized (s : State) (ts : List Item) :
    (s.runItems ts).controller.initialized = s.controller.initialized := by
  induction ts generalizing s with
  | nil => rfl
  | cons t ts ih => exact (ih _).trans (State.micros_initialized s (itemMicros t))

@[simp] theorem State.runItems_nil (s : State) : s.runItems [] = s := rfl

@[simp] theorem State.runItems_cons (s : State) (t : Item) (ts : List Item) :
    s.runItems (t :: ts) = (s.runItem t).runItems ts := rfl

theorem State.runItems_append (s : State) (ts us : List Item) :
    s.runItems (ts ++ us) = (s.runItems ts).runItems us := List.foldl_append ..

/-- Running operations is running their items, read from the memory as it is at the start. -/
theorem State.runOps_eq (s : State) (ops : List Op) :
    s.runOps ops = s.runItems (opsItems s.params s.assetByte ops) := by
  induction ops generalizing s with
  | nil => rfl
  | cons o ops ih =>
    have hb : (s.runItems (o.items s.params s.assetByte)).assetByte = s.assetByte := by
      funext a
      simp [State.assetByte]
    have hs : s.runOps (o :: ops) = (s.runItems (o.items s.params s.assetByte)).runOps ops := rfl
    rw [hs, ih, hb, State.runItems_params]
    simp [opsItems, State.runItems_append]

/-- Plain items as operations run as they are. -/
@[simp] theorem opsItems_items (p : Params) (rd : Nat → Byte) (ts : List Item) :
    opsItems p rd (ts.map .item) = ts := by
  induction ts with
  | nil => rfl
  | cons t ts ih => simpa [opsItems, Op.items] using ih

theorem opsItems_append (p : Params) (rd : Nat → Byte) (xs ys : List Op) :
    opsItems p rd (xs ++ ys) = opsItems p rd xs ++ opsItems p rd ys := by
  simp [opsItems]

@[simp] theorem itemsTrans_nil : itemsTrans [] = [] := rfl

theorem itemsTrans_cons (t : Item) (ts : List Item) : itemsTrans (t :: ts) = itemTrans t ++ itemsTrans ts := by
  simp [itemsTrans]

theorem itemsTrans_append (ts us : List Item) : itemsTrans (ts ++ us) = itemsTrans ts ++ itemsTrans us := by
  simp [itemsTrans]

/-! ### The pin trace -/

@[simp] theorem pushTrace_head (n : Pins) (tr : List Pins) : (pushTrace n tr).head? = some n := by
  cases tr with
  | nil => rfl
  | cons o rest =>
    simp only [pushTrace]
    split
    · next h => simp [h]
    · simp

/-- Equal neighbours stay merged (10_state.md R27). -/
theorem pushTrace_merged (n : Pins) (tr : List Pins) (h : tr.IsChain (fun a b => a ≠ b)) :
    (pushTrace n tr).IsChain (fun a b => a ≠ b) := by
  cases tr with
  | nil => simp [pushTrace]
  | cons o rest =>
    simp only [pushTrace]
    split
    · exact h
    · next hne => simpa using ⟨hne, h⟩

/-- What one more pin vector adds to the reading of a trace. -/
theorem readTrace_push (n o : Pins) (tr : List Pins) (ho : tr.head? = some o)
    (hc : n.cs = .asserted ∨ (readTrace tr).pending = none) :
    readTrace (pushTrace n tr) = (readTrace tr).next o n := by
  cases tr with
  | nil => simp at ho
  | cons q rest =>
    obtain rfl : q = o := by simpa using ho
    simp only [pushTrace]
    split
    · next h =>
      subst h
      unfold BusReading.next
      split
      · next hd =>
        rcases hc with hc | hc
        · rw [hc] at hd
          cases hd
        · generalize readTrace (n :: rest) = r at hc ⊢
          cases r
          simp_all
      · split
        · next hw => exact absurd (hw.1.symm.trans hw.2) (by decide)
        · rfl
    · rfl

/-- A bus step's effect on the reading of the trace. -/
theorem State.readTrace_busStep (s : State) (c : PinChange) (hh : s.trace.head? = some s.pins)
    (hc : (s.pins.apply c).cs = .asserted ∨ (readTrace s.trace).pending = none) :
    readTrace (s.busStep c).trace = (readTrace s.trace).next s.pins (s.pins.apply c) :=
  readTrace_push _ _ _ hh hc

/-! ### Transactions -/

/-- The pins after `BusSel(i)` (40_bus_protocol.md R118). -/
theorem State.runItem_sel_pins (s : State) (i : Byte) :
    (s.runItem (.sel i)).pins = { s.pins with d := i, rs := .index, cs := .asserted, wr := .deasserted } := rfl

/-- The pins after `BusData(h, l)` (40_bus_protocol.md R118). -/
theorem State.runItem_data_pins (s : State) (h l : Byte) :
    (s.runItem (.data h l)).pins = { s.pins with d := l, rs := .data, cs := .deasserted, wr := .deasserted } := rfl

theorem State.runItem_reg (s : State) (i : Byte) (v : Half) :
    s.runItem (.reg i v) = (s.runItem (.sel i)).runItem (.data (hiByte v) (loByte v)) :=
  List.foldl_append ..

/-- The two bytes of a value put together again (20_memory.md R57). -/
@[simp] theorem hiByte_append_loByte (v : Half) : (hiByte v ++ loByte v : BitVec (8 + 8)) = v := by
  apply BitVec.eq_of_getLsbD_eq
  intro k hk
  simp only [hiByte, loByte, BitVec.getLsbD_append, BitVec.getLsbD_extractLsb']
  split
  · next h => simp [h]
  · next h =>
    have h1 : k - 8 < 8 := by omega
    have h2 : 8 + (k - 8) = k := by omega
    simp [h1, h2]

/-- The controller after a bus step that it does not act on. -/
theorem State.busStep_controller_quiet (s : State) (c : PinChange)
    (hw : (s.pins.apply c).wr = s.pins.wr ∨ (s.pins.apply c).wr = .asserted)
    (hc : (s.pins.apply c).cs = s.pins.cs ∨ (s.pins.apply c).cs = .asserted) :
    (s.busStep c).controller = s.controller :=
  Controller.observe_quiet _ _ _ _ hw hc

/-- The controller after a bus step that ends a write strobe. -/
theorem State.busStep_controller_strobe (s : State) (c : PinChange) (ho : s.pins.wr = .asserted)
    (hn : (s.pins.apply c).wr = .deasserted) (hc : (s.pins.apply c).cs = .asserted) :
    (s.busStep c).controller = s.controller.strobe s.params (s.pins.apply c) :=
  Controller.observe_strobe _ _ _ _ ho hn hc

/-- The controller after a bus step that deasserts CS. -/
theorem State.busStep_controller_release (s : State) (c : PinChange)
    (hw : (s.pins.apply c).wr = s.pins.wr) (ho : s.pins.cs = .asserted) (hn : (s.pins.apply c).cs = .deasserted) :
    (s.busStep c).controller = { s.controller with ph := .high } :=
  Controller.observe_release _ _ _ _ hw ho hn

/-- `BusSel(i)` as four bus steps (40_bus_protocol.md R113). -/
theorem State.runItem_sel_steps (s : State) (i : Byte) :
    s.runItem (.sel i) = (((s.busStep { d := some i }).busStep { rs := some .index, cs := some .asserted }).busStep
      { wr := some .asserted }).busStep { wr := some .deasserted } := rfl

/-- `BusData(h, l)` as eight bus steps (40_bus_protocol.md R114). -/
theorem State.runItem_data_steps (s : State) (h l : Byte) :
    s.runItem (.data h l) = (((((((s.busStep { rs := some .data, cs := some .asserted }).busStep
      { d := some h }).busStep { wr := some .asserted }).busStep { wr := some .deasserted }).busStep
      { d := some l }).busStep { wr := some .asserted }).busStep { wr := some .deasserted }).busStep
      { cs := some .deasserted } := rfl

/-- The controller after `BusSel(i)`, whatever it had before (20_memory.md R66). -/
theorem State.runItem_sel_controller (s : State) (i : Byte) :
    (s.runItem (.sel i)).controller = { s.controller with ir := i, ph := .high } := by
  rw [State.runItem_sel_steps, State.busStep_controller_strobe _ _ rfl rfl rfl,
    State.busStep_controller_quiet _ _ (.inr rfl) (.inl rfl), State.busStep_controller_quiet _ _ (.inl rfl) (.inr rfl),
    State.busStep_controller_quiet _ _ (.inl rfl) (.inl rfl)]
  rfl

/-- The controller after `BusData(h, l)` when it is between byte pairs (20_memory.md R66). -/
theorem State.runItem_data_controller (s : State) (h l : Byte) (hp : s.controller.ph = .high) :
    (s.runItem (.data h l)).controller = s.controller.item s.params (.data h l) := by
  have strobe1 : ∀ n : Pins, n.rs = .data →
      s.controller.strobe s.params n = { s.controller with hold := n.d, ph := .low } := by
    intro n hn
    simp [Controller.strobe, hn, hp]
  rw [State.runItem_data_steps, State.busStep_controller_release _ _ rfl rfl rfl,
    State.busStep_controller_strobe _ _ rfl rfl rfl, State.busStep_controller_quiet _ _ (.inr rfl) (.inl rfl),
    State.busStep_controller_quiet _ _ (.inl rfl) (.inl rfl), State.busStep_controller_strobe _ _ rfl rfl rfl,
    State.busStep_controller_quiet _ _ (.inr rfl) (.inl rfl), State.busStep_controller_quiet _ _ (.inl rfl) (.inl rfl)]
  rw [State.busStep_controller_quiet s _ (.inl rfl) (.inr rfl)]
  simp only [State.busStep_params]
  rw [strobe1 _ rfl]
  show _ = Controller.regWrite s.params s.controller.ir (h ++ l) { s.controller with hold := h, ph := .high }
  generalize hc : Controller.strobe s.params _ _ = c
  have hc' : c = Controller.regWrite s.params s.controller.ir (h ++ l)
      { s.controller with hold := h, ph := .high } := hc.symm
  have hph : c.ph = .high := by rw [hc']; simp
  rw [← hc', ← hph]

/-- The controller after an item when it is between byte pairs. -/
theorem State.runItem_controller (s : State) (t : Item) (hp : s.controller.ph = .high) :
    (s.runItem t).controller = s.controller.item s.params t := by
  cases t with
  | sel i => exact State.runItem_sel_controller s i
  | data h l => exact State.runItem_data_controller s h l hp
  | reg i v =>
    rw [State.runItem_reg, State.runItem_data_controller _ _ _ (by rw [State.runItem_sel_controller])]
    simp only [State.runItem_sel_controller, Controller.item, hiByte_append_loByte, State.runItem_params]
    rfl
  | rst a => simp [State.runItem, itemMicros, State.micro, Controller.observe, Pins.apply, Controller.item]; grind
  | bl b => simp [State.runItem, itemMicros, State.micro, Controller.observe, Pins.apply, Controller.item]; grind
  | delay n => rfl

/-- The controller after a list of items: the items' effects in order. -/
theorem State.runItems_controller (s : State) (ts : List Item) (hp : s.controller.ph = .high) :
    (s.runItems ts).controller = ts.foldl (Controller.item s.params) s.controller := by
  induction ts generalizing s with
  | nil => rfl
  | cons t ts ih =>
    have h := State.runItem_controller s t hp
    rw [State.runItems_cons, ih _ (by rw [h]; exact Controller.item_ph _ _ _ hp), h]
    simp

end Sys2Proof.Machine
end

