-- ==== Sys2Proof/Laws/Trace.lean ====
section
/-! SUPPORT. What an observer reads of a bus sequence that starts with the bus settled: its records, and the bus settled
again (40_bus_protocol.md R118–R120); and what every bus step keeps: merged neighbours in the trace, canonical stores
in the controller. -/

namespace Sys2Proof.Machine

@[simp] theorem State.busStep_head (s : State) (c : PinChange) :
    (s.busStep c).trace.head? = some (s.busStep c).pins := pushTrace_head _ _

/-- One bus step read by an observer, with the pins before and after it known. -/
theorem State.reading_step (s : State) (c : PinChange) (r : BusReading) (hh : s.trace.head? = some s.pins)
    (hr : readTrace s.trace = r) (hc : (s.pins.apply c).cs = .asserted ∨ r.pending = none) :
    readTrace (s.busStep c).trace = r.next s.pins (s.pins.apply c) := by
  subst hr
  exact State.readTrace_busStep s c hh hc

/-- A pin change without a strobe edge is read as nothing, between pairs. -/
theorem BusReading.next_quiet (r : BusReading) (o n : Pins) (hw : n.wr = o.wr ∨ n.wr = .asserted)
    (hc : n.cs = .asserted ∨ r.pending = none) : r.next o n = r := by
  unfold BusReading.next
  split
  · next hd =>
    rcases hc with hc | hc
    · rw [hc] at hd
      cases hd
    · cases r
      simp_all
  · split
    · next h =>
      obtain ⟨h1, h2⟩ := h
      rcases hw with hw | hw
      · rw [← hw, h2] at h1
        cases h1
      · rw [h2] at hw
        cases hw
    · rfl

/-- A strobe edge in register-select mode. -/
theorem BusReading.next_index (r : BusReading) (o n : Pins) (ho : o.wr = .asserted) (hn : n.wr = .deasserted)
    (hc : n.cs = .asserted) (hrs : n.rs = .index) :
    r.next o n = { pending := none, trans := r.trans ++ [.sel n.d] } := by
  simp [BusReading.next, ho, hn, hc, hrs]

/-- The first strobe edge of a pair in data mode. -/
theorem BusReading.next_high (r : BusReading) (o n : Pins) (ho : o.wr = .asserted) (hn : n.wr = .deasserted)
    (hc : n.cs = .asserted) (hrs : n.rs = .data) (hp : r.pending = none) :
    r.next o n = { r with pending := some n.d } := by
  simp [BusReading.next, ho, hn, hc, hrs, hp]

/-- The second strobe edge of a pair in data mode. -/
theorem BusReading.next_low (r : BusReading) (o n : Pins) (h : Byte) (ho : o.wr = .asserted) (hn : n.wr = .deasserted)
    (hc : n.cs = .asserted) (hrs : n.rs = .data) (hp : r.pending = some h) :
    r.next o n = { pending := none, trans := r.trans ++ [.data h n.d] } := by
  simp [BusReading.next, ho, hn, hc, hrs, hp]

/-- A bus step without a strobe edge is read as nothing, between pairs. -/
theorem State.reading_quiet (s : State) (c : PinChange) (r : BusReading) (hh : s.trace.head? = some s.pins)
    (hr : readTrace s.trace = r) (hw : (s.pins.apply c).wr = s.pins.wr ∨ (s.pins.apply c).wr = .asserted)
    (hc : (s.pins.apply c).cs = .asserted ∨ r.pending = none) : readTrace (s.busStep c).trace = r :=
  (State.reading_step s c r hh hr hc).trans (BusReading.next_quiet _ _ _ hw hc)

/-- A bus step that ends a write strobe with CS asserted is read. -/
theorem State.reading_strobe (s : State) (c : PinChange) (r : BusReading) (hh : s.trace.head? = some s.pins)
    (hr : readTrace s.trace = r) (hc : (s.pins.apply c).cs = .asserted) :
    readTrace (s.busStep c).trace = r.next s.pins (s.pins.apply c) :=
  State.reading_step s c r hh hr (.inl hc)

/-- `BusSel(i)` on a settled bus adds its record (40_bus_protocol.md R120). -/
theorem State.runItem_sel_reading (s : State) (i : Byte) (hs : s.Settled) :
    readTrace (s.runItem (.sel i)).trace = { pending := none, trans := (readTrace s.trace).trans ++ [.sel i] } := by
  obtain ⟨hh, hw, hp⟩ := hs
  have h1 := State.reading_quiet s { d := some i } _ hh rfl (.inl rfl) (.inr hp)
  have h2 := State.reading_quiet _ { rs := some .index, cs := some .asserted } _ (State.busStep_head _ _) h1
    (.inl rfl) (.inl rfl)
  have h3 := State.reading_quiet _ { wr := some .asserted } _ (State.busStep_head _ _) h2 (.inr rfl) (.inl rfl)
  have h4 := State.reading_strobe _ { wr := some .deasserted } _ (State.busStep_head _ _) h3 rfl
  exact h4.trans (BusReading.next_index _ _ _ rfl rfl rfl rfl)

/-- `BusData(h, l)` on a settled bus adds its record (40_bus_protocol.md R120). -/
theorem State.runItem_data_reading (s : State) (h l : Byte) (hs : s.Settled) :
    readTrace (s.runItem (.data h l)).trace =
      { pending := none, trans := (readTrace s.trace).trans ++ [.data h l] } := by
  obtain ⟨hh, hw, hp⟩ := hs
  have h1 := State.reading_quiet s { rs := some .data, cs := some .asserted } _ hh rfl (.inl rfl) (.inl rfl)
  have h2 := State.reading_quiet _ { d := some h } _ (State.busStep_head _ _) h1 (.inl rfl) (.inl rfl)
  have h3 := State.reading_quiet _ { wr := some .asserted } _ (State.busStep_head _ _) h2 (.inr rfl) (.inl rfl)
  have h4 := (State.reading_strobe _ { wr := some .deasserted } _ (State.busStep_head _ _) h3 rfl).trans
    (BusReading.next_high _ _ _ rfl rfl rfl rfl hp)
  have h5 := State.reading_quiet _ { d := some l } _ (State.busStep_head _ _) h4 (.inl rfl) (.inl rfl)
  have h6 := State.reading_quiet _ { wr := some .asserted } _ (State.busStep_head _ _) h5 (.inr rfl) (.inl rfl)
  have h7 := (State.reading_strobe _ { wr := some .deasserted } _ (State.busStep_head _ _) h6 rfl).trans
    (BusReading.next_low _ _ _ h rfl rfl rfl rfl rfl)
  exact State.reading_quiet _ { cs := some .deasserted } _ (State.busStep_head _ _) h7 (.inl rfl) (.inr rfl)

/-- A step of RST or BL on a settled bus adds no record. -/
theorem State.busStep_line_reading (s : State) (c : PinChange) (hs : s.Settled)
    (hw : (s.pins.apply c).wr = s.pins.wr) : readTrace (s.busStep c).trace = readTrace s.trace :=
  State.reading_quiet s c _ hs.traceEnds rfl (.inl hw) (.inr hs.noPending)

/-- What an item adds to the transaction trace of a settled bus, which is settled again after it. -/
theorem State.runItem_settled (s : State) (t : Item) (hs : s.Settled) :
    (s.runItem t).Settled ∧ (s.runItem t).transactions = s.transactions ++ itemTrans t := by
  cases t with
  | sel i =>
    have h := State.runItem_sel_reading s i hs
    exact ⟨⟨State.busStep_head _ _, rfl, by rw [h]⟩, by rw [State.transactions, h]; rfl⟩
  | data h l =>
    have hr := State.runItem_data_reading s h l hs
    exact ⟨⟨State.busStep_head _ _, rfl, by rw [hr]⟩, by rw [State.transactions, hr]; rfl⟩
  | reg i v =>
    have h1 := State.runItem_sel_reading s i hs
    have s1 : (s.runItem (.sel i)).Settled := ⟨State.busStep_head _ _, rfl, by rw [h1]⟩
    have h2 := State.runItem_data_reading _ (hiByte v) (loByte v) s1
    rw [State.runItem_reg]
    refine ⟨⟨State.busStep_head _ _, rfl, by rw [h2]⟩, ?_⟩
    rw [State.transactions, h2, h1]
    simp [State.transactions, itemTrans]
  | rst a =>
    have h := State.busStep_line_reading s { rst := some a } hs rfl
    refine ⟨⟨State.busStep_head _ _, hs.wrOff, ?_⟩, ?_⟩
    · exact (congrArg BusReading.pending h).trans hs.noPending
    · exact (congrArg BusReading.trans h).trans (by simp [itemTrans, State.transactions])
  | bl b =>
    have h := State.busStep_line_reading s { bl := some b } hs rfl
    refine ⟨⟨State.busStep_head _ _, hs.wrOff, ?_⟩, ?_⟩
    · exact (congrArg BusReading.pending h).trans hs.noPending
    · exact (congrArg BusReading.trans h).trans (by simp [itemTrans, State.transactions])
  | delay n => exact ⟨hs, by simp [State.runItem, itemMicros, State.micro, itemTrans]⟩

/-- What a list of items adds to the transaction trace of a settled bus. -/
theorem State.runItems_settled (s : State) (ts : List Item) (hs : s.Settled) :
    (s.runItems ts).Settled ∧ (s.runItems ts).transactions = s.transactions ++ itemsTrans ts := by
  induction ts generalizing s with
  | nil => exact ⟨hs, by simp⟩
  | cons t ts ih =>
    obtain ⟨h1, h2⟩ := State.runItem_settled s t hs
    obtain ⟨h3, h4⟩ := ih _ h1
    exact ⟨h3, by rw [State.runItems_cons, h4, h2, itemsTrans_cons, List.append_assoc]⟩

/-- A settled bus stays settled through what only the end of a command or the error report changes. -/
theorem State.settled_congr {s t : State} (hp : t.pins = s.pins) (ht : t.trace = s.trace) (hs : s.Settled) :
    t.Settled := ⟨by rw [hp, ht]; exact hs.traceEnds, by rw [hp]; exact hs.wrOff, by rw [ht]; exact hs.noPending⟩

/-- What every sequencer action keeps. -/
theorem State.micro_keeps (s : State) (m : Micro) (hm : s.trace.IsChain (fun a b => a ≠ b))
    (hh : s.trace.head? = some s.pins) (hc : s.controller.StoresOk) :
    (s.micro m).trace.IsChain (fun a b => a ≠ b) ∧ (s.micro m).trace.head? = some (s.micro m).pins ∧
      (s.micro m).controller.StoresOk := by
  cases m with
  | step k c => exact ⟨pushTrace_merged _ _ hm, State.busStep_head s c, Controller.observe_storesOk _ _ _ _ hc⟩
  | wait n => exact ⟨hm, hh, hc⟩
  | color high px found =>
    exact ⟨pushTrace_merged _ _ hm, State.busStep_head s _, Controller.observe_storesOk _ _ _ _ hc⟩

/-- What every list of sequencer actions keeps. -/
theorem State.micros_keep (s : State) (ms : List Micro) (hm : s.trace.IsChain (fun a b => a ≠ b))
    (hh : s.trace.head? = some s.pins) (hc : s.controller.StoresOk) :
    (ms.foldl State.micro s).trace.IsChain (fun a b => a ≠ b) ∧
      (ms.foldl State.micro s).trace.head? = some (ms.foldl State.micro s).pins ∧
      (ms.foldl State.micro s).controller.StoresOk := by
  induction ms generalizing s with
  | nil => exact ⟨hm, hh, hc⟩
  | cons m ms ih =>
    obtain ⟨h1, h2, h3⟩ := State.micro_keeps s m hm hh hc
    exact ih _ h1 h2 h3

/-! ### What does not depend on the data byte -/

/-- No byte pair is unfinished where CS is deasserted. -/
theorem readTrace_pending_of_deasserted (n : Pins) (tr : List Pins) (hn : tr.head? = some n)
    (hc : n.cs = .deasserted) : (readTrace tr).pending = none := by
  cases tr with
  | nil => rfl
  | cons o rest =>
    obtain rfl : o = n := by simpa using hn
    cases rest with
    | nil => rfl
    | cons q rest => simp [readTrace, BusReading.next, hc]

/-- Any bus step's effect on the reading of the trace. -/
theorem State.readTrace_busStep_any (s : State) (c : PinChange) (hh : s.trace.head? = some s.pins) :
    readTrace (s.busStep c).trace = (readTrace s.trace).next s.pins (s.pins.apply c) := by
  cases hp : s.pins.cs with
  | deasserted => exact State.readTrace_busStep s c hh (.inr (readTrace_pending_of_deasserted _ _ hh hp))
  | asserted =>
    cases hn : (s.pins.apply c).cs with
    | asserted => exact State.readTrace_busStep s c hh (.inl hn)
    | deasserted =>
      have hne : s.pins.apply c ≠ s.pins := fun h => by simp [h, hp] at hn
      cases ht : s.trace with
      | nil => simp [ht] at hh
      | cons o rest =>
        obtain rfl : o = s.pins := by simpa [ht] using hh
        show readTrace (pushTrace (s.pins.apply c) s.trace) = _
        rw [ht, pushTrace, if_neg hne]
        rfl

/-- Two states alike in the pins but for D, and in whether a byte pair is unfinished. -/
structure State.SameLines (s t : State) : Prop where
  pins : t.pins = { s.pins with d := t.pins.d }
  traceEnds : s.trace.head? = some s.pins ∧ t.trace.head? = some t.pins
  pending : (readTrace t.trace).pending.isSome = (readTrace s.trace).pending.isSome

/-- Whether a byte pair is unfinished after one more pin vector does not depend on D. -/
theorem BusReading.next_isSome (r q : BusReading) (o n o' n' : Pins) (hr : q.pending.isSome = r.pending.isSome)
    (ho : o'.wr = o.wr) (hc : n'.cs = n.cs) (hw : n'.wr = n.wr) (hs : n'.rs = n.rs) :
    (q.next o' n').pending.isSome = (r.next o n).pending.isSome := by
  unfold BusReading.next
  rw [ho, hc, hw, hs]
  split
  · rfl
  · split
    · cases n.rs <;> cases hq : q.pending <;> cases hr' : r.pending <;> simp_all
    · exact hr

/-- Bus steps that change the same lines, D apart, keep two such states alike. -/
theorem State.busStep_sameLines (s t : State) (c : PinChange) (v w : Option Byte) (h : s.SameLines t) :
    (s.busStep { c with d := v }).SameLines (t.busStep { c with d := w }) where
  pins := by
    simp only [State.busStep_pins]
    rw [h.pins]
    rfl
  traceEnds := ⟨State.busStep_head _ _, State.busStep_head _ _⟩
  pending := by
    rw [State.readTrace_busStep_any _ _ h.traceEnds.1, State.readTrace_busStep_any _ _ h.traceEnds.2]
    refine BusReading.next_isSome _ _ _ _ _ _ h.pending ?_ ?_ ?_ ?_ <;> rw [h.pins] <;> rfl

/-- The same actions keep two such states alike. -/
theorem State.micros_sameLines (ms : List Micro) (s t : State) (h : s.SameLines t) :
    (ms.foldl State.micro s).SameLines (ms.foldl State.micro t) := by
  induction ms generalizing s t with
  | nil => exact h
  | cons m ms ih =>
    refine ih _ _ ?_
    cases m with
    | step k c => exact State.busStep_sameLines s t c c.d c.d h
    | wait n => exact h
    | color high px found => exact State.busStep_sameLines s t {} _ _ h

/-- Of two such states both are settled or neither. -/
theorem State.SameLines.settled {s t : State} (h : s.SameLines t) (hs : s.Settled) : t.Settled where
  traceEnds := h.traceEnds.2
  wrOff := by
    rw [h.pins]
    exact hs.wrOff
  noPending := by
    have := h.pending
    rw [hs.noPending] at this
    simpa using this

end Sys2Proof.Machine
end

