-- ==== Sys2Proof/Laws/Exec.lean ====
section
/-! SUPPORT. What exec can do: it performs the command's plan, and a plan is either rejected with no effect on the bus or
run in full (60_exceptions.md R216). -/

namespace Sys2Proof.Machine

/-- A command as one transition performs its plan. -/
theorem exec_eq_perform (i : Instr) (s : State) :
    exec i s = .next (s.perform (planOf i s.params s.scrollOffset)) := by
  cases i <;> rfl

/-- A rejected plan changes nothing but the error report and the phase (60_exceptions.md R214). -/
theorem State.perform_reject (s : State) (code : ErrCode) : s.RejectedAs (s.perform (.reject code)) code :=
  ⟨rfl, rfl, rfl, rfl, rfl, rfl, rfl, rfl, rfl, rfl, rfl⟩

/-- An accepted plan: the command starts, the operations' items run with the memory as it is, and it is complete. -/
theorem State.perform_run (s : State) (kind : CommandKind) (scroll : Byte) (ops : List Op) :
    s.perform (.run kind scroll ops) =
      ((s.start kind scroll).runItems (opsItems s.params s.assetByte ops)).complete kind := by
  show (State.runOps _ ops).complete kind = _
  rw [State.runOps_eq]
  rfl

/-- The controller after a plain command is where the items lead it. -/
theorem State.perform_run_controller_plain (s : State) (scroll : Byte) (ops : List Op) :
    (s.perform (.run .plain scroll ops)).controller =
      ((s.start .plain scroll).runItems (opsItems s.params s.assetByte ops)).controller := by
  rw [State.perform_run]
  rfl

/-- After INIT the controller after a drawing command is where the items lead it (70_reset_and_hazards.md R243). -/
theorem State.perform_run_controller_drawing (s : State) (scroll : Byte) (ops : List Op)
    (h : s.controller.initialized = true) :
    (s.perform (.run .drawing scroll ops)).controller =
      ((s.start .drawing scroll).runItems (opsItems s.params s.assetByte ops)).controller := by
  rw [State.perform_run, State.complete_controller, Controller.endCommand_drawing]
  simpa using h

/-- The frame of an accepted plan: IDLE, the scroll offset as planned, everything the bus does not reach as before. -/
theorem State.perform_run_frame (s : State) (kind : CommandKind) (scroll : Byte) (ops : List Op) :
    s.SameReport (s.perform (.run kind scroll ops)) ∧ (s.perform (.run kind scroll ops)).phase = .idle ∧
      (s.perform (.run kind scroll ops)).seq = .none ∧ (s.perform (.run kind scroll ops)).olds = [] ∧
      (s.perform (.run kind scroll ops)).scrollOffset = scroll := by
  rw [State.perform_run]
  exact ⟨⟨by simp, by simp, by simp, by simp, by simp, by simp⟩, by simp, by simp, by simp, by simp⟩

/-- A command leaves the captured word as it is (log 16). -/
@[simp] theorem State.perform_cmd (s : State) (p : Plan) : (s.perform p).cmd = s.cmd := by
  cases p with
  | reject code => rfl
  | run kind scroll ops => simp [State.perform_run]

/-- What an observer reads of an accepted plan on a settled bus. -/
theorem State.perform_run_settled (s : State) (kind : CommandKind) (scroll : Byte) (ops : List Op) (hs : s.Settled) :
    (s.perform (.run kind scroll ops)).Settled ∧
      (s.perform (.run kind scroll ops)).transactions =
        s.transactions ++ itemsTrans (opsItems s.params s.assetByte ops) := by
  rw [State.perform_run]
  have hs' : (s.start kind scroll).Settled := State.settled_congr (s := s) rfl rfl hs
  obtain ⟨h1, h2⟩ := State.runItems_settled _ (opsItems s.params s.assetByte ops) hs'
  exact ⟨State.settled_congr (s := State.runItems _ _) rfl rfl h1, h2⟩

end Sys2Proof.Machine
end

