-- ==== Sys2Proof/Laws/PerInstr.lean ====
section
/-! SUPPORT. What holds of every command as syntax: its encoding has its opcode and no reserved bit
(30_encoding.md R84, R86, R88), one lemma per constructor. -/

namespace Sys2Proof.Laws

/-! ### Packing slot by slot -/

/-- A word from its slots with the two reserved slots given too (R81). -/
def packAll (s : Slots) (r1 : BitVec 2) (r2 : Byte) : CmdWord :=
  s.t3 ++ s.t2 ++ s.t1 ++ s.t0 ++ s.color ++ r2 ++ s.d ++ s.c ++ s.b ++ s.a ++ r1 ++
    BitVec.ofBool s.fh ++ BitVec.ofBool s.fv ++ s.op

/-- The slots of one word masked by those of another. -/
def andSlots (s m : Slots) : Slots where
  op := s.op &&& m.op
  fv := s.fv && m.fv
  fh := s.fh && m.fh
  a := s.a &&& m.a
  b := s.b &&& m.b
  c := s.c &&& m.c
  d := s.d &&& m.d
  color := s.color &&& m.color
  t0 := s.t0 &&& m.t0
  t1 := s.t1 &&& m.t1
  t2 := s.t2 &&& m.t2
  t3 := s.t3 &&& m.t3

theorem packAll_and (s m : Slots) (r1 q1 : BitVec 2) (r2 q2 : Byte) :
    packAll s r1 r2 &&& packAll m q1 q2 = packAll (andSlots s m) (r1 &&& q1) (r2 &&& q2) := by
  unfold packAll andSlots
  iterate 13 refine BitVec.and_append.trans (congrArg₂ (· ++ ·) ?_ (by simp))
  rfl

theorem encode_eq (i : Instr) : encode i = packAll (slotsOf i) 0#2 0#8 := rfl

/-- The opcode a command is encoded with (R83). -/
def opcodeOf : Instr → Nat
  | .selectReg _ => 0x0
  | .writeData _ _ => 0x1
  | .setWindow _ _ _ _ => 0x2
  | .setCursor _ _ => 0x3
  | .drawPixel _ _ _ => 0x4
  | .drawHline _ _ _ _ => 0x5
  | .drawRect _ _ _ _ _ => 0x6
  | .clearScreen => 0x7
  | .drawTile _ _ _ _ _ _ _ => 0x8
  | .drawComposite _ _ _ _ _ _ _ _ => 0x9
  | .scrollFwd => 0xA
  | .scrollBwd => 0xB
  | .init => 0xC

/-- The mask of a command (R84). -/
def maskOf : Instr → CmdWord
  | .selectReg _ => maskSelectReg
  | .writeData _ _ => maskWriteData
  | .setWindow _ _ _ _ => maskSetWindow
  | .setCursor _ _ => maskSetCursor
  | .drawPixel _ _ _ => maskDrawPixel
  | .drawHline _ _ _ _ => maskDrawHline
  | .drawRect _ _ _ _ _ => maskDrawRect
  | .clearScreen => maskClearScreen
  | .drawTile _ _ _ _ _ _ _ => maskDrawTile
  | .drawComposite _ _ _ _ _ _ _ _ => maskDrawComposite
  | .scrollFwd => maskScrollFwd
  | .scrollBwd => maskScrollBwd
  | .init => maskInit

/-- A word `s` masked by the slots `m` is the opcode alone when every slot `m` keeps is zero in `s`. -/
theorem packAll_and_eq (s m : Slots) (q1 : BitVec 2) (q2 : Byte)
    (h : andSlots s m = { op := s.op }) :
    packAll s 0#2 0#8 &&& packAll m q1 q2 = packAll { op := s.op } 0#2 0#8 := by
  rw [packAll_and, h]
  simp

/-- A mask that keeps every slot. -/
def allSlots : Slots where
  op := 0xF#4
  fv := true
  fh := true
  a := 0xFF#8
  b := 0xFF#8
  c := 0xFF#8
  d := 0xFF#8
  color := 0xFFFF#16
  t0 := 0xFFFF#16
  t1 := 0xFFFF#16
  t2 := 0xFFFF#16
  t3 := 0xFFFF#16

/-- `encode i & MASK = MATCH` (R84). -/
def EncodeLegal.Statement (i : Instr) : Prop := encode i &&& maskOf i = BitVec.ofNat 128 (opcodeOf i)

theorem EncodeLegal.selectReg (idx : Byte) :
    EncodeLegal.Statement (.selectReg idx) := by
  have hm : maskSelectReg = packAll { allSlots with a := 0#8 } 3#2 0xFF#8 := by decide
  show encode _ &&& maskSelectReg = _
  rw [hm, encode_eq, packAll_and_eq _ _ _ _ (by simp [andSlots, slotsOf, allSlots])]
  show packAll { op := 0x0#4 } 0#2 0#8 = 0x0#128
  decide

theorem EncodeLegal.writeData (high low : Byte) :
    EncodeLegal.Statement (.writeData high low) := by
  have hm : maskWriteData = packAll { allSlots with a := 0#8, b := 0#8 } 3#2 0xFF#8 := by decide
  show encode _ &&& maskWriteData = _
  rw [hm, encode_eq, packAll_and_eq _ _ _ _ (by simp [andSlots, slotsOf, allSlots])]
  show packAll { op := 0x1#4 } 0#2 0#8 = 0x1#128
  decide

theorem EncodeLegal.setWindow (x0 y0 x1 y1 : Byte) :
    EncodeLegal.Statement (.setWindow x0 y0 x1 y1) := by
  have hm : maskSetWindow = packAll { allSlots with a := 0#8, b := 0#8, c := 0#8, d := 0#8 } 3#2 0xFF#8 := by decide
  show encode _ &&& maskSetWindow = _
  rw [hm, encode_eq, packAll_and_eq _ _ _ _ (by simp [andSlots, slotsOf, allSlots])]
  show packAll { op := 0x2#4 } 0#2 0#8 = 0x2#128
  decide

theorem EncodeLegal.setCursor (x y : Byte) :
    EncodeLegal.Statement (.setCursor x y) := by
  have hm : maskSetCursor = packAll { allSlots with a := 0#8, b := 0#8 } 3#2 0xFF#8 := by decide
  show encode _ &&& maskSetCursor = _
  rw [hm, encode_eq, packAll_and_eq _ _ _ _ (by simp [andSlots, slotsOf, allSlots])]
  show packAll { op := 0x3#4 } 0#2 0#8 = 0x3#128
  decide

theorem EncodeLegal.drawPixel (x y : Byte) (color : Half) :
    EncodeLegal.Statement (.drawPixel x y color) := by
  have hm : maskDrawPixel = packAll { allSlots with a := 0#8, b := 0#8, color := 0#16 } 3#2 0xFF#8 := by decide
  show encode _ &&& maskDrawPixel = _
  rw [hm, encode_eq, packAll_and_eq _ _ _ _ (by simp [andSlots, slotsOf, allSlots])]
  show packAll { op := 0x4#4 } 0#2 0#8 = 0x4#128
  decide

theorem EncodeLegal.drawHline (x y width : Byte) (color : Half) :
    EncodeLegal.Statement (.drawHline x y width color) := by
  have hm : maskDrawHline = packAll
      { allSlots with a := 0#8, b := 0#8, c := 0#8, color := 0#16 }
      3#2 0xFF#8 := by decide
  show encode _ &&& maskDrawHline = _
  rw [hm, encode_eq, packAll_and_eq _ _ _ _ (by simp [andSlots, slotsOf, allSlots])]
  show packAll { op := 0x5#4 } 0#2 0#8 = 0x5#128
  decide

theorem EncodeLegal.drawRect (x y width height : Byte) (color : Half) :
    EncodeLegal.Statement (.drawRect x y width height color) := by
  have hm : maskDrawRect = packAll
      { allSlots with a := 0#8, b := 0#8, c := 0#8, d := 0#8, color := 0#16 }
      3#2 0xFF#8 := by decide
  show encode _ &&& maskDrawRect = _
  rw [hm, encode_eq, packAll_and_eq _ _ _ _ (by simp [andSlots, slotsOf, allSlots])]
  show packAll { op := 0x6#4 } 0#2 0#8 = 0x6#128
  decide

theorem EncodeLegal.clearScreen :
    EncodeLegal.Statement .clearScreen := by
  have hm : maskClearScreen = packAll allSlots 3#2 0xFF#8 := by decide
  show encode _ &&& maskClearScreen = _
  rw [hm, encode_eq, packAll_and_eq _ _ _ _ (by simp [andSlots, slotsOf, allSlots])]
  show packAll { op := 0x7#4 } 0#2 0#8 = 0x7#128
  decide

theorem EncodeLegal.drawTile (x y scale pal : Byte) (addr : AssetAddr) (fv fh : Bool) :
    EncodeLegal.Statement (.drawTile x y scale pal addr fv fh) := by
  have hm : maskDrawTile = packAll
      { allSlots with fv := false, fh := false, a := 0#8, b := 0#8, c := 0#8, d := 0#8, t0 := 0#16 }
      3#2 0xFF#8 := by decide
  show encode _ &&& maskDrawTile = _
  rw [hm, encode_eq, packAll_and_eq _ _ _ _ (by simp [andSlots, slotsOf, allSlots])]
  show packAll { op := 0x8#4 } 0#2 0#8 = 0x8#128
  decide

theorem EncodeLegal.drawComposite (x y scale pal : Byte) (tl tr bl br : AssetAddr) :
    EncodeLegal.Statement (.drawComposite x y scale pal tl tr bl br) := by
  have hm : maskDrawComposite = packAll
      { allSlots with a := 0#8, b := 0#8, c := 0#8, d := 0#8, t0 := 0#16, t1 := 0#16, t2 := 0#16, t3 := 0#16 }
      3#2 0xFF#8 := by decide
  show encode _ &&& maskDrawComposite = _
  rw [hm, encode_eq, packAll_and_eq _ _ _ _ (by simp [andSlots, slotsOf, allSlots])]
  show packAll { op := 0x9#4 } 0#2 0#8 = 0x9#128
  decide

theorem EncodeLegal.scrollFwd :
    EncodeLegal.Statement .scrollFwd := by
  have hm : maskScrollFwd = packAll allSlots 3#2 0xFF#8 := by decide
  show encode _ &&& maskScrollFwd = _
  rw [hm, encode_eq, packAll_and_eq _ _ _ _ (by simp [andSlots, slotsOf, allSlots])]
  show packAll { op := 0xA#4 } 0#2 0#8 = 0xA#128
  decide

theorem EncodeLegal.scrollBwd :
    EncodeLegal.Statement .scrollBwd := by
  have hm : maskScrollBwd = packAll allSlots 3#2 0xFF#8 := by decide
  show encode _ &&& maskScrollBwd = _
  rw [hm, encode_eq, packAll_and_eq _ _ _ _ (by simp [andSlots, slotsOf, allSlots])]
  show packAll { op := 0xB#4 } 0#2 0#8 = 0xB#128
  decide

theorem EncodeLegal.init :
    EncodeLegal.Statement .init := by
  have hm : maskInit = packAll allSlots 3#2 0xFF#8 := by decide
  show encode _ &&& maskInit = _
  rw [hm, encode_eq, packAll_and_eq _ _ _ _ (by simp [andSlots, slotsOf, allSlots])]
  show packAll { op := 0xC#4 } 0#2 0#8 = 0xC#128
  decide

end Sys2Proof.Laws
end

