-- ==== Sys2Proof/Laws/Registers.lean ====
section
/-! SUPPORT. A register write of the reference controller, register by register, where the eight indices are distinct
(20_memory.md R67, 00_scope.md R7). -/

namespace Sys2Proof.Machine

theorem Controller.regWrite_hsa (p : Params) (v : Half) (c : Controller) :
    c.regWrite p p.regHsa v = { c with hsa := v } := by
  simp [Controller.regWrite]

theorem Controller.regWrite_hea (p : Params) (h : RegsDistinct p) (v : Half) (c : Controller) :
    c.regWrite p p.regHea v = { c with hea := v } := by
  simp only [RegsDistinct, List.nodup_cons, List.mem_cons, not_or] at h
  have h1 : ¬p.regHea = p.regHsa := fun e => h.1.1 e.symm
  simp [Controller.regWrite, h1]

theorem Controller.regWrite_vsa (p : Params) (h : RegsDistinct p) (v : Half) (c : Controller) :
    c.regWrite p p.regVsa v = { c with vsa := v } := by
  simp only [RegsDistinct, List.nodup_cons, List.mem_cons, not_or] at h
  have h1 : ¬p.regVsa = p.regHsa := fun e => h.1.2.1 e.symm
  have h2 : ¬p.regVsa = p.regHea := fun e => h.2.1.1 e.symm
  simp [Controller.regWrite, h1, h2]

theorem Controller.regWrite_vea (p : Params) (h : RegsDistinct p) (v : Half) (c : Controller) :
    c.regWrite p p.regVea v = { c with vea := v } := by
  simp only [RegsDistinct, List.nodup_cons, List.mem_cons, not_or] at h
  have h1 : ¬p.regVea = p.regHsa := fun e => h.1.2.2.1 e.symm
  have h2 : ¬p.regVea = p.regHea := fun e => h.2.1.2.1 e.symm
  have h3 : ¬p.regVea = p.regVsa := fun e => h.2.2.1.1 e.symm
  simp [Controller.regWrite, h1, h2, h3]

theorem Controller.regWrite_curx (p : Params) (h : RegsDistinct p) (v : Half) (c : Controller) :
    c.regWrite p p.regCurx v = { c with acx := v } := by
  simp only [RegsDistinct, List.nodup_cons, List.mem_cons, not_or] at h
  have h1 : ¬p.regCurx = p.regHsa := fun e => h.1.2.2.2.1 e.symm
  have h2 : ¬p.regCurx = p.regHea := fun e => h.2.1.2.2.1 e.symm
  have h3 : ¬p.regCurx = p.regVsa := fun e => h.2.2.1.2.1 e.symm
  have h4 : ¬p.regCurx = p.regVea := fun e => h.2.2.2.1.1 e.symm
  simp [Controller.regWrite, h1, h2, h3, h4]

theorem Controller.regWrite_cury (p : Params) (h : RegsDistinct p) (v : Half) (c : Controller) :
    c.regWrite p p.regCury v = { c with acy := v } := by
  simp only [RegsDistinct, List.nodup_cons, List.mem_cons, not_or] at h
  have h1 : ¬p.regCury = p.regHsa := fun e => h.1.2.2.2.2.1 e.symm
  have h2 : ¬p.regCury = p.regHea := fun e => h.2.1.2.2.2.1 e.symm
  have h3 : ¬p.regCury = p.regVsa := fun e => h.2.2.1.2.2.1 e.symm
  have h4 : ¬p.regCury = p.regVea := fun e => h.2.2.2.1.2.1 e.symm
  have h5 : ¬p.regCury = p.regCurx := fun e => h.2.2.2.2.1.1 e.symm
  simp [Controller.regWrite, h1, h2, h3, h4, h5]

theorem Controller.regWrite_scroll (p : Params) (h : RegsDistinct p) (v : Half) (c : Controller) :
    c.regWrite p p.regScroll v = { c with scroll := v } := by
  simp only [RegsDistinct, List.nodup_cons, List.mem_cons, not_or] at h
  have h1 : ¬p.regScroll = p.regHsa := fun e => h.1.2.2.2.2.2.2.1 e.symm
  have h2 : ¬p.regScroll = p.regHea := fun e => h.2.1.2.2.2.2.2.1 e.symm
  have h3 : ¬p.regScroll = p.regVsa := fun e => h.2.2.1.2.2.2.2.1 e.symm
  have h4 : ¬p.regScroll = p.regVea := fun e => h.2.2.2.1.2.2.2.1 e.symm
  have h5 : ¬p.regScroll = p.regCurx := fun e => h.2.2.2.2.1.2.2.1 e.symm
  have h6 : ¬p.regScroll = p.regCury := fun e => h.2.2.2.2.2.1.2.1 e.symm
  simp [Controller.regWrite, h1, h2, h3, h4, h5, h6]

theorem Controller.regWrite_gram (p : Params) (h : RegsDistinct p) (v : Half) (c : Controller) :
    c.regWrite p p.regGram v = c.writeGram v := by
  simp only [RegsDistinct, List.nodup_cons, List.mem_cons, not_or] at h
  have h1 : ¬p.regGram = p.regHsa := fun e => h.1.2.2.2.2.2.1 e.symm
  have h2 : ¬p.regGram = p.regHea := fun e => h.2.1.2.2.2.2.1 e.symm
  have h3 : ¬p.regGram = p.regVsa := fun e => h.2.2.1.2.2.2.1 e.symm
  have h4 : ¬p.regGram = p.regVea := fun e => h.2.2.2.1.2.2.1 e.symm
  have h5 : ¬p.regGram = p.regCurx := fun e => h.2.2.2.2.1.2.1 e.symm
  have h6 : ¬p.regGram = p.regCury := fun e => h.2.2.2.2.2.1.1 e.symm
  have h7 : ¬p.regGram = p.regScroll := fun e => h.2.2.2.2.2.2.1.1 e
  simp [Controller.regWrite, h1, h2, h3, h4, h5, h6, h7]

end Sys2Proof.Machine
end

