-- ==== Sys2Proof/Laws/Sequencer.lean ====
section
/-! SUPPORT. The laws of the block at clock edges: what one edge of a command never changes, how steps and operations
follow one another, and that an IDLE block rests. -/

namespace Sys2Proof.Machine

/-- What a bus step makes of pins and trace depends on pins and trace alone. -/
theorem State.busStep_congr (c : PinChange) (a b : State) (hp : a.pins = b.pins) (ht : a.trace = b.trace) :
    (a.busStep c).pins = (b.busStep c).pins ∧ (a.busStep c).trace = (b.busStep c).trace := by
  simp [hp, ht]

/-- The same of the sequencer's actions. -/
theorem State.micros_congr (ms : List Micro) (a b : State) (hp : a.pins = b.pins) (ht : a.trace = b.trace) :
    (ms.foldl State.micro a).pins = (ms.foldl State.micro b).pins ∧
      (ms.foldl State.micro a).trace = (ms.foldl State.micro b).trace := by
  induction ms generalizing a b with
  | nil => exact ⟨hp, ht⟩
  | cons m ms ih =>
    cases m with
    | step k c => exact ih _ _ (State.busStep_congr c a b hp ht).1 (State.busStep_congr c a b hp ht).2
    | wait n => exact ih _ _ hp ht
    | color high px found => exact ih _ _ (State.busStep_congr _ a b hp ht).1 (State.busStep_congr _ a b hp ht).2

/-- The actions of a list of items, one after another, are the items. -/
theorem State.micros_items (s : State) (ts : List Item) :
    (ts.flatMap itemMicros).foldl State.micro s = s.runItems ts := by
  induction ts generalizing s with
  | nil => rfl
  | cons t ts ih =>
    simp only [List.flatMap_cons, List.foldl_append]
    exact ih _

/-- The actions of an operation, one after another, are its items. -/
theorem State.micros_op (s : State) (o : Op) (p : Params) (rd : Nat → Byte) :
    (o.micros p rd).foldl State.micro s = s.runItems (o.items p rd) := by
  cases o with
  | item t => rfl
  | pixel px =>
    show (pixelMicros p rd px).foldl State.micro s = s.runItems (pixelItems p rd px)
    unfold pixelMicros pixelItems
    split
    · exact State.micros_items s _
    · rfl

/-- No host write since acceptance: an operation's bytes are read from the memory as it is. -/
theorem State.opMicros_quiet (s : State) (o : Op) (h : s.olds = []) : s.opMicros o = o.micros s.params s.assetByte := by
  simp [State.opMicros, State.busyRead, h]

/-- No host write since acceptance: a colour found stays. -/
theorem State.reread_quiet (s : State) (m : Micro) (h : s.olds = []) : s.reread m = m := by
  cases m <;> simp [State.reread, h]

/-- No host write since acceptance: no free choice is drawn. -/
theorem State.countRace_quiet (s : State) (b : Bool) (h : s.olds = []) : s.countRace b = s := by
  cases s
  simp_all [State.countRace]

/-- Every contested read gives one of the byte's values since acceptance (20_memory.md R54). -/
theorem State.racedByte_mem (s : State) (a : Nat) : s.racedByte a ∈ s.byteValues a := by
  have hl : 0 < (s.byteValues a).length := by simp [State.byteValues]
  rw [State.racedByte, List.getD_eq_getElem?_getD, List.getElem?_eq_getElem (Nat.mod_lt _ hl)]
  exact List.getElem_mem _

/-- Every read of the running command gives one of the byte's values since acceptance (20_memory.md R54). -/
theorem State.busyRead_mem (s : State) (a : Nat) : s.busyRead a ∈ s.byteValues a := by
  cases h : s.olds with
  | nil => simp [State.busyRead, State.byteValues, h]
  | cons c cs => simpa only [State.busyRead, h] using State.racedByte_mem s a

/-- A read made anew changes what an action drives on D alone. -/
theorem State.reread_sameLines (s u : State) (m : Micro) (h : u.trace.head? = some u.pins) :
    (u.micro m).SameLines (u.micro (s.reread m)) := by
  have hu : u.SameLines u := ⟨rfl, ⟨h, h⟩, rfl⟩
  have hc : ∀ high px c d, (u.micro (.color high px c)).SameLines (u.micro (.color high px d)) := fun _ _ _ _ =>
    State.busStep_sameLines u u {} _ _ hu
  cases m with
  | step k c => exact State.micros_sameLines [.step k c] u u hu
  | wait n => exact hu
  | color high px found =>
    unfold State.reread
    dsimp only
    split
    · exact hc _ _ _ _
    · split <;> exact hc _ _ _ _

/-! ### What an edge of a command never changes -/

/-- An edge of a command leaves the word, the parameters, the asset memory and the inputs alone. -/
structure State.Kept (s t : State) : Prop where
  cmd : t.cmd = s.cmd
  params : t.params = s.params
  assets : t.assets = s.assets
  inputs : t.inputs = s.inputs

theorem State.countRace_kept (s : State) (b : Bool) : s.Kept (s.countRace b) := ⟨rfl, rfl, rfl, rfl⟩

theorem State.advance_kept (s : State) (kind : CommandKind) (ms : List Micro) (ops : List Op) :
    s.Kept (s.advance kind ms ops) := by
  have hm : ∀ b m, s.Kept ((s.countRace b).micro m) := fun b m =>
    ⟨State.micro_cmd _ _, State.micro_params _ _, State.micro_assets _ _, State.micro_inputs _ _⟩
  unfold State.advance
  split
  · next m ms =>
    obtain ⟨h1, h2, h3, h4⟩ := hm m.reads (s.reread m)
    exact ⟨h1, h2, h3, h4⟩
  · split
    · exact ⟨rfl, rfl, rfl, rfl⟩
    · next o os =>
      split
      · exact ⟨rfl, rfl, rfl, rfl⟩
      · next m ms _ =>
        obtain ⟨h1, h2, h3, h4⟩ := hm o.reads m
        exact ⟨h1, h2, h3, h4⟩

theorem State.rejectAfter_kept (s : State) (code : ErrCode) (n : Nat) : s.Kept (s.rejectAfter code n) := by
  cases n <;> exact ⟨rfl, rfl, rfl, rfl⟩

theorem State.tick_kept (s : State) : s.Kept s.tick := by
  unfold State.tick
  split
  · exact ⟨rfl, rfl, rfl, rfl⟩
  · unfold State.begin
    split
    · exact State.rejectAfter_kept _ _ _
    · obtain ⟨h1, h2, h3, h4⟩ := State.advance_kept _ _ [] _
      exact ⟨h1, h2, h3, h4⟩
  · exact ⟨rfl, rfl, rfl, rfl⟩
  · exact State.rejectAfter_kept _ _ _
  · exact State.advance_kept _ _ _ _
  · exact ⟨rfl, rfl, rfl, rfl⟩

/-! ### Edges without a host input -/

theorem State.noInput_busy (s : State) (h : s.phase = .busy) : s.noInput = s.tick := by
  simp [State.noInput, State.edge, h]

/-- An IDLE block rests. -/
theorem State.noInput_idle (s : State) (h : s.phase = .idle) : s.noInput = s := by
  simp [State.noInput, State.edge, h]

theorem State.edges_idle (n : Nat) (s : State) (h : s.phase = .idle) : State.edges n s = s := by
  induction n with
  | zero => rfl
  | succ n ih => rw [State.edges, State.noInput_idle s h, ih]

theorem State.edges_add (m n : Nat) (s : State) : State.edges (m + n) s = State.edges n (State.edges m s) := by
  induction m generalizing s with
  | zero => simp [State.edges]
  | succ m ih =>
    rw [Nat.succ_add]
    exact ih _

end Sys2Proof.Machine
end

