-- ==== Sys2Proof/Tests/Slice0.lean ====
section
/-! SUPPORT. Small tests of the model, each expected value from the vectors and examples of spec/, and for each statement
with hypotheses a state and operands that meet them. -/

namespace Sys2Proof.Tests

open Sys2Proof Sys2Proof.Machine

/-! ### The bench: the test configuration of 95_test_vectors.md section 1 -/

def palette0 : Vector Half 8 := #v[0x0000#16, 0xF800#16, 0x07E0#16, 0x001F#16, 0xFFE0#16, 0xF81F#16, 0x07FF#16, 0xFFFF#16]
def palette1 : Vector Half 8 := #v[0x1111#16, 0x2222#16, 0x3333#16, 0x4444#16, 0x5555#16, 0x6666#16, 0x7777#16, 0x0000#16]

def benchParams : Params where
  regHsa := 0xA0#8
  regHea := 0xA1#8
  regVsa := 0xA2#8
  regVea := 0xA3#8
  regCurx := 0xA4#8
  regCury := 0xA5#8
  regGram := 0xA6#8
  regScroll := 0xA7#8
  numPalettesLess1 := 1
  palettes := (Vector.replicate 256 palette1).set 0 palette0
  assetBytesLess24 := 232
  unpackOrder := .msbFirst
  initSeq := [.rst .asserted, .delay 9, .rst .deasserted, .reg 0x07#8 0x1017#16, .bl .on]
  stepCyclesLess1 := Vector.replicate 14 1
  decodeExtra := 0
  rejectExtra := 1
  polRs := .activeLow
  polCs := .activeLow
  polWr := .activeLow
  polRst := .activeLow
  polBl := .activeHigh

/-- The tiles RAMP at 0, ONES at 24 and CLEAR at 72 (STRIPES at 48 is left 0 here). -/
def benchAssets : Memory 8 :=
  Memory.ofList 0 ((List.replicate 8 [0x05#8, 0x39#8, 0x77#8]).flatten ++ (List.replicate 8 [0x24#8, 0x92#8, 0x49#8]).flatten) ++
  Memory.ofList 72 (List.replicate 24 0xFF#8)

/-- The test configuration with the boot order done: the controller has been initialized (70_reset_and_hazards.md R243). -/
def bench : State :=
  { State.reset with
    params := benchParams, assets := benchAssets, controller := { Controller.start with initialized := true } }

/-- The state of an outcome. -/
def after (o : Host.Outcome State Fault Refusal) : State :=
  match o with
  | .next t => t
  | .fault _ => bench
  | .refused _ => bench

/-- One step with a word as the next input. -/
def ran (s : State) (w : CmdWord) : State := after (step { s with inputs := [.command w] })

/-- Whether an outcome is a next state. -/
def goesOn (o : Host.Outcome State Fault Refusal) : Bool :=
  match o with
  | .next _ => true
  | .fault _ => false
  | .refused _ => false

/-! ### Well-formedness: an ill-formed term for each check -/

theorem test_wf_window_x_order : (Instr.setWindow 11#8 20#8 10#8 20#8).wellFormed = false := by decide
theorem test_wf_window_y_order : (Instr.setWindow 10#8 21#8 10#8 20#8).wellFormed = false := by decide
theorem test_wf_window_panel : (Instr.setWindow 0#8 0#8 176#8 0#8).wellFormed = false := by decide
theorem test_wf_cursor_panel : (Instr.setCursor 0#8 220#8).wellFormed = false := by decide
theorem test_wf_pixel_panel : (Instr.drawPixel 176#8 0#8 0#16).wellFormed = false := by decide
theorem test_wf_hline_panel : (Instr.drawHline 100#8 0#8 76#8 0#16).wellFormed = false := by decide
theorem test_wf_rect_width : (Instr.drawRect 0#8 0#8 0#8 5#8 0#16).wellFormed = false := by decide
theorem test_wf_rect_height : (Instr.drawRect 0#8 0#8 5#8 0#8 0#16).wellFormed = false := by decide
theorem test_wf_rect_panel : (Instr.drawRect 170#8 0#8 7#8 1#8 0#16).wellFormed = false := by decide
theorem test_wf_tile_scale : (Instr.drawTile 0#8 0#8 0#8 0#8 0#16 false false).wellFormed = false := by decide
theorem test_wf_tile_panel : (Instr.drawTile 169#8 0#8 1#8 0#8 0#16 false false).wellFormed = false := by decide
theorem test_wf_composite_scale : (Instr.drawComposite 0#8 0#8 0#8 0#8 0#16 0#16 0#16 0#16).wellFormed = false := by decide
theorem test_wf_composite_panel : (Instr.drawComposite 0#8 0#8 12#8 0#8 0#16 0#16 0#16 0#16).wellFormed = false := by decide
theorem test_wf_accepts : (Instr.drawTile 168#8 212#8 1#8 255#8 0xFFFF#16 true true).wellFormed = true := by decide

/-! ### Decoding: words written out from the slots of R81 and the formats of R83 -/

theorem test_decode_select_reg : decode 0x00000000000000000000000000002200#128 = .legal (.selectReg 0x22#8) := by decide
theorem test_decode_write_data : decode 0x0000000000000000000000000000F801#128 = .legal (.writeData 0xF8#8 0x00#8) := by decide
theorem test_decode_set_window :
    decode 0x0000000000000000000000140B140A02#128 = .legal (.setWindow 10#8 20#8 11#8 20#8) := by decide
theorem test_decode_set_cursor : decode 0x00000000000000000000000000140A03#128 = .legal (.setCursor 10#8 20#8) := by decide
theorem test_decode_draw_pixel :
    decode 0x0000000000000000FFFF000000DBAF04#128 = .legal (.drawPixel 175#8 219#8 0xFFFF#16) := by decide
theorem test_decode_draw_hline :
    decode 0x0000000000000000001F000003000005#128 = .legal (.drawHline 0#8 0#8 3#8 0x001F#16) := by decide
theorem test_decode_draw_rect :
    decode 0x000000000000000007E0000202060506#128 = .legal (.drawRect 5#8 6#8 2#8 2#8 0x07E0#16) := by decide
theorem test_decode_clear_screen : decode 0x00000000000000000000000000000007#128 = .legal .clearScreen := by decide
theorem test_decode_draw_tile :
    decode 0x00000000000000300000000001140A18#128 = .legal (.drawTile 10#8 20#8 1#8 0#8 48#16 true false) := by decide
theorem test_decode_draw_tile_flip :
    decode 0x00000000000000000000000001000028#128 = .legal (.drawTile 0#8 0#8 1#8 0#8 0#16 false true) := by decide
theorem test_decode_draw_composite : decode 0x00480030001800000000000101201009#128 =
    .legal (.drawComposite 16#8 32#8 1#8 1#8 0#16 24#16 48#16 72#16) := by decide
theorem test_decode_scroll_fwd : decode 0x0000000000000000000000000000000A#128 = .legal .scrollFwd := by decide
theorem test_decode_scroll_bwd : decode 0x0000000000000000000000000000000B#128 = .legal .scrollBwd := by decide
theorem test_decode_init : decode 0x0000000000000000000000000000000C#128 = .legal .init := by decide
theorem test_decode_illegal : decode 0x0000000000000000000000000000000D#128 = .illegalOpcode := by decide
theorem test_decode_illegal_first : decode 0x0000000000000000000000000000004F#128 = .illegalOpcode := by decide
theorem test_decode_reserved : decode 0x00000000000000000000000000002240#128 = .reservedBits := by decide
theorem test_decode_unused_slot : decode 0x0000000000000000000000000001AB00#128 = .reservedBits := by decide
theorem test_decode_cls_operand : decode 0x00000000000000000000000000000107#128 = .reservedBits := by decide
theorem test_decode_composite_color : decode 0x0000000000000000000100000100A009#128 = .reservedBits := by decide
theorem test_encode_rect : encode (.drawRect 5#8 6#8 2#8 2#8 0x07E0#16) = 0x000000000000000007E0000202060506#128 := by decide
theorem test_encode_tile :
    encode (.drawTile 0#8 0#8 1#8 0#8 24#16 true true) = 0x00000000000000180000000001000038#128 := by decide
theorem test_table_word : decodeTableWord 128 0x2200 = some (.selectReg 0x22#8) := by decide

/-! ### The assembler (R88, R89) -/

theorem test_asm_text : parseLine "tile 1, 2, 3, 0, 0x18, fv ; a tile".toList =
    some (some (.tile 1 2 3 0 0x18 true false)) := by decide +kernel
theorem test_asm_words : assembleWords benchParams (.wreg 0x07 0x1017) =
    some [0x0700#128, 0x171001#128] := by decide +kernel
theorem test_asm_too_wide : assemble benchParams (.pix 256 0 0) = none := by decide
theorem test_asm_fits : AsmLine.fits (.pix 256 0 0) = false := by decide

/-! ### Commands: one step each from the bench -/

theorem test_select_reg_pins : (ran bench 0x2200#128).pinTrace.tail =
    [ { d := 0x22#8, rs := .data, cs := .deasserted, wr := .deasserted, rst := .deasserted, bl := .off },
      { d := 0x22#8, rs := .index, cs := .asserted, wr := .deasserted, rst := .deasserted, bl := .off },
      { d := 0x22#8, rs := .index, cs := .asserted, wr := .asserted, rst := .deasserted, bl := .off },
      { d := 0x22#8, rs := .index, cs := .asserted, wr := .deasserted, rst := .deasserted, bl := .off } ] := by
  decide +kernel

theorem test_write_data_merges : (ran bench 0x121201#128).pinTrace.length = 8 ∧
    (ran bench 0x121201#128).transactions = [.data 0x12#8 0x12#8] := by decide +kernel

theorem test_set_window_trace : (ran bench 0x140B140A02#128).transactions =
    [ .sel 0xA0#8, .data 0x00#8 0x0A#8, .sel 0xA1#8, .data 0x00#8 0x0B#8,
      .sel 0xA2#8, .data 0x00#8 0x14#8, .sel 0xA3#8, .data 0x00#8 0x14#8 ] := by decide +kernel

theorem test_set_window_order_first : (ran bench 0xE60A001402#128).errCode = 7#4 := by decide +kernel

theorem test_set_cursor_controller : (ran bench 0x140A03#128).controller.acx = 10#16 ∧
    (ran bench 0x140A03#128).controller.acy = 20#16 ∧ (ran bench 0x140A03#128).controller.ir = 0xA5#8 := by
  decide +kernel

theorem test_set_cursor_off_panel : (ran bench 0xB003#128).errCode = 8#4 := by decide +kernel

theorem test_draw_pixel_trace : (ran bench 0xFFFF000000DBAF04#128).transactions =
    [ .sel 0xA0#8, .data 0x00#8 0xAF#8, .sel 0xA1#8, .data 0x00#8 0xAF#8,
      .sel 0xA2#8, .data 0x00#8 0xDB#8, .sel 0xA3#8, .data 0x00#8 0xDB#8,
      .sel 0xA4#8, .data 0x00#8 0xAF#8, .sel 0xA5#8, .data 0x00#8 0xDB#8,
      .sel 0xA6#8, .data 0xFF#8 0xFF#8 ] := by decide +kernel

theorem test_draw_pixel_cell : (ran bench 0xFFFF000000DBAF04#128).cell 175 219 = 0xFFFF#16 ∧
    (ran bench 0xFFFF000000DBAF04#128).controller.acx = 175#16 := by decide +kernel

theorem test_draw_hline_counts : countSel (ran bench 0x001F000003000005#128).transactions = 7 ∧
    countData (ran bench 0x001F000003000005#128).transactions = 10 := by decide +kernel

theorem test_draw_hline_too_long : (ran bench 0x4C006405#128).errCode = 8#4 := by decide +kernel

theorem test_draw_rect_cells : (ran bench 0x07E0000202060506#128).cell 6 7 = 0x07E0#16 ∧
    (ran bench 0x07E0000202060506#128).cell 7 7 = 0x0000#16 ∧
    (ran bench 0x07E0000202060506#128).controller.acy = 6#16 := by decide +kernel

theorem test_draw_rect_zero_first : (ran bench 0xFA00000006#128).errCode = 4#4 := by decide +kernel

/-- CLEAR_SCREEN's plan, not its 38733 transactions. -/
theorem test_clear_screen_plan : planClearScreen benchParams 5#8 =
    .run .drawing 5#8 ((fillItems benchParams 0 0 175 219 0x0000#16 38720).map .item) := by
  simp [planClearScreen, panelW, panelH]

theorem test_clear_screen_reserved : (ran bench 0x107#128).errCode = 2#4 := by decide +kernel

/-- The first output row of V-T3, from the RAMP tile. -/
theorem test_draw_tile_row :
    itemsTrans (opsItems benchParams bench.assetByte (tileRow benchParams 0 0 1 0 0#8 false)) =
    [ .sel 0xA4#8, .data 0x00#8 0x00#8, .sel 0xA5#8, .data 0x00#8 0x00#8, .sel 0xA6#8,
      .data 0x00#8 0x00#8, .data 0xF8#8 0x00#8, .data 0x07#8 0xE0#8, .data 0x00#8 0x1F#8,
      .data 0xFF#8 0xE0#8, .data 0xF8#8 0x1F#8, .data 0x07#8 0xFF#8,
      .sel 0xA4#8, .data 0x00#8 0x08#8, .sel 0xA5#8, .data 0x00#8 0x00#8, .sel 0xA6#8 ] := by decide +kernel

theorem test_draw_tile_scale_first : (ran bench 0x00000000000000FA0000000900000008#128).errCode = 3#4 ∧
    (ran bench 0x00000000000000E90000000001000008#128).errCode = 6#4 := by decide +kernel

theorem test_draw_composite_checks_all : (ran bench 0x0000000000F000000000000001000009#128).errCode = 6#4 ∧
    (ran bench 0x0000000000F000000000000001000009#128).trace = bench.trace := by decide +kernel

/-- The first row cursor of the bottom left tile of `comp 16, 32, 1, 1, 0, 24, 48, 72` is on row 47 (V-C1). -/
theorem test_draw_composite_bottom_flipped :
    (compositeBody benchParams 16 32 1 1#8 0 24 48 72)[2 * (4 + 8 * 11) + 4]? =
      some (.item (.reg 0xA4#8 16#16)) ∧
    (compositeBody benchParams 16 32 1 1#8 0 24 48 72)[2 * (4 + 8 * 11) + 5]? =
      some (.item (.reg 0xA5#8 47#16)) := by decide +kernel

theorem test_scroll_fwd_wraps : (ran { bench with scrollOffset := 218#8 } 0xA#128).transactions =
    [.sel 0xA7#8, .data 0x00#8 0x00#8] ∧ (ran { bench with scrollOffset := 218#8 } 0xA#128).status = 0x0000#16 := by
  decide +kernel

theorem test_scroll_bwd_wraps : (ran bench 0xB#128).transactions = [.sel 0xA7#8, .data 0x00#8 0xDA#8] ∧
    (ran bench 0xB#128).status = 0xDA00#16 := by decide +kernel

theorem test_scroll_bwd_reserved : (ran { bench with scrollOffset := 5#8 } 0x10B#128).status = 0x0522#16 := by
  decide +kernel

theorem test_init_trace : (ran { bench with scrollOffset := 218#8 } 0xC#128).transactions =
    [.sel 0x07#8, .data 0x10#8 0x17#8] ∧ (ran { bench with scrollOffset := 218#8 } 0xC#128).status = 0x0000#16 ∧
    (ran bench 0xC#128).pins.bl = .on := by decide +kernel

theorem test_init_reset_line : ((ran bench 0xC#128).pinTrace.take 3).map (fun n => n.rst) =
    [.deasserted, .asserted, .deasserted] := by decide +kernel

/-- INIT initializes the controller; the list writes register 0x07 (V-I1), after which a drawing command keeps its
register selected. -/
theorem test_init_controller : (ran { bench with controller := Controller.start } 0xC#128).controller.initialized = true ∧
    Memory.read (ran bench 0xC#128).controller.regs 0x07 = 0x1017#16 := by decide +kernel

/-- A drawing command before INIT runs on the bus as ever (R243): V-P1's transactions are those of the other bench. -/
theorem test_draw_before_init :
    (ran { bench with controller := Controller.start } 0xFFFF000000DBAF04#128).transactions =
      (ran bench 0xFFFF000000DBAF04#128).transactions ∧
    (ran { bench with controller := Controller.start } 0xFFFF000000DBAF04#128).controller.initialized = false := by
  decide +kernel

/-! ### Unpacking (V-U1, V-U2, V-U4) -/

theorem test_unpack_msb : (List.range 8).map (unpack .msbFirst 0x05#8 0x39#8 0x77#8) =
    [0#3, 1#3, 2#3, 3#3, 4#3, 5#3, 6#3, 7#3] := by decide
theorem test_unpack_lsb : (List.range 8).map (unpack .lsbFirst 0x05#8 0x39#8 0x77#8) =
    [5#3, 0#3, 4#3, 4#3, 3#3, 6#3, 5#3, 3#3] := by decide
theorem test_unpack_flip : (List.range 8).map (fun q => decodeIndex .msbFirst 0x05#8 0x39#8 0x77#8 q true) =
    [7#3, 6#3, 5#3, 4#3, 3#3, 2#3, 1#3, 0#3] := by decide

/-! ### Clock edges -/

/-- A rejection completes at the edge of an `err_clr` pulse (V-E5). -/
theorem test_clear_then_record :
    (State.edge false true none { bench with
      phase := .busy, seq := .rejecting 0 .outOfPanel, err := true, errCode := 3#4 }).status = 0x0082#16 := by
  decide +kernel

/-- A word offered while BUSY is not captured (V-E6). -/
theorem test_busy_not_captured :
    (State.edge false false (some 0xB#128) (bench.accept 0x2200#128)).cmd = 0x2200#128 := by decide +kernel

/-- `sel 0x22` at clock edges with each step held two cycles: still BUSY after 8 edges, IDLE after 9. -/
theorem test_clock_run :
    (State.edges 8 (bench.accept 0x2200#128)).phase = .busy ∧
    State.edges 9 (bench.accept 0x2200#128) = ran bench 0x2200#128 := by decide +kernel

/-- Reset in mid-command (V-R2): the pins go at once to their reset values. -/
theorem test_reset_mid_command :
    ((State.edges 4 (bench.accept 0x2200#128)).edge true false none).pins = resetPins ∧
    ((State.edges 4 (bench.accept 0x2200#128)).edge true false none).status = 0x0000#16 := by decide +kernel

/-! ### Premises of the statements: a state and operands that meet them

Named after the statement; where its clauses differ, one witness a clause, at a boundary. -/

/-- The premises that many statements share. -/
theorem test_bench_settled : bench.Settled := ⟨rfl, rfl, rfl⟩
theorem test_bench_regs : RegsDistinct bench.params := by decide
theorem test_bench_gram : Memory.wf bench.controller.gram ∧ Memory.wf bench.controller.regs ∧ Memory.wf bench.assets := by
  decide +kernel

theorem test_premises_ResetAbortsCommand :
    ({ State.edges 4 (bench.accept 0x2200#128) with inputs := [.edge true true (some 0#128)] }).inputs =
      .edge true true (some 0#128) :: [] ∧ (State.edges 4 (bench.accept 0x2200#128)).pins.cs = .asserted := by
  decide +kernel

theorem test_premises_ClockEdge_ready : bench.cmdReady false = true := by decide
theorem test_premises_ClockEdge_not_ready : bench.cmdReady true = false ∧ (bench.accept 0#128).cmdReady false = false := by
  decide
theorem test_premises_ClockEdge_rejecting :
    let s : State := { bench with phase := .busy, seq := .rejecting 0 .badScale }
    s.phase = .busy ∧ s.seq = .rejecting 0 .badScale := ⟨rfl, rfl⟩

theorem test_premises_ErrorReport_set :
    let s : State := { bench with inputs := [.command 0xD#128] }
    goesOn (step s) = true ∧ s.err = false ∧ (after (step s)).err = true ∧ (after (step s)).errCode = 1#4 := by
  decide +kernel
theorem test_premises_ErrorReport_clear :
    let s : State := { bench with err := true, errCode := 3#4, inputs := [.edge false true none] }
    goesOn (step s) = true ∧ s.err = true ∧ (after (step s)).err = false := by decide +kernel
theorem test_premises_ErrorReport_completes :
    let s : State := { bench with phase := .busy, seq := .rejecting 0 .badScale, err := true, errCode := 3#4,
                                  inputs := [.edge false true none] }
    s.RejectsWith .badScale ∧ goesOn (step s) = true ∧ (after (step s)).phase = .idle :=
  ⟨⟨rfl, .inl ⟨0, rfl⟩⟩, rfl, rfl⟩
theorem test_premises_ErrorReport_not_yet :
    let s : State := { bench.accept 0xD#128 with inputs := [.edge false true none] }
    s.RejectsWith .illegalOpcode ∧ goesOn (step s) = true ∧ (after (step s)).phase = .busy :=
  ⟨⟨rfl, .inr ⟨⟨_, rfl⟩, by decide +kernel⟩⟩, by decide +kernel, by decide +kernel⟩
theorem test_premises_ErrorReport_none : ∀ code, ¬ bench.RejectsWith code := fun _ h => nomatch h.1
theorem test_premises_ErrorReport_reset :
    let s : State := { bench with err := true, errCode := 3#4, inputs := [.edge true false none] }
    goesOn (step s) = true ∧ s.err = true := by decide +kernel
theorem test_premises_ErrorReport_keep :
    let s : State := { bench with err := true, errCode := 3#4, inputs := [.command 0xD#128] }
    goesOn (step s) = true ∧ (after (step s)).errCode = 3#4 := by decide +kernel

theorem test_premises_LaterCommandsRunWithErr_rejected :
    let i := Instr.setWindow 20#8 0#8 10#8 230#8
    causes benchParams i = [.badWindow, .outOfPanel] ∧ goesOn (exec i bench) = true ∧ bench.err = false ∧
    ({ bench with err := true }).err = true := by decide +kernel
theorem test_premises_LaterCommandsRunWithErr_accepted :
    causes benchParams (.drawPixel 175#8 219#8 0#16) = [] ∧ goesOn (exec (.drawPixel 175#8 219#8 0#16) bench) = true := by
  decide +kernel

theorem test_premises_StepRunsDecodedCommand_idle :
    let s : State := { bench with inputs := [.command 0x2200#128] }
    s.inputs = .command 0x2200#128 :: [] ∧ s.phase = .idle ∧ decode 0x2200#128 = .legal (.selectReg 0x22#8) := by decide
theorem test_premises_StepRunsDecodedCommand_undecodable :
    decode 0xF#128 = .illegalOpcode ∧ decode 0x2240#128 = .reservedBits := by decide
theorem test_premises_StepRunsDecodedCommand_busy :
    let s : State := { bench.accept 0x2200#128 with inputs := [.command 0xB#128] }
    s.inputs = .command 0xB#128 :: [] ∧ s.phase = .busy := ⟨rfl, rfl⟩
theorem test_premises_StepRunsDecodedCommand_edge :
    ({ bench with inputs := [.edge false true (some 0xB#128)] }).inputs = .edge false true (some 0xB#128) :: [] := rfl
theorem test_premises_StepRunsDecodedCommand_no_input : bench.inputs = [] := rfl
theorem test_premises_StepRunsDecodedCommand_host_write :
    ({ bench with inputs := [.assetWrite 255#16 1#8] }).inputs = .assetWrite 255#16 1#8 :: [] ∧
    (255#16).toNat < assetBytes bench.params := ⟨rfl, by decide⟩
theorem test_premises_StepRunsDecodedCommand_table : decodeTableWord 128 0x2200 = some (.selectReg 0x22#8) := by decide

theorem test_premises_IllegalOpcodeRejected : decode 0xD#128 = .illegalOpcode ∧ decode 0xE#128 = .illegalOpcode ∧
    decode 0xFFFFFFFFFFFFFFFFFFFFFFFFFFFFFFFF#128 = .illegalOpcode := by decide
theorem test_premises_ReservedBitsRejected_low :
    ((0x8#4, 0xFFFFFFFFFFFF0000FFFFFF00000000CF#128) : BitVec 4 × CmdWord) ∈ specMasks ∧
    (0x48#128).extractLsb' 0 4 = 0x8#4 ∧ (0xFFFFFFFFFFFF0000FFFFFF00000000CF#128).getLsbD 6 = true ∧
    (0x48#128).getLsbD 6 = true := by decide
theorem test_premises_ReservedBitsRejected_high :
    ((0x0#4, 0xFFFFFFFFFFFFFFFFFFFFFFFFFFFF00FF#128) : BitVec 4 × CmdWord) ∈ specMasks ∧
    (0x80000000000000000000000000000000#128).extractLsb' 0 4 = 0x0#4 ∧
    (0xFFFFFFFFFFFFFFFFFFFFFFFFFFFF00FF#128).getLsbD 127 = true ∧
    (0x80000000000000000000000000000000#128).getLsbD 127 = true := by decide
theorem test_premises_EncodeDecodeRoundTrip : decode 0xC#128 = .legal .init := by decide
theorem test_premises_Assembler : assembleWords benchParams .gram = some [0xA600#128] := by decide +kernel

theorem test_premises_ChipSelectFrames : Micro.step .w8 { cs := some .deasserted } ∈ itemMicros (.data 0#8 0#8) ∧
    (1 ≤ 1 ∧ 1 ≤ 7) ∧ (1 ≤ 7 ∧ 7 ≤ 7) := by decide
theorem test_premises_ControllerNeverActsOnBlock_fault :
    step { bench with inputs := [.assetWrite 256#16 0#8] } = .fault (.noSuchAssetByte 256#16) := rfl
theorem test_premises_ControllerNeverActsOnBlock_next :
    step bench = .next bench := rfl
theorem test_premises_StepAndDelayHold_step :
    let s : State := { bench with phase := .busy, seq := .running .plain 0 [.step .s1 { d := some 1#8 }] [] }
    s.NextAction .plain (.step .s1 { d := some 1#8 }) [] [] ∧
    1 ≤ 2 ∧ 2 ≤ holdExtra s.params .s1 + 1 ∧ s.trace.head? = some s.pins :=
  ⟨⟨rfl, .inl rfl⟩, by decide, by decide, rfl⟩
/-- The first step of a command, at the edge at which its decode ends. -/
theorem test_premises_StepAndDelayHold_first :
    (bench.accept 0x2200#128).NextAction .plain (.step .s1 { d := some 0x22#8 }) (selSteps 0x22#8).tail [] :=
  ⟨rfl, .inr (.inr ⟨rfl, 0#8, .item (.sel 0x22#8), by decide +kernel, rfl⟩)⟩
/-- The single step of an `RST` item, reached after an operation has ended. -/
theorem test_premises_StepAndDelayHold_rst :
    State.NextAction { bench with phase := .busy, seq := .running .init 0 [] [.item (.rst .asserted)] }
      .init (.step .rstLine { rst := some .asserted }) [] [] := ⟨rfl, .inr (.inl ⟨_, rfl, rfl⟩)⟩
theorem test_premises_StepAndDelayHold_delay :
    let s : State := { bench with phase := .busy, seq := .running .init 0 [] [.item (.delay 9)] }
    s.NextAction .init (.wait 9) [] [] ∧ s.phase = .busy ∧
    s.seq = .running .init 0 [] (.item (.delay 9) :: []) ∧ 10 ≤ 9 + 1 :=
  ⟨⟨rfl, .inr (.inl ⟨_, rfl, rfl⟩)⟩, rfl, rfl, by decide⟩
/-- The step that drives the high byte of an opaque pixel's colour. -/
theorem test_premises_StepAndDelayHold_color :
    let px : PixelOp := { rowAddr := 0, q := 0, fh := false, pal := 0#8, nextX := 1, yrow := 0 }
    let s : State := { bench with phase := .busy, seq := .running .drawing 0 [.color true px 0x1234#16] [] }
    s.NextAction .drawing (.color true px 0x1234#16) [] [] ∧ 1 ≤ 2 ∧ 2 ≤ holdExtra s.params .w2 + 1 :=
  ⟨⟨rfl, .inl rfl⟩, by decide, by decide⟩
theorem test_premises_PinTraceOnlyGrows :
    goesOn (step { bench with inputs := [.command 0x2200#128] }) = true := by decide +kernel

theorem test_premises_SetWindowResult : (175#8).toNat ≤ (175#8).toNat ∧ (219#8).toNat ≤ (219#8).toNat ∧
    (175#8).toNat < 176 ∧ (219#8).toNat < 220 := by decide
theorem test_premises_SetCursorResult : (175#8).toNat < 176 ∧ (219#8).toNat < 220 := by decide
theorem test_premises_WindowReachesController : RegsDistinct bench.params ∧ 0 < 65536 ∧ 65535 < 65536 := by decide

/-- The bench with a register selected. -/
def selecting (i : Byte) : State := { bench with controller := { Controller.start with initialized := true, ir := i } }

theorem test_premises_WriteDataReachesRegister : ∀ i ∈ [0xA0#8, 0xA1#8, 0xA2#8, 0xA3#8, 0xA4#8, 0xA5#8, 0xA7#8, 0x07#8],
    RegsDistinct (selecting i).params ∧ (selecting i).controller.ph = .high ∧ (selecting i).controller.ir = i ∧
    (selecting i).controller.ir ≠ (selecting i).params.regGram ∧ Memory.wf (selecting i).controller.regs := by
  decide +kernel
theorem test_premises_WriteDataReachesRegister_other :
    (selecting 0x07#8).controller.ir ∉ [benchParams.regHsa, benchParams.regHea, benchParams.regVsa, benchParams.regVea,
      benchParams.regCurx, benchParams.regCury, benchParams.regScroll] := by decide

/-- The bench with `REG_GRAM` selected, the window columns 10..175 and rows 20..219, and the address counter given. -/
def streaming (x y : Half) : State :=
  { bench with controller := { Controller.start with
      ir := 0xA6#8, hsa := 10#16, hea := 175#16, vsa := 20#16, vea := 219#16, acx := x, acy := y } }

/-- What the premises of the GRAM statement say of a state but for the branch taken. -/
def insideOf (s : State) : Prop :=
  RegsDistinct s.params ∧ Memory.wf s.controller.gram ∧ s.controller.ph = .high ∧ s.controller.ir = s.params.regGram ∧
  s.controller.hsa.toNat ≤ s.controller.acx.toNat ∧ s.controller.acx.toNat ≤ s.controller.hea.toNat ∧
  s.controller.vsa.toNat ≤ s.controller.acy.toNat ∧ s.controller.acy.toNat ≤ s.controller.vea.toNat ∧
  s.controller.acx.toNat < 176 ∧ s.controller.acy.toNat < 220

theorem test_premises_GramWriteInside_next : insideOf (streaming 174#16 219#16) ∧
    (streaming 174#16 219#16).controller.acx.toNat + 1 ≤ (streaming 174#16 219#16).controller.hea.toNat := by
  unfold insideOf; decide
theorem test_premises_GramWriteInside_row : insideOf (streaming 175#16 218#16) ∧
    (streaming 175#16 218#16).controller.hea.toNat < (streaming 175#16 218#16).controller.acx.toNat + 1 ∧
    (streaming 175#16 218#16).controller.acy.toNat + 1 ≤ (streaming 175#16 218#16).controller.vea.toNat := by
  unfold insideOf; decide
theorem test_premises_GramWriteInside_wrap : insideOf (streaming 175#16 219#16) ∧
    (streaming 175#16 219#16).controller.hea.toNat < (streaming 175#16 219#16).controller.acx.toNat + 1 ∧
    (streaming 175#16 219#16).controller.vea.toNat < (streaming 175#16 219#16).controller.acy.toNat + 1 := by
  unfold insideOf; decide
theorem test_premises_GramWriteOutside : RegsDistinct (streaming 176#16 20#16).params ∧
    (streaming 176#16 20#16).controller.ph = .high ∧
    (streaming 176#16 20#16).controller.ir = (streaming 176#16 20#16).params.regGram ∧
    (streaming 176#16 20#16).controller.inside = false := by decide

theorem test_premises_DrawPixelResult : (175#8).toNat < 176 ∧ (219#8).toNat < 220 ∧ bench.Settled :=
  ⟨by decide, by decide, test_bench_settled⟩
theorem test_premises_DrawHlineResult : (100#8).toNat + (75#8).toNat < 176 ∧ (0#8).toNat + (0#8).toNat < 176 ∧
    (219#8).toNat < 220 := by decide
theorem test_premises_DrawRectResult : 1 ≤ (175#8).toNat ∧ 1 ≤ (1#8).toNat ∧ (1#8).toNat + (175#8).toNat ≤ 176 ∧
    (219#8).toNat + (1#8).toNat ≤ 220 := by decide
theorem test_premises_FillPlacement : RegsDistinct bench.params ∧ Memory.wf bench.controller.gram ∧
    bench.controller.initialized = true ∧
    1 ≤ (176#8).toNat ∧ 1 ≤ (220#8).toNat ∧ (0#8).toNat + (176#8).toNat ≤ 176 ∧ (0#8).toNat + (220#8).toNat ≤ 220 := by
  decide

/-- A tile in the panel's last corner, with the last palette. -/
theorem test_premises_TileFits : TileFits bench.params 168#8 212#8 1#8 1#8 (8 * (1#8).toNat) :=
  ⟨by decide, by decide, by decide, by decide⟩
/-- The largest tile, at the panel's left edge. -/
theorem test_premises_TileFits_large : TileFits bench.params 0#8 44#8 22#8 0#8 (8 * (22#8).toNat) :=
  ⟨by decide, by decide, by decide, by decide⟩
theorem test_premises_TileFits_composite : TileFits bench.params 160#8 204#8 1#8 0#8 (16 * (1#8).toNat) :=
  ⟨by decide, by decide, by decide, by decide⟩
theorem test_premises_tile_address : (232#16).toNat + 23 < assetBytes bench.params := by decide

theorem test_premises_SingleIndexTile : 1#3 ≠ 7#3 ∧ ∀ r < 8, ∀ q < 8, bench.sourceIndex (24#16).toNat r q false = 1#3 := by
  decide +kernel
theorem test_premises_TransparentTile : ∀ r < 8, ∀ q < 8, bench.sourceIndex (72#16).toNat r q false = 7#3 := by
  decide +kernel
/-- The RAMP tile and its rows reversed (7, 6, …, 0 packs to FA C6 88). -/
theorem test_premises_FlipSymmetry : ∀ r < 8, ∀ q < 8,
    State.sourceIndex { bench with assets := Memory.ofList 0 (List.replicate 8 [0xFA#8, 0xC6#8, 0x88#8]).flatten }
      (0#16).toNat r q false = bench.sourceIndex (0#16).toNat r (7 - q) false := by decide +kernel

theorem test_premises_OnlyTileBytesAndColoursRead_bytes :
    (∀ k < 24, Memory.read (Memory.write bench.assets 24 0xAA#8) ((0#16).toNat + k) = bench.assetByte ((0#16).toNat + k)) ∧
    goesOn (exec (.drawTile 0#8 0#8 1#8 0#8 0#16 false false) bench) = true := ⟨by decide +kernel, rfl⟩
theorem test_premises_OnlyTileBytesAndColoursRead_others :
    (∀ x y scale pal addr fv fh, Instr.clearScreen ≠ .drawTile x y scale pal addr fv fh) ∧
    (∀ x y scale pal tl tr bl br, Instr.clearScreen ≠ .drawComposite x y scale pal tl tr bl br) ∧
    goesOn (exec .clearScreen bench) = true :=
  ⟨by intros; exact Instr.noConfusion, by intros; exact Instr.noConfusion, rfl⟩
/-- Palette 0 with another entry 7. -/
theorem test_premises_OnlyTileBytesAndColoursRead_palette :
    ∀ n < 2, ∀ idx : BitVec 3, idx ≠ 7#3 →
      palRead { bench.params with palettes := (Vector.replicate 256 palette1).set 0 (palette0.set 7 0xAAAA#16) }
        (BitVec.ofNat 8 n) idx = palRead bench.params (BitVec.ofNat 8 n) idx := by decide +kernel

theorem test_premises_ContestedByteOldOrNew :
    (bench.accept 0x01000008#128).phase = .busy ∧ Memory.wf (bench.accept 0x01000008#128).assets ∧
    (∀ c ∈ ((bench.accept 0x01000008#128).hostWrite 5#16 0#8).olds, c.1 ≠ 6) ∧ 6 ≠ (5#16).toNat := by decide +kernel

/-- A tile pixel about to be reached, after the host has written one of its bytes. -/
theorem test_premises_ContestedByteOldOrNew_pixel :
    let px : PixelOp := { rowAddr := 0, q := 0, fh := false, pal := 0#8, nextX := 1, yrow := 0 }
    let s : State := { bench with phase := .busy, seq := .running .drawing 0 [] [.pixel px], olds := [(0, 0xFF#8)] }
    s.phase = .busy ∧ s.seq = .running .drawing 0 [] (.pixel px :: []) ∧ s.byteValues 0 = [0x05#8, 0xFF#8] :=
  ⟨rfl, rfl, by decide +kernel⟩
/-- The low byte of a colour about to be driven, after the host has written a byte behind it. -/
theorem test_premises_ContestedByteOldOrNew_color :
    let px : PixelOp := { rowAddr := 0, q := 0, fh := false, pal := 0#8, nextX := 1, yrow := 0 }
    let s : State := { bench with phase := .busy, seq := .running .drawing 0 [.color false px 7#16] [], olds := [(0, 0xFF#8)] }
    s.phase = .busy ∧ s.seq = .running .drawing 0 (.color false px 7#16 :: []) [] ∧ s.byteValues 0 = [0x05#8, 0xFF#8] :=
  ⟨rfl, rfl, by decide +kernel⟩
theorem test_premises_StepStopsOnlyOnAbsentAssetByte :
    ({ bench with inputs := [.assetWrite 256#16 0#8] }).inputs = .assetWrite 256#16 0#8 :: [] ∧
    assetBytes bench.params ≤ (256#16).toNat := ⟨rfl, by decide⟩
/-- An `INIT_SEQ` that writes the scroll register, with only a delay after it. -/
theorem test_premises_InitResult :
    let p : Params := { benchParams with initSeq := [.reg 0xA7#8 0x0000#16, .delay 0] }
    RegsDistinct p ∧ p.initSeq = [] ++ .reg p.regScroll 0x0000#16 :: [.delay 0] ∧
    (∀ h l, Item.data h l ∉ [Item.delay 0]) ∧ ∀ u, Item.reg p.regScroll u ∉ [Item.delay 0] :=
  ⟨by decide, rfl, fun _ _ => by simp, fun _ => by simp⟩

theorem test_premises_ScrollArithmetic : (0#8).toNat ≤ 218 ∧ (218#8).toNat ≤ 218 := by decide
theorem test_premises_ScrollResult_fwd :
    Instr.scrollFwd = .scrollFwd ∧ 0#8 = scrollNext ({ bench with scrollOffset := 218#8 }).scrollOffset := by decide
theorem test_premises_ScrollResult_bwd : Instr.scrollBwd = .scrollBwd ∧ 218#8 = scrollPrev bench.scrollOffset := by decide
theorem test_premises_OnlyInitDrivesRstBl : goesOn (exec .init bench) = true ∧ goesOn (exec .clearScreen bench) = true ∧
    Instr.clearScreen ≠ .init ∧ Micro.step .rstLine { rst := some .asserted } ∈ itemMicros (.rst .asserted) ∧
    Micro.step .blLine { bl := some .on } ∈ itemMicros (.bl .on) := ⟨rfl, rfl, by decide, by decide, by decide⟩
theorem test_premises_ScrollOffsetWriters : bench.scrollOffset.toNat ≤ 218 ∧
    goesOn (step { bench with inputs := [.command 0xB#128] }) = true ∧
    (ran bench 0xB#128).scrollOffset.toNat = 218 := by decide +kernel
theorem test_premises_DrawingIgnoresScroll : isDrawing .clearScreen = true ∧ goesOn (exec .clearScreen bench) = true :=
  ⟨rfl, rfl⟩

theorem test_premises_RejectedWithSmallestCode :
    ErrCode.badWindow ∈ causes bench.params (.setWindow 20#8 0#8 10#8 230#8) ∧
    ∀ c ∈ causes bench.params (.setWindow 20#8 0#8 10#8 230#8), ErrCode.badWindow.bits.toNat ≤ c.bits.toNat := by decide
theorem test_premises_ContractsAreChecked_broken :
    (Instr.drawTile 169#8 0#8 1#8 0#8 0#16 false false).wellFormed = false := by decide
theorem test_premises_ContractsAreChecked_kept :
    (Instr.drawTile 168#8 212#8 1#8 1#8 232#16 false false).wellFormed = true ∧ (1#8).toNat < numPalettes bench.params ∧
    (232#16).toNat + 23 < assetBytes bench.params := by decide
theorem test_premises_SelectedRegisterAfter : ∀ i, decode 0xF#128 ≠ .legal i := by
  intro i h
  cases (by decide : decode 0xF#128 = .illegalOpcode).symm.trans h

theorem test_premises_AddressCounterAfter_transparent : bench.sourceIndex (0#16).toNat 7 7 false = 7#3 := by decide +kernel
theorem test_premises_AddressCounterAfter_opaque : bench.sourceIndex (0#16).toNat 7 7 true ≠ 7#3 := by decide +kernel

/-- The bench is a state of the invariant, and a step goes on from it. -/
theorem test_premises_StepKeepsInv : bench.Inv ∧ goesOn (step { bench with inputs := [.command 0xB#128] }) = true := by
  refine ⟨⟨by decide, by decide, by decide, by decide, fun _ => rfl, rfl, by decide, test_bench_settled, ?_, ?_,
    ?_, ?_, ?_, ?_⟩, by decide +kernel⟩ <;> decide +kernel
theorem test_premises_ParamsAndAssetsKept : goesOn (step { bench with inputs := [.assetWrite 255#16 1#8] }) = true ∧
    (255#16).toNat < assetBytes bench.params ∧ Memory.wf bench.assets := by decide +kernel
theorem test_premises_ParamsAndAssetsKept_exec : goesOn (exec .clearScreen bench) = true := rfl
theorem test_premises_EveryCommandEnds : isDrawing .clearScreen = true ∧ bench.Settled ∧
    goesOn (exec .clearScreen bench) = true := ⟨rfl, test_bench_settled, rfl⟩
theorem test_premises_ClockRunReachesAtomicResult : goesOn (runWord 0x2200#128 bench) = true ∧
    goesOn (runWord 0xF#128 bench) = true := by decide +kernel
theorem test_premises_BusyAtLeastBusCycles : bench.Settled ∧ goesOn (runWord 0x2200#128 bench) = true ∧
    State.edges 9 (bench.accept 0x2200#128) = after (runWord 0x2200#128 bench) :=
  ⟨test_bench_settled, by decide +kernel, by decide +kernel⟩

end Sys2Proof.Tests
end

section
/-! Family 10_state.md: reset, the status word, the error report and the scroll offset, each over every step. -/

namespace Sys2Proof.Machine

/-! ### What a step can do -/

/-- An IDLE block runs the word it takes by its plan; a word that does not decode is a rejected plan. -/
theorem runWord_eq_perform (w : CmdWord) (s : State) :
    runWord w s = .next ((s.capture w).perform (planWord w s.params s.scrollOffset)) := by
  unfold runWord planWord
  cases decode w with
  | legal i => exact exec_eq_perform i (s.capture w)
  | illegalOpcode => rfl
  | reservedBits => rfl

/-- Everything a step that goes on can do, by the host's next input. -/
inductive State.Steps (s : State) : State → Prop where
  /-- The clock runs: no input is left, or a word is offered while BUSY and stays (10_state.md R29). -/
  | clock (h : s.inputs = [] ∨ s.phase = .busy ∧ ∃ w rest, s.inputs = .command w :: rest) : s.Steps s.noInput
  | command {w rest} (hin : s.inputs = .command w :: rest) (hp : s.phase = .idle) :
    s.Steps ((State.capture w { s with inputs := rest }).perform (planWord w s.params s.scrollOffset))
  | edge {rst errClr offer rest} (hin : s.inputs = .edge rst errClr offer :: rest) :
    s.Steps (State.edge rst errClr offer { s with inputs := rest })
  | assetWrite {a b rest} (hin : s.inputs = .assetWrite a b :: rest) (ha : a.toNat < assetBytes s.params) :
    s.Steps (State.hostWrite a b { s with inputs := rest })

theorem step_edge {s : State} {rst errClr : Bool} {offer : Option CmdWord} {rest : List HostInput}
    (hin : s.inputs = .edge rst errClr offer :: rest) :
    step s = .next (State.edge rst errClr offer { s with inputs := rest }) := by
  simp only [step, hin]

theorem State.Steps.of_step {s t : State} (h : step s = .next t) : s.Steps t := by
  unfold step at h
  split at h
  · next hin =>
    cases h
    exact .clock (.inl hin)
  · next w rest hin =>
    cases hp : s.phase with
    | busy =>
      simp only [State.takeCommand, hp] at h
      cases h
      rw [← State.noInput_busy s hp]
      exact .clock (.inr ⟨hp, w, rest, hin⟩)
    | idle =>
      simp only [State.takeCommand, hp, runWord_eq_perform] at h
      cases h
      exact .command hin hp
  · next hin =>
    cases h
    exact .edge hin
  · next hin =>
    unfold State.hostWriteChecked at h
    split at h
    · next ha =>
      cases h
      exact .assetWrite hin ha
    · cases h

/-- The word that the block works on at a step: the one in progress, or the one taken. -/
def State.WorksOn (s : State) (w : CmdWord) : Prop :=
  (s.phase = .busy ∧ w = s.cmd) ∨ (s.phase = .idle ∧ ∃ rest, s.inputs = .command w :: rest)

/-! ### A clock edge by `rst` and `err_clr` -/

/-- `err_clr` at an edge, before anything else of that edge but reset (60_exceptions.md R220). -/
def State.clearIf (errClr : Bool) (s : State) : State := if errClr then s.clearErr else s

@[simp] theorem State.clearIf_true (s : State) : s.clearIf true = s.clearErr := rfl
@[simp] theorem State.clearIf_false (s : State) : s.clearIf false = s := rfl
@[simp] theorem State.clearIf_err (b : Bool) (s : State) : (s.clearIf b).err = (s.err && !b) := by cases b <;> simp
@[simp] theorem State.clearIf_errCode (b : Bool) (s : State) :
    (s.clearIf b).errCode = if b = true then 0#4 else s.errCode := by cases b <;> rfl
@[simp] theorem State.clearIf_phase (b : Bool) (s : State) : (s.clearIf b).phase = s.phase := by cases b <;> rfl
@[simp] theorem State.clearIf_cmd (b : Bool) (s : State) : (s.clearIf b).cmd = s.cmd := by cases b <;> rfl
@[simp] theorem State.clearIf_seq (b : Bool) (s : State) : (s.clearIf b).seq = s.seq := by cases b <;> rfl
@[simp] theorem State.clearIf_pins (b : Bool) (s : State) : (s.clearIf b).pins = s.pins := by cases b <;> rfl
@[simp] theorem State.clearIf_trace (b : Bool) (s : State) : (s.clearIf b).trace = s.trace := by cases b <;> rfl
@[simp] theorem State.clearIf_controller (b : Bool) (s : State) : (s.clearIf b).controller = s.controller := by
  cases b <;> rfl
@[simp] theorem State.clearIf_params (b : Bool) (s : State) : (s.clearIf b).params = s.params := by cases b <;> rfl
@[simp] theorem State.clearIf_scrollOffset (b : Bool) (s : State) : (s.clearIf b).scrollOffset = s.scrollOffset := by
  cases b <;> rfl

theorem State.edge_rst (s : State) (errClr : Bool) (offer : Option CmdWord) :
    s.edge true errClr offer = s.blockReset := rfl

theorem State.edge_busy {s : State} (h : s.phase = .busy) (errClr : Bool) (offer : Option CmdWord) :
    s.edge false errClr offer = (s.clearIf errClr).tick := by
  cases errClr <;> simp [State.edge, h]

theorem State.edge_idle_none {s : State} (h : s.phase = .idle) (errClr : Bool) :
    s.edge false errClr none = s.clearIf errClr := by
  cases errClr <;> simp [State.edge, h]

theorem State.edge_idle_some {s : State} (h : s.phase = .idle) (errClr : Bool) (w : CmdWord) :
    s.edge false errClr (some w) = (s.clearIf errClr).accept w := by
  cases errClr <;> simp [State.edge, h]

/-! ### One edge of a command and the error report -/

/-- The error report of `t` is that of `s`. -/
structure State.ErrKept (s t : State) : Prop where
  err : t.err = s.err
  errCode : t.errCode = s.errCode

theorem State.SameReport.errKept {s t : State} (h : s.SameReport t) : s.ErrKept t := ⟨h.err, h.errCode⟩

theorem State.advance_errKept (s : State) (kind : CommandKind) (ms : List Micro) (ops : List Op) :
    s.ErrKept (s.advance kind ms ops) := by
  unfold State.advance
  split
  · exact ⟨State.micro_err _ _, State.micro_errCode _ _⟩
  · split
    · exact ⟨rfl, rfl⟩
    · split
      · exact ⟨rfl, rfl⟩
      · exact ⟨State.micro_err _ _, State.micro_errCode _ _⟩

/-- A rejection in progress is recorded at its last edge; before that the block stays BUSY and the report as it is. -/
theorem State.rejectAfter_cases {s : State} (h : s.phase = .busy) (code : ErrCode) (left : Nat) :
    s.rejectAfter code left = s.reject code ∨
      (s.ErrKept (s.rejectAfter code left) ∧ (s.rejectAfter code left).phase = .busy) := by
  cases left with
  | zero => exact .inl rfl
  | succ left => exact .inr ⟨⟨rfl, rfl⟩, h⟩

theorem State.begin_reject {s : State} {code : ErrCode} (h : planWord s.cmd s.params s.scrollOffset = .reject code) :
    s.begin = s.rejectAfter code s.params.rejectExtra := by
  simp only [State.begin, h]

theorem State.begin_run {s : State} {kind : CommandKind} {scroll : Byte} {ops : List Op}
    (h : planWord s.cmd s.params s.scrollOffset = .run kind scroll ops) :
    s.begin = (s.start kind scroll).advance kind [] ops := by
  simp only [State.begin, h]

/-- An edge of a command that ends in a rejection (60_exceptions.md R214, R220). -/
theorem State.tick_of_rejectsWith {s : State} {code : ErrCode} (h : s.RejectsWith code) :
    s.tick = s.reject code ∨ (s.ErrKept s.tick ∧ s.tick.phase = .busy) := by
  obtain ⟨hb, ⟨left, hseq⟩ | ⟨⟨left, hseq⟩, hplan⟩⟩ := h
  · simp only [State.tick, hseq]
    exact State.rejectAfter_cases hb code left
  · cases left with
    | zero =>
      simp only [State.tick, hseq, State.begin_reject hplan]
      exact State.rejectAfter_cases hb code _
    | succ left =>
      simp only [State.tick, hseq]
      exact .inr ⟨⟨rfl, rfl⟩, hb⟩

/-- An edge of any other command leaves the report as it is. -/
theorem State.tick_errKept {s : State} (hb : s.phase = .busy) (h : ∀ code, ¬ s.RejectsWith code) :
    s.ErrKept s.tick := by
  unfold State.tick
  split
  · exact ⟨rfl, rfl⟩
  · next hseq =>
    cases hplan : planWord s.cmd s.params s.scrollOffset with
    | reject code => exact absurd ⟨hb, .inr ⟨⟨0, hseq⟩, hplan⟩⟩ (h code)
    | run kind scroll ops =>
      rw [State.begin_run hplan]
      obtain ⟨herr, hcode⟩ := State.advance_errKept (s.start kind scroll) kind [] ops
      exact ⟨herr, hcode⟩
  · exact ⟨rfl, rfl⟩
  · next left code hseq => exact absurd ⟨hb, .inl ⟨left, hseq⟩⟩ (h code)
  · exact State.advance_errKept _ _ _ _
  · exact ⟨rfl, rfl⟩

/-! ### One clock edge and the error report -/

theorem State.clearIf_rejectsWith (b : Bool) (s : State) (code : ErrCode) :
    (s.clearIf b).RejectsWith code ↔ s.RejectsWith code := by
  simp [State.RejectsWith]

/-- At an edge without `rst` a command that ends in a rejection is recorded, after any clear, or stays BUSY. -/
theorem State.edge_of_rejectsWith {s : State} {code : ErrCode} (h : s.RejectsWith code) (errClr : Bool)
    (offer : Option CmdWord) :
    s.edge false errClr offer = (s.clearIf errClr).reject code ∨
      ((s.clearIf errClr).ErrKept (s.edge false errClr offer) ∧ (s.edge false errClr offer).phase = .busy) := by
  rw [State.edge_busy h.1]
  exact State.tick_of_rejectsWith ((State.clearIf_rejectsWith errClr s code).mpr h)

/-- At an edge without `rst` where no command ends in a rejection, the report is the one before, cleared by `err_clr`. -/
theorem State.edge_errKept {s : State} (h : ∀ code, ¬ s.RejectsWith code) (errClr : Bool) (offer : Option CmdWord) :
    (s.clearIf errClr).ErrKept (s.edge false errClr offer) := by
  cases hp : s.phase with
  | busy =>
    rw [State.edge_busy hp]
    exact State.tick_errKept (by simpa using hp) fun code hc => h code ((State.clearIf_rejectsWith errClr s code).mp hc)
  | idle =>
    cases offer with
    | none =>
      rw [State.edge_idle_none hp]
      exact ⟨rfl, rfl⟩
    | some w =>
      rw [State.edge_idle_some hp]
      exact ⟨rfl, rfl⟩

/-- The two cases of an edge without `rst`: a rejection is recorded after any clear, or the report is the one before,
cleared by `err_clr`. -/
theorem State.edge_report (s : State) (errClr : Bool) (offer : Option CmdWord) :
    (∃ code, s.RejectsWith code ∧ s.edge false errClr offer = (s.clearIf errClr).reject code) ∨
      (s.clearIf errClr).ErrKept (s.edge false errClr offer) := by
  by_cases h : ∃ code, s.RejectsWith code
  · obtain ⟨code, hc⟩ := h
    exact (State.edge_of_rejectsWith hc errClr offer).imp (fun he => ⟨code, hc, he⟩) And.left
  · exact .inr (State.edge_errKept (fun code hc => h ⟨code, hc⟩) errClr offer)

/-- Without `err_clr` and `rst`, an edge keeps an error that is set. -/
theorem State.edge_keeps_err {s : State} (h : s.err = true) (offer : Option CmdWord) :
    s.ErrKept (s.edge false false offer) := by
  obtain ⟨code, -, he⟩ | hk := State.edge_report s false offer
  · rw [he]
    exact ⟨h.symm, by simp [h]⟩
  · exact hk

/-! ### A step that sets `err` -/

/-- What a step that sets `err` from 0 with `code` does (10_state.md R30, 60_exceptions.md R214): nothing but the
rejection, of the word in progress or of the word taken. -/
def State.ErrRises (s t : State) (code : ErrCode) : Prop :=
  t.errCode = code.bits ∧ t.phase = .idle ∧
    t.pins = s.pins ∧ t.trace = s.trace ∧ t.controller = s.controller ∧ t.scrollOffset = s.scrollOffset ∧
    ((s.phase = .busy ∧ ∃ left, s.seq = .rejecting left code) ∨
      ∃ w, s.WorksOn w ∧ planWord w s.params s.scrollOffset = .reject code)

/-- The same at a clock edge, whatever inputs are left after it. -/
theorem State.edge_errRises {s : State} (inputs : List HostInput) (errClr : Bool) (offer : Option CmdWord)
    (h0 : s.err = false) (h1 : (State.edge false errClr offer { s with inputs := inputs }).err = true) :
    ∃ code, s.ErrRises (State.edge false errClr offer { s with inputs := inputs }) code := by
  obtain ⟨code, ⟨hb, hc⟩, he⟩ | hk := State.edge_report { s with inputs := inputs } errClr offer
  · rw [he]
    refine ⟨code, by simp [h0], rfl, by simp, by simp, by simp, by simp, ?_⟩
    obtain hrej | ⟨-, hplan⟩ := hc
    · exact .inl ⟨hb, hrej⟩
    · exact .inr ⟨s.cmd, .inl ⟨hb, rfl⟩, hplan⟩
  · rw [hk.err, State.clearIf_err] at h1
    simp [h0] at h1

theorem step_errRises {s t : State} (h : step s = .next t) (h0 : s.err = false) (h1 : t.err = true) :
    ∃ code, s.ErrRises t code := by
  cases State.Steps.of_step h with
  | clock => exact State.edge_errRises s.inputs false none h0 h1
  | @command w rest hin hp =>
    cases hplan : planWord w s.params s.scrollOffset with
    | reject code =>
      exact ⟨code, by simp [State.perform, h0], rfl, rfl, rfl, rfl, rfl, .inr ⟨w, .inr ⟨hp, rest, hin⟩, hplan⟩⟩
    | run kind scroll ops =>
      rw [hplan, (State.perform_run_frame _ kind scroll ops).1.err] at h1
      exact absurd (h0.symm.trans h1) (by decide)
  | @edge rst errClr offer rest hin =>
    cases rst with
    | true => cases h1
    | false => exact State.edge_errRises rest errClr offer h0 h1
  | assetWrite => exact absurd (h0.symm.trans h1) (by decide)

/-- An error that is set stays as it is, but at an edge with `err_clr` or `rst`. -/
theorem step_keeps_err {s t : State} (h : step s = .next t) (h0 : s.err = true) :
    (t.err = true ∧ t.errCode = s.errCode) ∨
      ∃ rst errClr offer rest, s.inputs = .edge rst errClr offer :: rest ∧ (rst = true ∨ errClr = true) := by
  suffices hk : s.ErrKept t ∨ ∃ rst errClr offer rest,
      s.inputs = .edge rst errClr offer :: rest ∧ (rst = true ∨ errClr = true) from
    hk.imp (fun k => ⟨k.err.trans h0, k.errCode⟩) id
  cases State.Steps.of_step h with
  | clock => exact .inl (State.edge_keeps_err h0 none)
  | @command w rest =>
    cases planWord w s.params s.scrollOffset with
    | reject code => exact .inl ⟨h0.symm, by simp [State.perform, h0]⟩
    | run kind scroll ops =>
      obtain ⟨herr, hcode⟩ :=
        (State.perform_run_frame (State.capture w { s with inputs := rest }) kind scroll ops).1.errKept
      exact .inl ⟨herr, hcode⟩
  | @edge rst errClr offer rest hin =>
    by_cases hc : rst = true ∨ errClr = true
    · exact .inr ⟨rst, errClr, offer, rest, hin, hc⟩
    · obtain ⟨rfl, rfl⟩ : rst = false ∧ errClr = false := by simpa using hc
      have hk := State.edge_keeps_err (s := { s with inputs := rest }) h0 offer
      exact .inl ⟨hk.err, hk.errCode⟩
  | assetWrite => exact .inl ⟨rfl, rfl⟩

/-- At an edge without `rst` a rejection that completes is recorded after any clear. -/
theorem State.edge_records {s : State} {code : ErrCode} {errClr : Bool} {offer : Option CmdWord}
    (h : s.RejectsWith code) (hp : (s.edge false errClr offer).phase = .idle) :
    (s.edge false errClr offer).err = true ∧
      (s.edge false errClr offer).errCode = if s.err = true ∧ errClr = false then s.errCode else code.bits := by
  obtain he | ⟨-, hb⟩ := State.edge_of_rejectsWith h errClr offer
  · rw [he]
    cases errClr <;> simp
  · exact absurd (hp.symm.trans hb) (by decide)

/-- At an edge without `rst` at which no rejection completes, the report is the one before, cleared by `err_clr`. -/
theorem State.edge_clears {s : State} {errClr : Bool} {offer : Option CmdWord}
    (h : (s.edge false errClr offer).phase = .busy ∨ ∀ code, ¬ s.RejectsWith code) :
    (s.edge false errClr offer).err = (s.err && !errClr) ∧
      (s.edge false errClr offer).errCode = if errClr = true then 0#4 else s.errCode := by
  obtain ⟨code, hc, he⟩ | ⟨herr, hcode⟩ := State.edge_report s errClr offer
  · rw [he] at h
    obtain hb | hn := h
    · cases hb
    · exact absurd hc (hn code)
  · exact ⟨by simpa using herr, by simpa using hcode⟩

/-- Settles O5: a step that sets `err` is a rejection (`step_errRises`), an error set stays but for `err_clr` and `rst`
(`step_keeps_err`), and a clock edge records or clears in the order of 60_exceptions.md R220. -/
theorem errorReport : Obligations.ErrorReport := by
  intro s t h
  refine ⟨step_errRises h, step_keeps_err h, fun rst errClr offer rest hin => ?_⟩
  obtain rfl : State.edge rst errClr offer { s with inputs := rest } = t := by
    simpa using (step_edge hin).symm.trans h
  refine ⟨?_, ?_⟩
  · rintro rfl
    exact ⟨rfl, rfl⟩
  · rintro rfl
    exact ⟨fun code hc hp => State.edge_records (s := { s with inputs := rest }) hc hp,
      State.edge_clears (s := { s with inputs := rest })⟩

/-! ### The scroll offset -/

/-- The scroll offset after a command that runs (44_scroll_init.md R190, R192, R197). -/
def scrollAfter (i : Instr) (scroll : Byte) : Byte :=
  match i with
  | .init => 0#8
  | .scrollFwd => scrollNext scroll
  | .scrollBwd => scrollPrev scroll
  | _ => scroll

/-- The same of a command word; one that does not decode is rejected and writes no offset. -/
def wordScrollAfter (w : CmdWord) (scroll : Byte) : Byte :=
  match decode w with
  | .legal i => scrollAfter i scroll
  | .illegalOpcode => scroll
  | .reservedBits => scroll

/-- The plan is a rejection, or it sets the scroll offset to `v`. -/
def Plan.SetsScroll (v : Byte) : Plan → Prop
  | .reject _ => True
  | .run _ scroll _ => scroll = v

/-- A check that rejects sets no offset. -/
theorem Plan.SetsScroll.check {c : Prop} [Decidable c] {code : ErrCode} {q : Plan} {v : Byte} (hq : q.SetsScroll v) :
    (if c then .reject code else q : Plan).SetsScroll v := by
  split
  · trivial
  · exact hq

/-- A command's checks, one `check` each, do not touch the offset that its plan sets. -/
theorem planOf_setsScroll (i : Instr) (p : Params) (scroll : Byte) :
    (planOf i p scroll).SetsScroll (scrollAfter i scroll) :=
  match i with
  | .selectReg _ | .writeData _ _ | .clearScreen | .scrollFwd | .scrollBwd | .init => rfl
  | .setCursor _ _ | .drawPixel _ _ _ | .drawHline _ _ _ _ => .check rfl
  | .setWindow _ _ _ _ | .drawRect _ _ _ _ _ => .check (.check rfl)
  | .drawTile _ _ _ _ _ _ _ | .drawComposite _ _ _ _ _ _ _ _ => .check (.check (.check (.check rfl)))

theorem planWord_setsScroll (w : CmdWord) (p : Params) (scroll : Byte) :
    (planWord w p scroll).SetsScroll (wordScrollAfter w scroll) := by
  unfold planWord wordScrollAfter
  cases decode w with
  | legal i => exact planOf_setsScroll i p scroll
  | illegalOpcode => trivial
  | reservedBits => trivial

theorem State.perform_scrollOffset {plan : Plan} {v : Byte} (h : plan.SetsScroll v) (s : State) :
    (s.perform plan).scrollOffset = s.scrollOffset ∨ (s.perform plan).scrollOffset = v := by
  cases plan with
  | reject code => exact .inl rfl
  | run kind scroll ops => exact .inr ((State.perform_run_frame s kind scroll ops).2.2.2.2.trans h)

@[simp] theorem State.advance_scrollOffset (s : State) (kind : CommandKind) (ms : List Micro) (ops : List Op) :
    (s.advance kind ms ops).scrollOffset = s.scrollOffset := by
  unfold State.advance
  split
  · exact State.micro_scrollOffset _ _
  · split
    · rfl
    · split
      · rfl
      · exact State.micro_scrollOffset _ _

@[simp] theorem State.rejectAfter_scrollOffset (s : State) (code : ErrCode) (left : Nat) :
    (s.rejectAfter code left).scrollOffset = s.scrollOffset := by
  cases left <;> rfl

/-- One edge of a command sets the offset where decode and checks end, and nowhere else (log 14). -/
theorem State.tick_scrollOffset (s : State) :
    s.tick.scrollOffset = s.scrollOffset ∨ s.tick.scrollOffset = wordScrollAfter s.cmd s.scrollOffset := by
  unfold State.tick
  split
  · exact .inl rfl
  · have hsets := planWord_setsScroll s.cmd s.params s.scrollOffset
    cases hplan : planWord s.cmd s.params s.scrollOffset with
    | reject code => exact .inl (by simp [State.begin_reject hplan])
    | run kind scroll ops =>
      rw [hplan] at hsets
      exact .inr (by simpa [State.begin_run hplan, Plan.SetsScroll] using hsets)
  · exact .inl rfl
  · exact .inl (State.rejectAfter_scrollOffset _ _ _)
  · exact .inl (State.advance_scrollOffset _ _ _ _)
  · exact .inl rfl

/-- A clock edge without `rst` sets the offset as the word in progress does, or leaves it. -/
theorem State.edge_scrollOffset (s : State) (errClr : Bool) (offer : Option CmdWord) :
    (s.edge false errClr offer).scrollOffset = s.scrollOffset ∨
      (s.phase = .busy ∧ (s.edge false errClr offer).scrollOffset = wordScrollAfter s.cmd s.scrollOffset) := by
  cases hp : s.phase with
  | busy =>
    rw [State.edge_busy hp]
    have ht := State.tick_scrollOffset (s.clearIf errClr)
    simp only [State.clearIf_scrollOffset, State.clearIf_cmd] at ht
    exact ht.imp id fun h => ⟨rfl, h⟩
  | idle =>
    cases offer with
    | none => exact .inl (by simp [State.edge_idle_none hp])
    | some w => exact .inl (by simp [State.edge_idle_some hp])

/-- Who writes the scroll offset at a step: reset, or the word the block works on. -/
theorem step_scrollOffset {s t : State} (h : step s = .next t) :
    t.scrollOffset = s.scrollOffset ∨
      (t.scrollOffset = 0#8 ∧ ∃ errClr offer rest, s.inputs = .edge true errClr offer :: rest) ∨
      ∃ w, s.WorksOn w ∧ t.scrollOffset = wordScrollAfter w s.scrollOffset := by
  cases State.Steps.of_step h with
  | clock =>
    exact (State.edge_scrollOffset s false none).imp id fun ⟨hb, hw⟩ => .inr ⟨s.cmd, .inl ⟨hb, rfl⟩, hw⟩
  | @command w rest hin hp =>
    exact (State.perform_scrollOffset (planWord_setsScroll w s.params s.scrollOffset) _).imp id
      fun hw => .inr ⟨w, .inr ⟨hp, rest, hin⟩, hw⟩
  | @edge rst errClr offer rest hin =>
    cases rst with
    | true => exact .inr (.inl ⟨rfl, errClr, offer, rest, hin⟩)
    | false =>
      exact (State.edge_scrollOffset { s with inputs := rest } errClr offer).imp id
        fun ⟨hb, hw⟩ => .inr ⟨s.cmd, .inl ⟨hb, rfl⟩, hw⟩
  | assetWrite => exact .inl rfl

theorem scrollNext_le (v : Byte) (h : v.toNat ≤ 218) : (scrollNext v).toNat ≤ 218 := by
  unfold scrollNext scrollMax
  split <;> bv_omega

theorem scrollPrev_le (v : Byte) (h : v.toNat ≤ 218) : (scrollPrev v).toNat ≤ 218 := by
  unfold scrollPrev scrollMax
  split <;> bv_omega

/-- Only INIT and the scroll commands move the offset, each to its value (10_state.md R32). -/
theorem wordScrollAfter_cases (w : CmdWord) (scroll : Byte) :
    wordScrollAfter w scroll = scroll ∨
      (decode w = .legal .init ∧ wordScrollAfter w scroll = 0#8) ∨
      (decode w = .legal .scrollFwd ∧ wordScrollAfter w scroll = scrollNext scroll) ∨
      (decode w = .legal .scrollBwd ∧ wordScrollAfter w scroll = scrollPrev scroll) := by
  unfold wordScrollAfter
  split
  · next i hd =>
    rw [hd]
    cases i <;> simp [scrollAfter]
  · exact .inl rfl
  · exact .inl rfl

theorem wordScrollAfter_le (w : CmdWord) (scroll : Byte) (h : scroll.toNat ≤ 218) :
    (wordScrollAfter w scroll).toNat ≤ 218 := by
  obtain he | ⟨-, he⟩ | ⟨-, he⟩ | ⟨-, he⟩ := wordScrollAfter_cases w scroll <;> rw [he]
  · exact h
  · decide
  · exact scrollNext_le scroll h
  · exact scrollPrev_le scroll h

/-- Settles O48: the offset is written by reset or by the word worked on (`step_scrollOffset`), whose value
`wordScrollAfter` stays in [0, 218]. -/
theorem scrollOffsetWriters : Obligations.ScrollOffsetWriters := by
  intro s t h
  obtain he | ⟨he, hr⟩ | ⟨w, hw, he⟩ := step_scrollOffset h <;> rw [he]
  · exact ⟨id, .inl rfl⟩
  · exact ⟨fun _ => by decide, .inr (.inl ⟨rfl, hr⟩)⟩
  · exact ⟨wordScrollAfter_le w s.scrollOffset,
      (wordScrollAfter_cases w s.scrollOffset).imp id fun hc => .inr ⟨w, hw, hc⟩⟩

/-! ### Reset -/

/-- Settles O1: the start is the reset state, and an edge with `rst` is `State.blockReset` (`State.edge_rst`). -/
theorem resetState : Obligations.ResetState := by
  refine ⟨rfl, rfl, rfl, rfl, rfl, rfl, rfl, fun s errClr offer => ?_⟩
  have hbusy : s.cmdReady true = false := Bool.and_false _
  rw [State.edge_rst]
  exact ⟨rfl, rfl, rfl, rfl, rfl, hbusy, rfl, rfl⟩

/-! ### The status word and the lines -/

theorem State.busy_iff (s : State) : s.busy = true ↔ s.phase = .busy := by
  simp [State.busy]

/-- The fields of a word laid out as the status word is (10_state.md R26). `Nat.reduceAdd` is off so that the word's
width stays the sum of its fields' widths, on which the lemmas about `++` match. -/
theorem statusLayout_fields (scroll : Byte) (code : BitVec 4) (err busy : Bool) :
    let w := scroll ++ code ++ 0#2 ++ BitVec.ofBool err ++ BitVec.ofBool busy
    w.getLsbD 0 = busy ∧ w.getLsbD 1 = err ∧ w.extractLsb' 2 2 = 0#2 ∧ w.extractLsb' 4 4 = code ∧
      w.extractLsb' 8 8 = scroll := by
  simp [-Nat.reduceAdd, BitVec.getElem_append, BitVec.extractLsb'_append_eq_of_le,
    BitVec.extractLsb'_append_eq_right]

/-- A line is high exactly when it is in the state its polarity names and the polarity is active high, or neither. -/
theorem polarityLevel_iff (pol : Polarity) (active : Bool) :
    polarityLevel pol active = true ↔ (active = true ↔ pol = .activeHigh) := by
  cases pol <;> simp [polarityLevel]

/-- Settles O3: the status word field by field (`statusLayout_fields`), and each line by its polarity
(`polarityLevel_iff`). -/
theorem statusWordAndLines : Obligations.StatusWordAndLines := by
  refine ⟨fun s => ?_, fun n p => ⟨rfl, ?_⟩⟩
  · obtain ⟨hbusy, hrest⟩ := statusLayout_fields s.scrollOffset s.errCode s.err s.busy
    exact ⟨by rw [← State.busy_iff, ← hbusy]; rfl, hrest⟩
  · simp only [Pins.levels, polarityLevel_iff, beq_iff_eq, and_self]

end Sys2Proof.Machine
end

section
/-! Family 20_memory.md: what a GRAM write does to the reference controller. -/

namespace Sys2Proof.Machine

/-! ### The advance of the address counter -/

/-- The advance moves the address counter and nothing else. -/
theorem Controller.advance_frame (c : Controller) :
    c.advance = { c with acx := c.advance.acx, acy := c.advance.acy } := by
  unfold Controller.advance
  split <;> [skip; split] <;> rfl

/-- Where the address counter goes: to the next column, to the next row's first column where the row is full, to the
window's first cell where the window is full (20_memory.md R68). -/
theorem Controller.advance_rowMajor (c : Controller) :
    (c.acx.toNat + 1 ≤ c.hea.toNat → c.advance.acx.toNat = c.acx.toNat + 1 ∧ c.advance.acy = c.acy) ∧
      (c.hea.toNat < c.acx.toNat + 1 → c.acy.toNat + 1 ≤ c.vea.toNat →
        c.advance.acx = c.hsa ∧ c.advance.acy.toNat = c.acy.toNat + 1) ∧
      (c.hea.toNat < c.acx.toNat + 1 → c.vea.toNat < c.acy.toNat + 1 →
        c.advance.acx = c.hsa ∧ c.advance.acy = c.vsa) := by
  have noOverflow {a b : Half} (h : a.toNat + 1 ≤ b.toNat) : (a + 1#16).toNat = a.toNat + 1 :=
    BitVec.toNat_add_of_lt (Nat.lt_of_le_of_lt h b.isLt)
  refine ⟨fun hx => ?_, fun hx hy => ?_, fun hx hy => ?_⟩
  · rw [Controller.advance, if_pos hx]
    exact ⟨noOverflow hx, rfl⟩
  · rw [Controller.advance, if_neg (Nat.not_le.mpr hx), if_pos hy]
    exact ⟨rfl, noOverflow hy⟩
  · rw [Controller.advance, if_neg (Nat.not_le.mpr hx), if_neg (Nat.not_le.mpr hy)]
    exact ⟨rfl, rfl⟩

/-! ### A byte pair at the controller -/

/-- WRITE_DATA between byte pairs is its pair at the controller (20_memory.md R66). -/
theorem exec_writeData_controller {s : State} (h l : Byte) (hp : s.controller.ph = .high) :
    ∃ t, exec (.writeData h l) s = .next t ∧ t.controller = s.controller.item s.params (.data h l) :=
  ⟨_, exec_eq_perform _ s, (State.perform_run_controller_plain s _ [.item (.data h l)]).trans
    (State.runItems_controller (s.start .plain s.scrollOffset) [.data h l] hp)⟩

/-- With `REG_GRAM` selected the pair's value is a GRAM write (20_memory.md R67). -/
theorem Controller.item_data_gram {p : Params} {c : Controller} (hd : RegsDistinct p) (hp : c.ph = .high)
    (hi : c.ir = p.regGram) (h l : Byte) :
    c.item p (.data h l) = Controller.writeGram (h ++ l) { c with hold := h } :=
  calc c.item p (.data h l)
    _ = Controller.regWrite p c.ir (h ++ l) { c with hold := h } := by rw [Controller.item, ← hp]
    _ = Controller.regWrite p p.regGram (h ++ l) { c with hold := h } := congrArg (Controller.regWrite p · _ _) hi
    _ = Controller.writeGram (h ++ l) { c with hold := h } := Controller.regWrite_gram p hd _ _

/-- The cell under the address counter takes the value `v` (20_memory.md R68). -/
def Controller.storeGram (v : Half) (c : Controller) : Controller :=
  { c with gram := Memory.write c.gram (gramCell c.acx.toNat c.acy.toNat) v }

/-- Inside window and panel a GRAM write stores its value, and then the counter advances. -/
theorem Controller.writeGram_inside (v : Half) (c : Controller) (hin : c.inside = true) :
    c.writeGram v = (c.storeGram v).advance := if_pos hin

/-- Settles O26: the pair is a GRAM write (`Controller.item_data_gram`), which stores its value and advances the counter
(`Controller.writeGram_inside`); the store's laws give the cells, `Controller.advance_rowMajor` the counter. -/
theorem gramWriteInside : Obligations.GramWriteInside := by
  intro h l s hd hwf hp hi hx0 hx1 hy0 hy1 hx hy
  have hin : s.controller.inside = true := (Controller.inside_iff _).mpr ⟨hx0, hx1, hy0, hy1, hx, hy⟩
  obtain ⟨t, hexec, hitem⟩ := exec_writeData_controller h l hp
  have ht : t.controller = (Controller.storeGram (h ++ l) { s.controller with hold := h }).advance :=
    hitem.trans ((Controller.item_data_gram hd hp hi h l).trans (Controller.writeGram_inside _ _ hin))
  have hgram : t.controller.gram =
      Memory.write s.controller.gram (gramCell s.controller.acx.toNat s.controller.acy.toNat) (h ++ l) := by
    rw [ht, Controller.advance_gram, Controller.storeGram]
  obtain ⟨hcolumn, hrow, hwrap⟩ :=
    Controller.advance_rowMajor (Controller.storeGram (h ++ l) { s.controller with hold := h })
  rw [← ht] at hcolumn hrow hwrap
  refine ⟨t, hexec, hgram, ?_, fun a ha => ?_, hcolumn, hrow, hwrap, ?_⟩
  · rw [State.cell, hgram]
    exact Memory.read_write_same _ hwf _ _
  · rw [hgram]
    exact Memory.read_write_other _ _ _ _ ha
  · rw [hgram, ht, Controller.advance_frame]
    rfl

end Sys2Proof.Machine
end

section
/-! Family 30_encoding.md: a word by its slots, when it is legal, how a reserved bit is rejected, and the assembler. -/

namespace Sys2Proof.Machine

open Laws

/-! ### A word by its slots -/

/-- The slots of a word (30_encoding.md R81), the two reserved ones left out as in `Slots`. -/
def slotsAt (w : CmdWord) : Slots where
  op := slotOp w
  fv := slotFV w
  fh := slotFH w
  a := slotA w
  b := slotB w
  c := slotC w
  d := slotD w
  color := slotColor w
  t0 := slotT0 w
  t1 := slotT1 w
  t2 := slotT2 w
  t3 := slotT3 w

/-- Packing loses no slot: each is read behind the ones packed below it. -/
theorem slotsAt_packSlots (s : Slots) : slotsAt (packSlots s) = s := by
  cases s
  simp only [slotsAt, Slots.mk.injEq]
  refine ⟨BitVec.extractLsb'_append_eq_right, ?fv, ?fh, ?a, ?b, ?c, ?d, ?color, ?t0, ?t1, ?t2, ?t3⟩
  case fv | fh =>
    repeat refine (BitVec.getLsbD_append.trans (if_neg (by decide))).trans ?_
    exact BitVec.getLsbD_append.trans (by simp)
  case t3 =>
    iterate 13 refine (BitVec.extractLsb'_append_eq_of_le (by decide)).trans ?_
    exact BitVec.extractLsb'_eq_self
  all_goals
    repeat refine (BitVec.extractLsb'_append_eq_of_le (by decide)).trans ?_
    exact BitVec.extractLsb'_append_eq_right

/-- The command of an opcode with its operands from the slots (30_encoding.md R83), whatever the reserved bits. -/
def instrOf (op : Nat) (s : Slots) : Option Instr :=
  match op with
  | 0x0 => some (.selectReg s.a)
  | 0x1 => some (.writeData s.a s.b)
  | 0x2 => some (.setWindow s.a s.b s.c s.d)
  | 0x3 => some (.setCursor s.a s.b)
  | 0x4 => some (.drawPixel s.a s.b s.color)
  | 0x5 => some (.drawHline s.a s.b s.c s.color)
  | 0x6 => some (.drawRect s.a s.b s.c s.d s.color)
  | 0x7 => some .clearScreen
  | 0x8 => some (.drawTile s.a s.b s.c s.d s.t0 s.fv s.fh)
  | 0x9 => some (.drawComposite s.a s.b s.c s.d s.t0 s.t1 s.t2 s.t3)
  | 0xA => some .scrollFwd
  | 0xB => some .scrollBwd
  | 0xC => some .init
  | _ => none

theorem opcodeOf_of_instrOf {op : Nat} {s : Slots} {i : Instr} (h : instrOf op s = some i) : opcodeOf i = op := by
  unfold instrOf at h
  split at h <;> cases h <;> rfl

theorem instrOf_slotsOf (i : Instr) : instrOf (opcodeOf i) (slotsOf i) = some i := by
  cases i <;> rfl

theorem opcodeOf_lt (i : Instr) : opcodeOf i < 16 := by
  cases i <;> simp [opcodeOf]

/-- The decoder picks the command by the opcode and accepts it by its `MASK` (30_encoding.md R80, R84). -/
theorem decode_eq (w : CmdWord) :
    decode w = (instrOf (slotOp w).toNat (slotsAt w)).elim .illegalOpcode
      fun i => legalIf w (maskOf i) (opcodeOf i) i := by
  unfold decode
  generalize (slotOp w).toNat = op
  match op with
  | 0 | 1 | 2 | 3 | 4 | 5 | 6 | 7 | 8 | 9 | 10 | 11 | 12 | _ + 13 => rfl

/-! ### Legal words -/

theorem legalIf_eq_legal_iff {w mask : CmdWord} {op : Nat} {i j : Instr} :
    legalIf w mask op i = .legal j ↔ w &&& mask = BitVec.ofNat 128 op ∧ i = j := by
  unfold legalIf
  split <;> simp [*]

/-- A legal word holds its command's opcode alone under the mask. -/
theorem and_maskOf_of_decode {w : CmdWord} {i : Instr} (h : decode w = .legal i) :
    w &&& maskOf i = BitVec.ofNat 128 (opcodeOf i) := by
  rw [decode_eq] at h
  cases hi : instrOf (slotOp w).toNat (slotsAt w) with
  | none => simp [hi] at h
  | some j =>
    rw [hi] at h
    obtain ⟨hm, rfl⟩ := legalIf_eq_legal_iff.mp h
    exact hm

/-- No mask leaves out a bit of the opcode (30_encoding.md R84). -/
theorem slotOp_maskOf (i : Instr) : slotOp (maskOf i) = BitVec.allOnes 4 := by
  cases i <;> simp only [maskOf] <;> decide

theorem slotOp_ofNat {op : Nat} (h : op < 16) : (slotOp (BitVec.ofNat 128 op)).toNat = op := by
  simp [slotOp, BitVec.extractLsb'_toNat]
  omega

/-- A word that matches under a mask has the opcode. -/
theorem slotOp_of_and_maskOf {w : CmdWord} {i : Instr} (h : w &&& maskOf i = BitVec.ofNat 128 (opcodeOf i)) :
    (slotOp w).toNat = opcodeOf i := by
  have hop : slotOp w = slotOp (w &&& maskOf i) :=
    calc slotOp w
      _ = slotOp w &&& slotOp (maskOf i) := by rw [slotOp_maskOf, BitVec.and_allOnes]
      _ = slotOp (w &&& maskOf i) := BitVec.extractLsb'_and.symm
  rw [hop, h, slotOp_ofNat (opcodeOf_lt i)]

/-- A word that holds an opcode alone under the mask of that opcode's command is legal (30_encoding.md R84). -/
theorem decode_of_and_maskOf (op : Nat) {w : CmdWord} {i : Instr} (hi : instrOf op (slotsAt w) = some i)
    (hm : w &&& maskOf i = BitVec.ofNat 128 op) : decode w = .legal i := by
  obtain rfl := opcodeOf_of_instrOf hi
  rw [decode_eq, slotOp_of_and_maskOf hm, hi]
  exact legalIf_eq_legal_iff.mpr ⟨hm, rfl⟩

/-- Settles O11: each row of the table by `and_maskOf_of_decode` one way and `decode_of_and_maskOf` the other. -/
theorem legalIffMaskMatches : Obligations.LegalIffMaskMatches := fun _ =>
  ⟨⟨fun ⟨_, h⟩ => and_maskOf_of_decode h, fun h => ⟨_, decode_of_and_maskOf 0x0 rfl h⟩⟩,
    ⟨fun ⟨_, _, h⟩ => and_maskOf_of_decode h, fun h => ⟨_, _, decode_of_and_maskOf 0x1 rfl h⟩⟩,
    ⟨fun ⟨_, _, _, _, h⟩ => and_maskOf_of_decode h, fun h => ⟨_, _, _, _, decode_of_and_maskOf 0x2 rfl h⟩⟩,
    ⟨fun ⟨_, _, h⟩ => and_maskOf_of_decode h, fun h => ⟨_, _, decode_of_and_maskOf 0x3 rfl h⟩⟩,
    ⟨fun ⟨_, _, _, h⟩ => and_maskOf_of_decode h, fun h => ⟨_, _, _, decode_of_and_maskOf 0x4 rfl h⟩⟩,
    ⟨fun ⟨_, _, _, _, h⟩ => and_maskOf_of_decode h, fun h => ⟨_, _, _, _, decode_of_and_maskOf 0x5 rfl h⟩⟩,
    ⟨fun ⟨_, _, _, _, _, h⟩ => and_maskOf_of_decode h, fun h => ⟨_, _, _, _, _, decode_of_and_maskOf 0x6 rfl h⟩⟩,
    ⟨and_maskOf_of_decode, decode_of_and_maskOf 0x7 rfl⟩,
    ⟨fun ⟨_, _, _, _, _, _, _, h⟩ => and_maskOf_of_decode h,
      fun h => ⟨_, _, _, _, _, _, _, decode_of_and_maskOf 0x8 rfl h⟩⟩,
    ⟨fun ⟨_, _, _, _, _, _, _, _, h⟩ => and_maskOf_of_decode h,
      fun h => ⟨_, _, _, _, _, _, _, _, decode_of_and_maskOf 0x9 rfl h⟩⟩,
    ⟨and_maskOf_of_decode, decode_of_and_maskOf 0xA rfl⟩,
    ⟨and_maskOf_of_decode, decode_of_and_maskOf 0xB rfl⟩,
    ⟨and_maskOf_of_decode, decode_of_and_maskOf 0xC rfl⟩⟩

/-! ### Reserved bits -/

/-- The spec's table holds the decoder's commands with their masks (30_encoding.md R84), whatever the slots. -/
theorem specMasks_eq (s : Slots) :
    specMasks = (List.range 13).filterMap fun n => (instrOf n s).map fun i => (BitVec.ofNat 4 n, maskOf i) := rfl

theorem instrOf_of_mem_specMasks {op : BitVec 4} {mask : CmdWord} (h : (op, mask) ∈ specMasks) (s : Slots) :
    ∃ i, instrOf op.toNat s = some i ∧ maskOf i = mask := by
  simp only [specMasks_eq s, List.mem_filterMap, List.mem_range, Option.map_eq_some_iff, Prod.mk.injEq] at h
  obtain ⟨n, hn, i, hi, rfl, hm⟩ := h
  have hop : (BitVec.ofNat 4 n).toNat = n := Nat.mod_eq_of_lt (by omega)
  exact ⟨i, by rw [hop, hi], hm⟩

/-- A bit above the opcode that the mask keeps is zero in a word that matches. -/
theorem and_ne_of_getLsbD {w mask : CmdWord} {op k : Nat} (hop : op < 16) (hk : 4 ≤ k)
    (hm : mask.getLsbD k = true) (hw : w.getLsbD k = true) : w &&& mask ≠ BitVec.ofNat 128 op := by
  intro h
  have hset : (BitVec.ofNat 128 op).getLsbD k = true := by rw [← h, BitVec.getLsbD_and, hm, hw]; rfl
  have hlt : op < 2 ^ k := Nat.lt_of_lt_of_le hop (Nat.pow_le_pow_right (n := 2) (by decide) hk)
  simp [BitVec.getLsbD_ofNat, Nat.testBit_lt_two_pow hlt] at hset

theorem decode_eq_reservedBits {w : CmdWord} {i : Instr} (hi : instrOf (slotOp w).toNat (slotsAt w) = some i)
    (h : w &&& maskOf i ≠ BitVec.ofNat 128 (opcodeOf i)) : decode w = .reservedBits := by
  rw [decode_eq, hi]
  exact if_neg h

/-- A word whose plan is a rejection is rejected with the plan's code (60_exceptions.md R214). -/
theorem runWord_rejected {w : CmdWord} {s : State} {code : ErrCode}
    (h : planWord w s.params s.scrollOffset = .reject code) :
    ∃ t, runWord w s = .next t ∧ (s.capture w).RejectedAs t code ∧ (s.err = false → t.errCode = code.bits) := by
  refine ⟨_, runWord_eq_perform w s, ?_⟩
  rw [h]
  have hr := State.perform_reject (s.capture w) code
  exact ⟨hr, fun he => hr.errCode.trans (if_neg (by simp [State.capture, he]))⟩

/-- Bits 7:6 are reserved in every command, bits 5:4 in every command but DRAW_TILE (30_encoding.md R86). -/
theorem specMasks_bits : ∀ e ∈ specMasks,
    e.2.getLsbD 7 = true ∧ e.2.getLsbD 6 = true ∧
    (e.1 ≠ 0x8#4 → e.2.getLsbD 5 = true ∧ e.2.getLsbD 4 = true) ∧
    (e.1 = 0x8#4 → e.2.getLsbD 5 = false ∧ e.2.getLsbD 4 = false) := by simp [specMasks]

/-- Settles O10: the word has a command (`instrOf_of_mem_specMasks`), the reserved bit keeps it from matching
(`and_ne_of_getLsbD`), and its plan is the rejection (`runWord_rejected`). -/
theorem reservedBitsRejected : Obligations.ReservedBitsRejected := by
  refine ⟨fun w op mask hmem hop ⟨k, hk, hm, hw⟩ => ?_, fun op mask hmem => specMasks_bits (op, mask) hmem⟩
  subst hop
  obtain ⟨i, hi, rfl⟩ := instrOf_of_mem_specMasks hmem (slotsAt w)
  have hd : decode w = .reservedBits := decode_eq_reservedBits hi (and_ne_of_getLsbD (opcodeOf_lt i) hk hm hw)
  exact ⟨hd, fun s => runWord_rejected (by rw [planWord, hd])⟩

/-! ### The assembler -/

/-- An encoding holds its opcode alone under the mask (30_encoding.md R84). -/
theorem encode_and_maskOf (i : Instr) : encode i &&& maskOf i = BitVec.ofNat 128 (opcodeOf i) :=
  match i with
  | .selectReg _ => EncodeLegal.selectReg _
  | .writeData _ _ => EncodeLegal.writeData _ _
  | .setWindow _ _ _ _ => EncodeLegal.setWindow _ _ _ _
  | .setCursor _ _ => EncodeLegal.setCursor _ _
  | .drawPixel _ _ _ => EncodeLegal.drawPixel _ _ _
  | .drawHline _ _ _ _ => EncodeLegal.drawHline _ _ _ _
  | .drawRect _ _ _ _ _ => EncodeLegal.drawRect _ _ _ _ _
  | .clearScreen => EncodeLegal.clearScreen
  | .drawTile _ _ _ _ _ _ _ => EncodeLegal.drawTile _ _ _ _ _ _ _
  | .drawComposite _ _ _ _ _ _ _ _ => EncodeLegal.drawComposite _ _ _ _ _ _ _ _
  | .scrollFwd => EncodeLegal.scrollFwd
  | .scrollBwd => EncodeLegal.scrollBwd
  | .init => EncodeLegal.init

/-- Every command is decoded from its encoding (30_encoding.md R82–R84, R88). -/
theorem decode_encode (i : Instr) : decode (encode i) = .legal i := by
  refine decode_of_and_maskOf (opcodeOf i) ?_ (encode_and_maskOf i)
  rw [encode, slotsAt_packSlots, instrOf_slotsOf]

@[simp] theorem slot8_toNat (b : Byte) : slot8 b.toNat = some b := by
  simp [slot8, b.isLt]

@[simp] theorem slot16_toNat (v : Half) : slot16 v.toNat = some v := by
  simp [slot16, v.isLt]

/-- An 8-bit operand refuses the line exactly when it does not fit, before the others are looked at. -/
theorem isSome_slot8_bind {α : Type} (n : Nat) (f : Byte → Option α) :
    ((slot8 n).bind f).isSome = (decide (n < 256) && (f (BitVec.ofNat 8 n)).isSome) := by
  unfold slot8
  split <;> simp [*]

/-- The same of a 16-bit operand. -/
theorem isSome_slot16_bind {α : Type} (n : Nat) (f : Half → Option α) :
    ((slot16 n).bind f).isSome = (decide (n < 65536) && (f (BitVec.ofNat 16 n)).isSome) := by
  unfold slot16
  split <;> simp [*]

/-- A line is refused exactly when an operand does not fit its slot (30_encoding.md R88): operand by operand, in the order
written but for `wreg`, whose value is read before its index. -/
theorem assemble_isSome (p : Params) (l : AsmLine) : (assemble p l).isSome = l.fits := by
  cases l with
  | wreg idx v => simp [assemble, AsmLine.fits, isSome_slot8_bind, isSome_slot16_bind, Bool.and_comm]
  | _ => simp [assemble, AsmLine.fits, isSome_slot8_bind, isSome_slot16_bind, Bool.and_assoc]

/-- Settles O15: the expansions by `slot8_toNat` and `slot16_toNat`, the refusals by `assemble_isSome`, the words by
`decode_encode`. -/
theorem assembler : Obligations.Assembler := by
  refine ⟨fun p idx v => ⟨by simp [assemble], rfl, by simp [assemble]⟩, fun _ _ _ _ _ _ => rfl, assemble_isSome, ?_⟩
  intro p l ws h w hw
  obtain ⟨is, -, rfl⟩ := Option.map_eq_some_iff.mp h
  obtain ⟨i, -, rfl⟩ := List.mem_map.mp hw
  exact ⟨i, decode_encode i, rfl⟩

end Sys2Proof.Machine
end

section
/-! Family 40_bus_protocol.md: the raw commands as transactions, the chip select, and that the reference controller
never acts on the block. -/

namespace Sys2Proof.Machine

/-! ### A raw command is its transaction -/

/-- An item adds its pin vectors to the trace (40_bus_protocol.md R113–R115, 44_scroll_init.md R196). -/
theorem State.runItem_trace (s : State) (t : Item) :
    (s.runItem t).trace = grownTrace s.trace (itemVectors s.pins t) := by
  cases t <;> rfl

/-- SELECT_REG is `BusSel`, and then the command is over (40_bus_protocol.md R116). -/
theorem exec_selectReg (idx : Byte) (s : State) :
    exec (.selectReg idx) s = .next (s.runItem (.sel idx)).finish := rfl

/-- WRITE_DATA is `BusData`, and then the command is over (40_bus_protocol.md R117). -/
theorem exec_writeData (high low : Byte) (s : State) :
    exec (.writeData high low) s = .next (s.runItem (.data high low)).finish := rfl

/-- An item reaches nothing of the block but pins and trace. -/
theorem State.runItem_finish_frame (s : State) (t : Item) : s.Frame (s.runItem t).finish where
  params := State.runItem_params s t
  err := State.runItem_err s t
  errCode := State.runItem_errCode s t
  assets := State.runItem_assets s t
  inputs := State.runItem_inputs s t
  raceReads := State.runItem_raceReads s t
  phase := rfl
  seq := rfl
  olds := rfl
  scrollOffset := State.runItem_scrollOffset s t

/-- The end of a command adds nothing to what an item adds to the transaction trace of a settled bus. -/
theorem State.runItem_finish_settled (s : State) (t : Item) (hs : s.Settled) :
    (s.runItem t).finish.Settled ∧ (s.runItem t).finish.transactions = s.transactions ++ itemTrans t := by
  obtain ⟨hsettled, htrans⟩ := State.runItem_settled s t hs
  exact ⟨State.settled_congr (s := s.runItem t) rfl rfl hsettled, htrans⟩

/-- Settles O16: SELECT_REG is `BusSel` (`exec_selectReg`), whose vectors, pins, effect at the controller, frame and
record are those of its item. -/
theorem selectRegResult : Obligations.SelectRegResult := fun idx s =>
  ⟨_, exec_selectReg idx s, State.runItem_trace s _, State.runItem_sel_pins s idx, State.runItem_sel_controller s idx,
    State.runItem_finish_frame s _, State.runItem_finish_settled s _⟩

/-- Settles O17: WRITE_DATA is `BusData` (`exec_writeData`), whose vectors, pins, frame and record are those of its
item. -/
theorem writeDataResult : Obligations.WriteDataResult := fun high low s =>
  ⟨_, exec_writeData high low s, State.runItem_trace s _, State.runItem_data_pins s high low,
    State.runItem_finish_frame s _, State.runItem_finish_settled s _⟩

/-! ### The chip select -/

/-- A sequencer action that deasserts CS is the step W8. -/
def Micro.ReleasesOnlyAsW8 : Micro → Prop
  | .step k c => c.cs = some .deasserted → k = .w8
  | .wait _ => True
  | .color _ _ _ => True

theorem selSteps_releasesOnlyAsW8 (i : Byte) : ∀ m ∈ selSteps i, m.ReleasesOnlyAsW8 := by
  simp [selSteps, Micro.ReleasesOnlyAsW8]

theorem dataSteps_releasesOnlyAsW8 (h l : Byte) : ∀ m ∈ dataSteps h l, m.ReleasesOnlyAsW8 := by
  simp [dataSteps, Micro.ReleasesOnlyAsW8]

/-- W8 is the only step of an item that deasserts CS (40_bus_protocol.md R119). -/
theorem itemMicros_releasesOnlyAsW8 (it : Item) : ∀ m ∈ itemMicros it, m.ReleasesOnlyAsW8 := by
  cases it with
  | sel i => exact selSteps_releasesOnlyAsW8 i
  | data h l => exact dataSteps_releasesOnlyAsW8 h l
  | reg i v =>
    exact List.forall_mem_append.mpr ⟨selSteps_releasesOnlyAsW8 i, dataSteps_releasesOnlyAsW8 (hiByte v) (loByte v)⟩
  | rst _ | bl _ | delay _ => simp [itemMicros, Micro.ReleasesOnlyAsW8]

/-- After one `BusSel` or more CS is asserted. -/
theorem State.runItems_sel_cs (s : State) (i : Byte) (is : List Byte) :
    (s.runItems ((i :: is).map .sel)).pins.cs = .asserted := by
  induction is generalizing s i with
  | nil => rfl
  | cons j is ih => exact ih (s.runItem (.sel i)) j

/-- W1 asserts CS, and no step from W2 to W7 names it. -/
theorem State.dataSteps_take_cs (s : State) (h l : Byte) {k : Nat} (h1 : 1 ≤ k) (h7 : k ≤ 7) :
    (((dataSteps h l).take k).foldl State.micro s).pins.cs = .asserted := by
  interval_cases k <;> rfl

/-- Settles O18: the pins after an item, the step that deasserts CS (`itemMicros_releasesOnlyAsW8`), CS after
selects (`State.runItems_sel_cs`) and inside a pair (`State.dataSteps_take_cs`), and the reset pins. -/
theorem chipSelectFrames : Obligations.ChipSelectFrames :=
  ⟨fun s i h l => ⟨State.runItem_sel_pins s i, State.runItem_data_pins s h l⟩,
    fun it _ _ hm => itemMicros_releasesOnlyAsW8 it _ hm,
    fun s i is h l _ h1 h7 => ⟨State.runItems_sel_cs s i is, State.dataSteps_take_cs _ h l h1 h7,
      State.dataSteps_take_cs s h l h1 h7, rfl⟩,
    fun _ _ _ => rfl⟩

/-! ### Two states alike but for the controller -/

/-- The states that are `s` with any controller: the block, its memory and the host are the same. -/
inductive State.SameBlock (s : State) : State → Prop where
  | mk (d : Controller) : s.SameBlock { s with controller := d }

section SameBlock

variable {s t : State}

/-! What the block reads of its state is the same in both. -/

theorem State.SameBlock.inputs : s.SameBlock t → t.inputs = s.inputs := fun (.mk _) => rfl

theorem State.SameBlock.phase : s.SameBlock t → t.phase = s.phase := fun (.mk _) => rfl

theorem State.SameBlock.seq : s.SameBlock t → t.seq = s.seq := fun (.mk _) => rfl

theorem State.SameBlock.cmd : s.SameBlock t → t.cmd = s.cmd := fun (.mk _) => rfl

theorem State.SameBlock.scrollOffset : s.SameBlock t → t.scrollOffset = s.scrollOffset := fun (.mk _) => rfl

theorem State.SameBlock.params : s.SameBlock t → t.params = s.params := fun (.mk _) => rfl

theorem State.SameBlock.assetByte : s.SameBlock t → t.assetByte = s.assetByte := fun (.mk _) => rfl

theorem State.SameBlock.opMicros (o : Op) : s.SameBlock t → t.opMicros o = s.opMicros o := fun (.mk _) => rfl

theorem State.SameBlock.reread (m : Micro) : s.SameBlock t → t.reread m = s.reread m := fun (.mk _) => rfl

/-! What the block writes keeps two such states alike; four of its operations act on the controller. -/

theorem State.SameBlock.setSeq (q : SeqPos) :
    s.SameBlock t → State.SameBlock { s with seq := q } { t with seq := q } :=
  fun (.mk d) => .mk d

theorem State.SameBlock.setInputs (is : List HostInput) :
    s.SameBlock t → State.SameBlock { s with inputs := is } { t with inputs := is } :=
  fun (.mk d) => .mk d

theorem State.SameBlock.countRace (b : Bool) : s.SameBlock t → (s.countRace b).SameBlock (t.countRace b) :=
  fun (.mk d) => .mk d

theorem State.SameBlock.clearIf (b : Bool) (h : s.SameBlock t) : (s.clearIf b).SameBlock (t.clearIf b) := by
  obtain ⟨d⟩ := h
  cases b <;> exact .mk d

theorem State.SameBlock.accept (w : CmdWord) : s.SameBlock t → (s.accept w).SameBlock (t.accept w) :=
  fun (.mk d) => .mk d

theorem State.SameBlock.capture (w : CmdWord) : s.SameBlock t → (s.capture w).SameBlock (t.capture w) :=
  fun (.mk d) => .mk d

theorem State.SameBlock.reject (code : ErrCode) : s.SameBlock t → (s.reject code).SameBlock (t.reject code) :=
  fun (.mk d) => .mk d

theorem State.SameBlock.finish : s.SameBlock t → s.finish.SameBlock t.finish := fun (.mk d) => .mk d

theorem State.SameBlock.hostWrite (a : AssetAddr) (b : Byte) :
    s.SameBlock t → (s.hostWrite a b).SameBlock (t.hostWrite a b) :=
  fun (.mk d) => .mk d

theorem State.SameBlock.start (kind : CommandKind) (scroll : Byte) :
    s.SameBlock t → (s.start kind scroll).SameBlock (t.start kind scroll) :=
  fun (.mk d) => .mk (d.beginCommand kind)

theorem State.SameBlock.complete (kind : CommandKind) :
    s.SameBlock t → (s.complete kind).SameBlock (t.complete kind) :=
  fun (.mk d) => .mk (d.endCommand kind)

theorem State.SameBlock.blockReset : s.SameBlock t → s.blockReset.SameBlock t.blockReset :=
  fun (.mk d) => .mk d.unspecified

/-- A bus step acts on the controller, and nothing comes back (40_bus_protocol.md R121). -/
theorem State.SameBlock.micro (h : s.SameBlock t) (m : Micro) : (s.micro m).SameBlock (t.micro m) := by
  obtain ⟨d⟩ := h
  cases m <;> exact .mk _

theorem State.SameBlock.micros (h : s.SameBlock t) (ms : List Micro) :
    (ms.foldl State.micro s).SameBlock (ms.foldl State.micro t) := by
  induction ms generalizing s t with
  | nil => exact h
  | cons m ms ih => exact ih (h.micro m)

theorem State.SameBlock.runItems (h : s.SameBlock t) (ts : List Item) : (s.runItems ts).SameBlock (t.runItems ts) := by
  simpa only [State.micros_items] using h.micros (ts.flatMap itemMicros)

theorem State.SameBlock.perform (h : s.SameBlock t) (p : Plan) : (s.perform p).SameBlock (t.perform p) := by
  cases p with
  | reject code => exact h.reject code
  | run kind scroll ops =>
    rw [State.perform_run, State.perform_run, h.params, h.assetByte]
    exact ((h.start kind scroll).runItems _).complete kind

theorem State.SameBlock.advance (h : s.SameBlock t) (kind : CommandKind) (ms : List Micro) (ops : List Op) :
    (s.advance kind ms ops).SameBlock (t.advance kind ms ops) := by
  cases ms with
  | cons m ms =>
    simp only [State.advance, h.reread, h.params]
    exact ((h.countRace m.reads).micro (s.reread m)).setSeq _
  | nil =>
    cases ops with
    | nil => exact h.complete kind
    | cons o os =>
      simp only [State.advance, h.opMicros, h.params]
      cases s.opMicros o with
      | nil => exact (h.countRace o.reads).setSeq _
      | cons m ms => exact ((h.countRace o.reads).micro m).setSeq _

theorem State.SameBlock.rejectAfter (h : s.SameBlock t) (code : ErrCode) (left : Nat) :
    (s.rejectAfter code left).SameBlock (t.rejectAfter code left) := by
  cases left with
  | zero => exact h.reject code
  | succ left => exact h.setSeq _

theorem State.SameBlock.begin (h : s.SameBlock t) : s.begin.SameBlock t.begin := by
  simp only [State.begin, h.cmd, h.params, h.scrollOffset]
  cases planWord s.cmd s.params s.scrollOffset with
  | reject code => exact h.rejectAfter code _
  | run kind scroll ops => exact (h.start kind scroll).advance kind [] ops

theorem State.SameBlock.tick (h : s.SameBlock t) : s.tick.SameBlock t.tick := by
  simp only [State.tick, h.seq]
  split
  · exact h.finish
  · exact h.begin
  · exact h.setSeq _
  · exact h.rejectAfter _ _
  · exact h.advance _ _ _
  · exact h.setSeq _

theorem State.SameBlock.edge (h : s.SameBlock t) (rst errClr : Bool) (offer : Option CmdWord) :
    (s.edge rst errClr offer).SameBlock (t.edge rst errClr offer) := by
  cases rst with
  | true => exact h.blockReset
  | false =>
    cases hp : s.phase with
    | busy =>
      rw [State.edge_busy hp, State.edge_busy (h.phase.trans hp)]
      exact (h.clearIf errClr).tick
    | idle =>
      cases offer with
      | none =>
        rw [State.edge_idle_none hp, State.edge_idle_none (h.phase.trans hp)]
        exact h.clearIf errClr
      | some w =>
        rw [State.edge_idle_some hp, State.edge_idle_some (h.phase.trans hp)]
        exact (h.clearIf errClr).accept w

/-- Two outcomes alike but for the controller of the state that a step goes on to. -/
inductive OutcomesAlike : Host.Outcome State Fault Refusal → Host.Outcome State Fault Refusal → Prop where
  | next {s t : State} (h : s.SameBlock t) : OutcomesAlike (.next s) (.next t)
  | fault (f : Fault) : OutcomesAlike (.fault f) (.fault f)

theorem OutcomesAlike.of_next {o : Host.Outcome State Fault Refusal} :
    OutcomesAlike (.next s) o → ∃ d, o = .next { s with controller := d } :=
  fun (.next (.mk d)) => ⟨d, rfl⟩

theorem OutcomesAlike.of_fault {o : Host.Outcome State Fault Refusal} {f : Fault} :
    OutcomesAlike (.fault f) o → o = .fault f :=
  fun (.fault _) => rfl

theorem State.SameBlock.runWord (h : s.SameBlock t) (w : CmdWord) : OutcomesAlike (runWord w s) (runWord w t) := by
  rw [runWord_eq_perform, runWord_eq_perform, h.params, h.scrollOffset]
  exact .next ((h.capture w).perform _)

theorem State.SameBlock.hostWriteChecked (h : s.SameBlock t) (a : AssetAddr) (b : Byte) :
    OutcomesAlike (s.hostWriteChecked a b) (t.hostWriteChecked a b) := by
  unfold State.hostWriteChecked
  rw [h.params]
  split
  · exact .next (h.hostWrite a b)
  · exact .fault _

theorem State.takeCommand_busy (h : s.phase = .busy) (w : CmdWord) (rest : List HostInput) :
    s.takeCommand w rest = .next s.tick := by
  simp only [State.takeCommand, h]

theorem State.takeCommand_idle (h : s.phase = .idle) (w : CmdWord) (rest : List HostInput) :
    s.takeCommand w rest = Machine.runWord w { s with inputs := rest } := by
  simp only [State.takeCommand, h]

theorem State.SameBlock.takeCommand (h : s.SameBlock t) (w : CmdWord) (rest : List HostInput) :
    OutcomesAlike (s.takeCommand w rest) (t.takeCommand w rest) := by
  cases hp : s.phase with
  | busy =>
    rw [State.takeCommand_busy hp, State.takeCommand_busy (h.phase.trans hp)]
    exact .next h.tick
  | idle =>
    rw [State.takeCommand_idle hp, State.takeCommand_idle (h.phase.trans hp)]
    exact (h.setInputs rest).runWord w

/-- Whatever the controller holds, the block's step is the same (40_bus_protocol.md R121). -/
theorem State.SameBlock.step (h : s.SameBlock t) : OutcomesAlike (step s) (step t) := by
  simp only [Machine.step, h.inputs]
  split
  · exact .next (h.edge false false none)
  · next w rest _ => exact h.takeCommand w rest
  · next rst errClr offer rest _ => exact .next ((h.setInputs rest).edge rst errClr offer)
  · next a b rest _ => exact (h.setInputs rest).hostWriteChecked a b

end SameBlock

/-- Settles O19: an item records no error, and a state with another controller is the same block, so its step's outcome
is alike (`State.SameBlock.step`). -/
theorem controllerNeverActsOnBlock : Obligations.ControllerNeverActsOnBlock := by
  intro s c
  have h : OutcomesAlike (step s) (step { s with controller := c }) := State.SameBlock.step (.mk c)
  exact ⟨fun it => ⟨State.runItem_err s it, State.runItem_errCode s it⟩, fun t ht => (ht ▸ h).of_next,
    fun f hf => (hf ▸ h).of_fault⟩

end Sys2Proof.Machine
end

section
/-! Family 41_addressing.md: the window and cursor sequences as register writes, and the window at the reference
controller. -/

namespace Sys2Proof.Machine

/-! ### A command that is a list of items -/

/-- A plain command of items that keeps the scroll offset is its items, and then the command is over. -/
theorem State.perform_items (s : State) (ts : List Item) :
    s.perform (.run .plain s.scrollOffset (ts.map .item)) = (s.runItems ts).finish := by
  rw [State.perform_run, opsItems_items]
  rfl

/-- Items reach nothing of the block but pins and trace. -/
theorem State.runItems_finish_frame (s : State) (ts : List Item) : s.Frame (s.runItems ts).finish where
  params := State.runItems_params s ts
  err := State.runItems_err s ts
  errCode := State.runItems_errCode s ts
  assets := State.runItems_assets s ts
  inputs := State.runItems_inputs s ts
  raceReads := State.runItems_raceReads s ts
  phase := rfl
  seq := rfl
  olds := rfl
  scrollOffset := State.runItems_scrollOffset s ts

/-- The end of a command adds nothing to what items add to the transaction trace of a settled bus. -/
theorem State.runItems_finish_settled (s : State) (ts : List Item) (hs : s.Settled) :
    (s.runItems ts).finish.Settled ∧ (s.runItems ts).finish.transactions = s.transactions ++ itemsTrans ts := by
  obtain ⟨hsettled, htrans⟩ := State.runItems_settled s ts hs
  exact ⟨State.settled_congr (s := s.runItems ts) rfl rfl hsettled, htrans⟩

/-! ### A register write on the bus -/

/-- The high byte of a byte sent as a 16-bit value (40_bus_protocol.md R115). -/
@[simp] theorem hiByte_zext16 (b : Byte) : hiByte (zext16 b.toNat) = 0x00#8 := by
  apply BitVec.eq_of_toNat_eq
  have hb := b.isLt
  simp only [hiByte, zext16, BitVec.extractLsb'_toNat, BitVec.toNat_ofNat, Nat.shiftRight_eq_div_pow]
  omega

/-- The low byte of a byte sent as a 16-bit value. -/
@[simp] theorem loByte_zext16 (b : Byte) : loByte (zext16 b.toNat) = b := by
  apply BitVec.eq_of_toNat_eq
  have hb := b.isLt
  simp only [loByte, zext16, BitVec.extractLsb'_toNat, BitVec.toNat_ofNat, Nat.shiftRight_zero]
  omega

/-- The pins after a register write are those after its byte pair (40_bus_protocol.md R118). -/
theorem State.runItem_reg_pins (s : State) (i : Byte) (v : Half) :
    (s.runItem (.reg i v)).pins =
      { s.pins with d := loByte v, rs := .data, cs := .deasserted, wr := .deasserted } := rfl

/-- The records of a window of bytes (41_addressing.md R130). -/
theorem itemsTrans_setWindowSeq (p : Params) (x0 y0 x1 y1 : Byte) :
    itemsTrans (setWindowSeq p x0.toNat y0.toNat x1.toNat y1.toNat) =
      [ .sel p.regHsa, .data 0x00#8 x0, .sel p.regHea, .data 0x00#8 x1,
        .sel p.regVsa, .data 0x00#8 y0, .sel p.regVea, .data 0x00#8 y1 ] := by
  simp [itemsTrans, setWindowSeq, itemTrans]

/-- The pins after a window of bytes are those after its last register write. -/
theorem State.runItems_setWindowSeq_pins (s : State) (x0 y0 x1 y1 : Byte) :
    (s.runItems (setWindowSeq s.params x0.toNat y0.toNat x1.toNat y1.toNat)).pins =
      { s.pins with d := y1, rs := .data, cs := .deasserted, wr := .deasserted } := by
  simp [setWindowSeq, State.runItem_reg_pins]

/-- SET_WINDOW with bounds in order and on the panel passes its checks (41_addressing.md R131). -/
theorem planSetWindow_run (p : Params) {x0 y0 x1 y1 : Byte} (scroll : Byte) (hx : x0.toNat ≤ x1.toNat)
    (hy : y0.toNat ≤ y1.toNat) (hw : x1.toNat < 176) (hh : y1.toNat < 220) :
    planSetWindow p x0 y0 x1 y1 scroll =
      .run .plain scroll ((setWindowSeq p x0.toNat y0.toNat x1.toNat y1.toNat).map .item) := by
  have hOrder : ¬(x0.toNat > x1.toNat ∨ y0.toNat > y1.toNat) := by omega
  have hPanel : onPanel x1.toNat y1.toNat = true := by simp [onPanel, panelW, panelH, hw, hh]
  simp [planSetWindow, hOrder, hPanel]

/-- Settles O22: the checks pass (`planSetWindow_run`), so the command is its items (`State.perform_items`), whose pins,
frame and records are those of four register writes. -/
theorem setWindowResult : Obligations.SetWindowResult := by
  intro x0 y0 x1 y1 s hx hy hw hh
  have hexec : exec (.setWindow x0 y0 x1 y1) s =
      .next (s.runItems (setWindowSeq s.params x0.toNat y0.toNat x1.toNat y1.toNat)).finish := by
    rw [← State.perform_items, ← planSetWindow_run s.params s.scrollOffset hx hy hw hh]
    exact exec_eq_perform _ s
  refine ⟨_, hexec, State.runItems_setWindowSeq_pins s x0 y0 x1 y1, rfl, State.runItems_finish_frame s _, fun hs => ?_⟩
  rw [← itemsTrans_setWindowSeq]
  exact State.runItems_finish_settled s _ hs

/-! ### Register writes at the reference controller -/

/-- The controller after a register write, whatever its byte phase was: the select starts a new pair
(20_memory.md R66). -/
theorem State.runItem_reg_controller (s : State) (i : Byte) (v : Half) :
    (s.runItem (.reg i v)).controller = s.controller.item s.params (.reg i v) := by
  have hsel := State.runItem_sel_controller s i
  rw [State.runItem_reg, State.runItem_data_controller _ _ _ (by rw [hsel]), hsel, State.runItem_params]
  simp only [Controller.item, hiByte_append_loByte]
  rfl

/-- The controller after items that start with a register write, whatever its byte phase was. -/
theorem State.runItems_reg_controller (s : State) (i : Byte) (v : Half) (ts : List Item) :
    (s.runItems (.reg i v :: ts)).controller =
      ts.foldl (Controller.item s.params) (s.controller.item s.params (.reg i v)) := by
  have hreg := State.runItem_reg_controller s i v
  have hph : (s.runItem (.reg i v)).controller.ph = .high := by simp [hreg, Controller.item]
  rw [State.runItems_cons, State.runItems_controller _ ts hph, hreg, State.runItem_params]

/-- `SetWindowSeq` at the controller: the four bounds, with the last register and its high byte left behind
(41_addressing.md R132). -/
theorem State.runItems_setWindowSeq_controller (s : State) (hd : RegsDistinct s.params) (x0 y0 x1 y1 : Nat) :
    (s.runItems (setWindowSeq s.params x0 y0 x1 y1)).controller =
      { s.controller with
        ir := s.params.regVea, ph := .high, hold := hiByte (zext16 y1),
        hsa := zext16 x0, hea := zext16 x1, vsa := zext16 y0, vea := zext16 y1 } := by
  rw [setWindowSeq, State.runItems_reg_controller]
  simp only [List.foldl_cons, List.foldl_nil, Controller.item, Controller.regWrite_hsa, Controller.regWrite_hea _ hd,
    Controller.regWrite_vsa _ hd, Controller.regWrite_vea _ hd]
  rfl

/-- `SetCursorSeq` at the controller: the address counter, with the last register and its high byte left behind
(41_addressing.md R132). -/
theorem State.runItems_setCursorSeq_controller (s : State) (hd : RegsDistinct s.params) (x y : Nat) :
    (s.runItems (setCursorSeq s.params x y)).controller =
      { s.controller with
        ir := s.params.regCury, ph := .high, hold := hiByte (zext16 y), acx := zext16 x, acy := zext16 y } := by
  rw [setCursorSeq, State.runItems_reg_controller]
  simp only [List.foldl_cons, List.foldl_nil, Controller.item, Controller.regWrite_curx _ hd,
    Controller.regWrite_cury _ hd]
  rfl

/-- A 16-bit value is sent whole. -/
theorem zext16_toNat {n : Nat} (h : n < 65536) : (zext16 n).toNat = n := Nat.mod_eq_of_lt h

/-- Settles O24: the whole controller after each sequence (`State.runItems_setWindowSeq_controller`,
`State.runItems_setCursorSeq_controller`), read field by field. -/
theorem windowReachesController : Obligations.WindowReachesController := by
  intro s x0 y0 x1 y1 hd hx0 hy0 hx1 hy1
  rw [State.runItems_setWindowSeq_controller s hd, State.runItems_setCursorSeq_controller s hd]
  exact ⟨⟨zext16_toNat hx0, zext16_toNat hx1, zext16_toNat hy0, zext16_toNat hy1, rfl, rfl, rfl, rfl⟩,
    zext16_toNat hx0, zext16_toNat hy0, rfl, rfl⟩

end Sys2Proof.Machine
end

section
/-! Family 43_sprite.md: the packed indices, and what the transactions of a tile count up to. -/

namespace Sys2Proof.Machine

/-! ### Packed indices -/

/-- The eight 3-bit fields of three bytes put together, most significant byte first (43_sprite.md R160). -/
theorem extractLsb'_threeBytes (h m l : Byte) :
    (h ++ m ++ l).extractLsb' 21 3 = h.extractLsb' 5 3 ∧
    (h ++ m ++ l).extractLsb' 18 3 = h.extractLsb' 2 3 ∧
    (h ++ m ++ l).extractLsb' 15 3 = h.extractLsb' 0 2 ++ m.extractLsb' 7 1 ∧
    (h ++ m ++ l).extractLsb' 12 3 = m.extractLsb' 4 3 ∧
    (h ++ m ++ l).extractLsb' 9 3 = m.extractLsb' 1 3 ∧
    (h ++ m ++ l).extractLsb' 6 3 = m.extractLsb' 0 1 ++ l.extractLsb' 6 2 ∧
    (h ++ m ++ l).extractLsb' 3 3 = l.extractLsb' 3 3 ∧
    (h ++ m ++ l).extractLsb' 0 3 = l.extractLsb' 0 3 := by
  simp [↓BitVec.extractLsb'_append_eq_ite]

/-- Settles O33: the eight fields (`extractLsb'_threeBytes`) of the bytes in order for one order of packing, of the
bytes reversed for the other. -/
theorem unpackBitRanges : Obligations.UnpackBitRanges := by
  intro b0 b1 b2
  obtain ⟨m0, m1, m2, m3, m4, m5, m6, m7⟩ := extractLsb'_threeBytes b0 b1 b2
  obtain ⟨l7, l6, l5, l4, l3, l2, l1, l0⟩ := extractLsb'_threeBytes b2 b1 b0
  exact ⟨m0, m1, m2, m3, m4, m5, m6, m7, l0, l1, l2, l3, l4, l5, l6, l7, fun _ _ _ => ⟨rfl, rfl⟩⟩

/-! ### A tile as placements of the cursor and colour writes -/

/-- What the bus sequence of a tile is made of after its window: a placement of the cursor followed by the select of
`REG_GRAM`, or a colour write (43_sprite.md R164, R166, R167). -/
inductive Stroke where
  | place (x y : Nat)
  | color (c : Half)

/-- The items of a stroke; a placement has those of the correction. -/
def Stroke.items (p : Params) : Stroke → List Item
  | .place x y => correction p x y
  | .color c => [colorItem c]

/-- The colour a stroke writes. -/
def Stroke.color? : Stroke → Option Half
  | .place _ _ => none
  | .color c => some c

/-- The stroke of an output pixel of index `idx` (43_sprite.md R166, R167). -/
def pixelStroke (p : Params) (pal : Byte) (idx : BitVec 3) (nextX yrow : Nat) : Stroke :=
  if idx = transparentIndex then .place nextX yrow else .color (palRead p pal idx)

/-- The strokes of an output row that shows source row `r` (43_sprite.md R164). -/
def State.rowStrokes (s : State) (x yrow scale a r : Nat) (pal : Byte) (fh : Bool) : List Stroke :=
  .place x yrow :: (List.range 8).flatMap fun q => (List.range scale).map fun k =>
    pixelStroke s.params pal (s.sourceIndex a r q fh) (x + (q * scale + k) + 1) yrow

/-- The strokes of a tile, in order (43_sprite.md R168). -/
def State.tileStrokes (s : State) (x y scale a : Nat) (pal : Byte) (fv fh : Bool) : List Stroke :=
  (List.range 8).flatMap fun r => (List.range scale).flatMap fun rep =>
    s.rowStrokes x (yrowOf y (8 * scale) (r * scale + rep) fv) scale a r pal fh

theorem opsItems_flatMap {α : Type} (p : Params) (rd : Nat → Byte) (l : List α) (f : α → List Op) :
    opsItems p rd (l.flatMap f) = l.flatMap fun a => opsItems p rd (f a) := List.flatMap_assoc

/-- The items of an output pixel are those of its stroke. -/
theorem pixelItems_eq (p : Params) (rd : Nat → Byte) (px : PixelOp) :
    pixelItems p rd px = (pixelStroke p px.pal (pixelIndex p rd px) px.nextX px.yrow).items p := by
  unfold pixelItems pixelStroke
  split <;> rfl

/-- The items of an output row are those of its strokes. -/
theorem State.opsItems_tileRow (s : State) (x yrow scale a r : Nat) (pal : Byte) (fh : Bool) :
    opsItems s.params s.assetByte (tileRow s.params x yrow scale (a + 3 * r) pal fh) =
      (s.rowStrokes x yrow scale a r pal fh).flatMap (Stroke.items s.params) := by
  rw [tileRow, opsItems_append, opsItems_items, opsItems_flatMap]
  simp only [State.rowStrokes, ← List.map_coe_finRange_eq_range, List.flatMap_cons, List.flatMap_assoc, opsItems,
    List.flatMap_map, Op.items, pixelItems_eq]
  rfl

/-- The items of a tile are its window and then those of its strokes (43_sprite.md R168). -/
theorem State.opsItems_tileBody (s : State) (x y scale a : Nat) (pal : Byte) (fv fh : Bool) :
    opsItems s.params s.assetByte (tileBody s.params x y scale a pal fv fh) =
      setWindowSeq s.params x y (x + 8 * scale - 1) (y + 8 * scale - 1) ++
        (s.tileStrokes x y scale a pal fv fh).flatMap (Stroke.items s.params) := by
  simp only [tileBody, opsItems_append, opsItems_items, opsItems_flatMap, State.opsItems_tileRow,
    State.tileStrokes, List.flatMap_assoc]

/-! ### Placements and colours among strokes -/

/-- The number of placements among strokes. -/
def placements (ss : List Stroke) : Nat := ss.countP (·.color?.isNone)

/-- The colours that strokes write, in order. -/
def strokeColors (ss : List Stroke) : List Half := ss.filterMap Stroke.color?

@[simp] theorem placements_place (x y : Nat) (ss : List Stroke) :
    placements (.place x y :: ss) = placements ss + 1 := List.countP_cons_of_pos rfl

@[simp] theorem placements_color (c : Half) (ss : List Stroke) : placements (.color c :: ss) = placements ss := rfl

@[simp] theorem strokeColors_place (x y : Nat) (ss : List Stroke) :
    strokeColors (.place x y :: ss) = strokeColors ss := rfl

@[simp] theorem strokeColors_color (c : Half) (ss : List Stroke) :
    strokeColors (.color c :: ss) = c :: strokeColors ss := rfl

theorem placements_flatMap {α : Type} (l : List α) (f : α → List Stroke) :
    placements (l.flatMap f) = (l.map fun a => placements (f a)).sum := List.countP_flatMap

theorem length_eq_placements_add_colors (ss : List Stroke) :
    ss.length = placements ss + (strokeColors ss).length := by
  induction ss with
  | nil => rfl
  | cons st ss ih =>
    cases st with
    | place x y => rw [List.length_cons, ih, placements_place, strokeColors_place, Nat.add_right_comm]
    | color c => rw [List.length_cons, ih, placements_color, strokeColors_color, List.length_cons, Nat.add_assoc]

/-- Where each element gives `m` hits or none, the hits are `m` for each element that gives some. -/
theorem countP_flatMap_of_const {α β : Type} (P : β → Bool) (Q : α → Bool) (l : List α) (f : α → List β)
    (m : Nat) (h : ∀ a ∈ l, (f a).countP P = if Q a then m else 0) : (l.flatMap f).countP P = m * l.countP Q := by
  induction l with
  | nil => rfl
  | cons a l ih =>
    obtain ⟨ha, hl⟩ := List.forall_mem_cons.1 h
    rw [List.flatMap_cons, List.countP_append, ha, ih hl, List.countP_cons]
    split <;> ring

/-- An output pixel is a placement exactly when it is transparent. -/
theorem pixelStroke_isNone (p : Params) (pal : Byte) (idx : BitVec 3) (nextX yrow : Nat) :
    (pixelStroke p pal idx nextX yrow).color?.isNone = (idx == 7#3) := by
  unfold pixelStroke transparentIndex
  split
  · next hidx => simp [Stroke.color?, hidx]
  · next hidx => simp [Stroke.color?, hidx]

/-- The number of transparent source pixels of a tile row. -/
def State.rowTransparent (s : State) (a r : Nat) (fh : Bool) : Nat :=
  (List.range 8).countP fun q => s.sourceIndex a r q fh == 7#3

/-- An output row places the cursor once at its start and `scale` times for each transparent source pixel. -/
theorem State.placements_rowStrokes (s : State) (x yrow scale a r : Nat) (pal : Byte) (fh : Bool) :
    placements (s.rowStrokes x yrow scale a r pal fh) = scale * s.rowTransparent a r fh + 1 := by
  rw [State.rowStrokes, placements_place]
  refine congrArg (· + 1) (countP_flatMap_of_const _ (fun q => s.sourceIndex a r q fh == 7#3) _ _ scale fun q _ => ?_)
  cases hq : s.sourceIndex a r q fh == 7#3 <;> simp [Function.comp_def, List.countP_map, pixelStroke_isNone, hq]

/-- The horizontal flip reads the row from the other end (43_sprite.md R162). -/
theorem State.sourceIndex_flip (s : State) (a r q : Nat) :
    s.sourceIndex a r q true = s.sourceIndex a r (7 - q) false := rfl

/-- The horizontal flip permutes a row's pixels. -/
theorem State.rowTransparent_flip (s : State) (a r : Nat) (fh : Bool) :
    s.rowTransparent a r fh = s.rowTransparent a r false := by
  cases fh with
  | false => rfl
  | true =>
    have hperm : ((List.range 8).map (7 - ·)).Perm (List.range 8) := by decide
    exact (List.countP_map ..).symm.trans (hperm.countP_eq fun q => s.sourceIndex a r q false == 7#3)

/-- The tile's transparent source pixels, row by row. -/
theorem State.transparentPixels_eq (s : State) (a : Nat) (fh : Bool) :
    s.transparentPixels a = ((List.range 8).map fun r => s.rowTransparent a r fh).sum := by
  have hrange : List.range 64 = (List.range 8).flatMap fun r => (List.range 8).map (8 * r + ·) := rfl
  rw [State.transparentPixels, hrange, List.countP_flatMap]
  refine congrArg List.sum (List.map_congr_left fun r _ => ?_)
  rw [State.rowTransparent_flip, Function.comp_apply, List.countP_map]
  refine List.countP_congr fun q hq => ?_
  have hq8 : q < 8 := List.mem_range.1 hq
  have hdiv : (8 * r + q) / 8 = r := by omega
  have hmod : (8 * r + q) % 8 = q := by omega
  simp [hdiv, hmod]

/-- A tile places the cursor once for each of its `8 * scale` output rows and once for each transparent output pixel. -/
theorem State.placements_tileStrokes (s : State) (x y scale a : Nat) (pal : Byte) (fv fh : Bool) :
    placements (s.tileStrokes x y scale a pal fv fh) = 8 * scale + scale * scale * s.transparentPixels a := by
  have hrows : placements (s.tileStrokes x y scale a pal fv fh) =
      ((List.range 8).map fun r => scale * (scale * s.rowTransparent a r fh + 1)).sum := by
    simp [State.tileStrokes, placements_flatMap, State.placements_rowStrokes]
  have hones : ((List.range 8).map fun _ => 1).sum = 8 := rfl
  rw [hrows, s.transparentPixels_eq a fh, List.sum_map_mul_left, List.sum_map_add, List.sum_map_mul_left, hones]
  ring

/-- A tile has a stroke for each output row and one for each output pixel. -/
theorem State.length_tileStrokes (s : State) (x y scale a : Nat) (pal : Byte) (fv fh : Bool) :
    (s.tileStrokes x y scale a pal fv fh).length = 8 * scale + 8 * scale * (8 * scale) := by
  simp only [State.tileStrokes, State.rowStrokes, List.length_flatMap, List.length_cons, List.length_map,
    List.length_range, List.map_const', List.sum_replicate, smul_eq_mul]
  ring

/-- An output pixel that is not transparent is one colour write (43_sprite.md R172). -/
theorem State.length_tileColors (s : State) (x y scale a : Nat) (pal : Byte) (fv fh : Bool) :
    (strokeColors (s.tileStrokes x y scale a pal fv fh)).length + scale * scale * s.transparentPixels a =
      8 * scale * (8 * scale) := by
  have h := length_eq_placements_add_colors (s.tileStrokes x y scale a pal fv fh)
  rw [s.length_tileStrokes, s.placements_tileStrokes] at h
  omega

/-! ### Counting the records of a tile -/

/-- Records counted in strokes, where every placement has `h` of them and every colour write `d`. -/
theorem countP_itemsTrans_strokes {p : Params} {P : Trans → Bool} {h d : Nat}
    (hplace : ∀ x y, (itemsTrans (correction p x y)).countP P = h) (hcolor : ∀ c, [colorTrans c].countP P = d)
    (ss : List Stroke) :
    (itemsTrans (ss.flatMap (Stroke.items p))).countP P = h * placements ss + d * (strokeColors ss).length := by
  induction ss with
  | nil => rfl
  | cons st ss ih =>
    rw [List.flatMap_cons, itemsTrans_append, List.countP_append, ih]
    cases st with
    | place x y =>
      rw [Stroke.items, hplace, placements_place, strokeColors_place]
      ring
    | color c =>
      have hc : (itemsTrans (Stroke.items p (.color c))).countP P = d := hcolor c
      rw [hc, placements_color, strokeColors_color, List.length_cons]
      ring

/-- Records counted in a tile, where its window has `w` of them, every placement `h` and every colour write `d`. -/
theorem State.countP_tile (s : State) {P : Trans → Bool} {w h d : Nat}
    (hwindow : ∀ x0 y0 x1 y1, (itemsTrans (setWindowSeq s.params x0 y0 x1 y1)).countP P = w)
    (hplace : ∀ x y, (itemsTrans (correction s.params x y)).countP P = h)
    (hcolor : ∀ c, [colorTrans c].countP P = d) (x y scale a : Nat) (pal : Byte) (fv fh : Bool) :
    (itemsTrans (opsItems s.params s.assetByte (tileBody s.params x y scale a pal fv fh))).countP P =
      w + h * (8 * scale + scale * scale * s.transparentPixels a) +
        d * (strokeColors (s.tileStrokes x y scale a pal fv fh)).length := by
  rw [s.opsItems_tileBody, itemsTrans_append, List.countP_append, hwindow, countP_itemsTrans_strokes hplace hcolor,
    s.placements_tileStrokes, Nat.add_assoc]

/-- The selects of a register that no window selects and each placement selects once are the placements. -/
theorem State.count_sel_tile (s : State) {i : Byte}
    (hwindow : ∀ j ∈ [s.params.regHsa, s.params.regHea, s.params.regVsa, s.params.regVea], j ≠ i)
    (hplace : [s.params.regCurx, s.params.regCury, s.params.regGram].count i = 1) (x y scale a : Nat) (pal : Byte)
    (fv fh : Bool) :
    (itemsTrans (opsItems s.params s.assetByte (tileBody s.params x y scale a pal fv fh))).count (.sel i) =
      8 * scale + scale * scale * s.transparentPixels a := by
  rw [List.count, s.countP_tile (w := 0) (h := 1) (d := 0)]
  · ring
  · simp only [List.forall_mem_cons] at hwindow
    simp [itemsTrans, setWindowSeq, itemTrans, hwindow]
  · simpa [itemsTrans, correction, setCursorSeq, itemTrans, List.count_cons, List.countP_cons] using hplace
  · simp [colorTrans]

/-- A tile's writes of the cursor's column are its placements. -/
theorem State.count_regCurx_tile (s : State) (hd : RegsDistinct s.params) (x y scale a : Nat) (pal : Byte)
    (fv fh : Bool) :
    (itemsTrans (opsItems s.params s.assetByte (tileBody s.params x y scale a pal fv fh))).count
        (.sel s.params.regCurx) = 8 * scale + scale * scale * s.transparentPixels a := by
  have hcury : s.params.regCury ≠ s.params.regCurx := fun h => by simp [RegsDistinct, h] at hd
  have hgram : s.params.regGram ≠ s.params.regCurx := fun h => by simp [RegsDistinct, h] at hd
  simp only [RegsDistinct, List.nodup_cons, List.mem_cons, not_or] at hd
  exact s.count_sel_tile (by simp [hd]) (by simp [hcury, hgram]) ..

/-- A tile's selects of `REG_GRAM` are its placements. -/
theorem State.count_regGram_tile (s : State) (hd : RegsDistinct s.params) (x y scale a : Nat) (pal : Byte)
    (fv fh : Bool) :
    (itemsTrans (opsItems s.params s.assetByte (tileBody s.params x y scale a pal fv fh))).count
        (.sel s.params.regGram) = 8 * scale + scale * scale * s.transparentPixels a := by
  simp only [RegsDistinct, List.nodup_cons, List.mem_cons, not_or] at hd
  exact s.count_sel_tile (by simp [hd]) (by simp [hd]) ..

/-! ### The colours of a tile -/

/-- One record of the reading of `gramColors`: whether `g` is selected, and the colours so far. -/
def colorStep (g : Byte) (acc : Bool × List Trans) : Trans → Bool × List Trans
  | .sel i => (i == g, acc.2)
  | .data h l => (acc.1, if acc.1 then acc.2 ++ [.data h l] else acc.2)

theorem gramColors_eq (g : Byte) (ts : List Trans) : gramColors g ts = (ts.foldl (colorStep g) (false, [])).2 := rfl

/-- A window writes no colour and leaves another register selected. -/
theorem colorSteps_window {p : Params} (hd : RegsDistinct p) (x0 y0 x1 y1 : Nat) (acc : Bool × List Trans) :
    (itemsTrans (setWindowSeq p x0 y0 x1 y1)).foldl (colorStep p.regGram) acc = (false, acc.2) := by
  simp only [RegsDistinct, List.nodup_cons, List.mem_cons, not_or] at hd
  simp [itemsTrans, setWindowSeq, itemTrans, colorStep, hd]

/-- A placement writes no colour and leaves `REG_GRAM` selected. -/
theorem colorSteps_correction {p : Params} (hd : RegsDistinct p) (x y : Nat) (acc : Bool × List Trans) :
    (itemsTrans (correction p x y)).foldl (colorStep p.regGram) acc = (true, acc.2) := by
  simp only [RegsDistinct, List.nodup_cons, List.mem_cons, not_or] at hd
  simp [itemsTrans, correction, setCursorSeq, itemTrans, colorStep, hd]

/-- With `REG_GRAM` selected strokes write their colours. -/
theorem colorSteps_strokes {p : Params} (hd : RegsDistinct p) (ss : List Stroke) (cs : List Trans) :
    (itemsTrans (ss.flatMap (Stroke.items p))).foldl (colorStep p.regGram) (true, cs) =
      (true, cs ++ (strokeColors ss).map colorTrans) := by
  induction ss generalizing cs with
  | nil => exact congrArg _ (List.append_nil cs).symm
  | cons st ss ih =>
    rw [List.flatMap_cons, itemsTrans_append, List.foldl_append]
    cases st with
    | place x y => rw [Stroke.items, colorSteps_correction hd, ih, strokeColors_place]
    | color c =>
      refine (ih (cs ++ [colorTrans c])).trans ?_
      simp

/-- A tile's first stroke is the placement of its first row, so that `REG_GRAM` is selected before any colour. -/
theorem State.tileStrokes_eq_place_cons (s : State) (x y : Nat) {scale : Nat} (hscale : 1 ≤ scale) (a : Nat)
    (pal : Byte) (fv fh : Bool) :
    ∃ y' ss, s.tileStrokes x y scale a pal fv fh = .place x y' :: ss := by
  obtain ⟨n, rfl⟩ : ∃ n, scale = n + 1 := ⟨scale - 1, by omega⟩
  simp [State.tileStrokes, List.range_succ_eq_map, State.rowStrokes]

/-- The colour writes of a tile are the colours of its strokes. -/
theorem State.gramColors_tile (s : State) (hd : RegsDistinct s.params) (x y : Nat) {scale : Nat} (hscale : 1 ≤ scale)
    (a : Nat) (pal : Byte) (fv fh : Bool) :
    gramColors s.params.regGram
        (itemsTrans (opsItems s.params s.assetByte (tileBody s.params x y scale a pal fv fh))) =
      (strokeColors (s.tileStrokes x y scale a pal fv fh)).map colorTrans := by
  obtain ⟨y', ss, hss⟩ := s.tileStrokes_eq_place_cons x y hscale a pal fv fh
  rw [s.opsItems_tileBody, hss, itemsTrans_append, List.flatMap_cons, itemsTrans_append, gramColors_eq,
    List.foldl_append, List.foldl_append, colorSteps_window hd, Stroke.items, colorSteps_correction hd,
    colorSteps_strokes hd]
  rfl

/-! ### DRAW_TILE -/

/-- DRAW_TILE that passes its checks runs `TileBody` (43_sprite.md R170). -/
theorem planDrawTile_run {p : Params} {x y scale pal : Byte} (hf : TileFits p x y scale pal (8 * scale.toNat))
    {addr : AssetAddr} (ha : addr.toNat + 23 < assetBytes p) (fv fh : Bool) (scroll : Byte) :
    planDrawTile p x y scale pal addr fv fh scroll =
      .run .drawing scroll (tileBody p x.toNat y.toNat scale.toNat addr.toNat pal fv fh) := by
  obtain ⟨hscale, hpal, hright, hbottom⟩ := hf
  have hs : scale.toNat ≠ 0 := by omega
  rw [planDrawTile, if_neg hs]
  simp [palOk, tileAddrOk, fitsPanel, panelW, panelH, hpal, ha, hright, hbottom]

/-- DRAW_TILE that passes its checks adds the records of `TileBody` to the transaction trace of a settled bus. -/
theorem exec_drawTile_transactions {s : State} (hs : s.Settled) {x y scale pal : Byte}
    (hf : TileFits s.params x y scale pal (8 * scale.toNat)) {addr : AssetAddr}
    (ha : addr.toNat + 23 < assetBytes s.params) (fv fh : Bool) :
    ∃ t, exec (.drawTile x y scale pal addr fv fh) s = .next t ∧ t.transactions = s.transactions ++
      itemsTrans (opsItems s.params s.assetByte
        (tileBody s.params x.toNat y.toNat scale.toNat addr.toNat pal fv fh)) := by
  refine ⟨_, exec_eq_perform _ s, ?_⟩
  rw [planOf, planDrawTile_run hf ha]
  exact (s.perform_run_settled _ _ _ hs).2

/-- Settles O38: a tile is its window, `S + T` placements (`State.placements_tileStrokes`) and a colour write for each
opaque output pixel (`State.length_tileColors`); the counts are sums over these (`State.countP_tile`). -/
theorem tileCounts : Obligations.TileCounts := by
  intro x y scale pal addr fv fh s hd hs hf ha
  obtain ⟨t, hexec, htrans⟩ := exec_drawTile_transactions hs hf ha fv fh
  have hcolors := s.length_tileColors x.toNat y.toNat scale.toNat addr.toNat pal fv fh
  dsimp only
  refine ⟨t, _, hexec, htrans, ?_, s.count_regCurx_tile hd .., ?_, ?_, s.count_regGram_tile hd ..⟩
  · rw [s.gramColors_tile hd _ _ hf.scale, List.length_map]
    exact hcolors
  · rw [countSel, s.countP_tile (w := 4) (h := 3) (d := 0) (fun _ _ _ _ => rfl) (fun _ _ => rfl) (fun _ => rfl)]
    omega
  · rw [countData, s.countP_tile (w := 4) (h := 2) (d := 1) (fun _ _ _ _ => rfl) (fun _ _ => rfl) (fun _ => rfl)]
    omega

/-- Each colour of a tile is the palette entry of one of its source pixels. -/
theorem State.mem_tileColors {s : State} {x y scale a : Nat} {pal : Byte} {fv fh : Bool} {c : Half}
    (hc : c ∈ strokeColors (s.tileStrokes x y scale a pal fv fh)) :
    ∃ r < 8, ∃ q < 8, c = palRead s.params pal (s.sourceIndex a r q fh) := by
  obtain ⟨st, hst, hcolor⟩ := List.mem_filterMap.1 hc
  simp only [State.tileStrokes, State.rowStrokes, List.mem_flatMap, List.mem_cons, List.mem_map, List.mem_range] at hst
  obtain ⟨r, hr, _, _, rfl | ⟨q, hq, _, _, rfl⟩⟩ := hst
  · cases hcolor
  · refine ⟨r, hr, q, hq, ?_⟩
    unfold pixelStroke at hcolor
    split at hcolor
    · cases hcolor
    · exact (Option.some.inj hcolor).symm

/-- Settles O39: without transparent pixels there are `S * S` colours (`State.length_tileColors`), each the one palette
entry (`State.mem_tileColors`), and no placement beyond the one of each row (`State.count_regCurx_tile`). -/
theorem singleIndexTile : Obligations.SingleIndexTile := by
  intro x y scale pal addr fv fh k s hd hs hf ha hk hidx
  obtain ⟨t, hexec, htrans⟩ := exec_drawTile_transactions hs hf ha fv fh
  have hopaque : s.transparentPixels addr.toNat = 0 := by
    refine List.countP_eq_zero.2 fun n hn => ?_
    have hn64 : n < 64 := List.mem_range.1 hn
    simp [hidx (n / 8) (by omega) (n % 8) (by omega), hk]
  have hcolor : ∀ c ∈ strokeColors (s.tileStrokes x.toNat y.toNat scale.toNat addr.toNat pal fv fh),
      c = palRead s.params pal k := by
    intro c hc
    obtain ⟨r, hr, q, hq, rfl⟩ := State.mem_tileColors hc
    cases fh with
    | false => rw [hidx r hr q hq]
    | true => rw [State.sourceIndex_flip, hidx r hr (7 - q) (by omega)]
  have hlength := s.length_tileColors x.toNat y.toNat scale.toNat addr.toNat pal fv fh
  have hcursors := s.count_regCurx_tile hd x.toNat y.toNat scale.toNat addr.toNat pal fv fh
  rw [hopaque] at hlength hcursors
  refine ⟨t, _, hexec, htrans, ?_, hcursors⟩
  rw [s.gramColors_tile hd _ _ hf.scale, List.eq_replicate_iff.2 ⟨hlength, hcolor⟩, List.map_replicate]

end Sys2Proof.Machine
end

section
/-! Family 44_scroll_init.md: the scroll arithmetic, and who drives the lines RST and BL. -/

namespace Sys2Proof

/-- The item drives neither RST nor BL (44_scroll_init.md R196). -/
def Item.SparesRstBl : Item → Prop
  | .sel _ | .data _ _ | .reg _ _ | .delay _ => True
  | .rst _ | .bl _ => False

end Sys2Proof

namespace Sys2Proof.Machine

/-! ### Scroll arithmetic -/

theorem scrollNext_toNat {v : Byte} (h : v.toNat ≤ 218) :
    (scrollNext v).toNat = if v.toNat = 218 then 0 else v.toNat + 1 := by
  have hv : v = 218#8 ↔ v.toNat = 218 := by bv_omega
  simp only [scrollNext, scrollMax, hv]
  split <;> bv_omega

theorem scrollPrev_toNat {v : Byte} (h : v.toNat ≤ 218) :
    (scrollPrev v).toNat = if v.toNat = 0 then 218 else v.toNat - 1 := by
  have hv : v = 0#8 ↔ v.toNat = 0 := by bv_omega
  simp only [scrollPrev, scrollMax, hv]
  split <;> bv_omega

theorem scrollPrev_scrollNext {v : Byte} (h : v.toNat ≤ 218) : scrollPrev (scrollNext v) = v := by
  apply BitVec.eq_of_toNat_eq
  rw [scrollPrev_toNat (scrollNext_le v h), scrollNext_toNat h]
  by_cases hv : v.toNat = 218 <;> simp [hv]

theorem scrollNext_scrollPrev {v : Byte} (h : v.toNat ≤ 218) : scrollNext (scrollPrev v) = v := by
  apply BitVec.eq_of_toNat_eq
  rw [scrollNext_toNat (scrollPrev_le v h), scrollPrev_toNat h]
  split_ifs <;> omega

/-- On [0, 218] `Next` counts modulo 219 (44_scroll_init.md R191). -/
theorem scrollNext_iterate_toNat {v : Byte} (h : v.toNat ≤ 218) (n : Nat) :
    (scrollNext^[n] v).toNat = (v.toNat + n) % 219 := by
  induction n with
  | zero => exact (Nat.mod_eq_of_lt (Nat.lt_succ_of_le h)).symm
  | succ n ih =>
    rw [Function.iterate_succ_apply', scrollNext_toNat (by omega), ih]
    split_ifs <;> omega

/-- Settles O44: the values of `Next` and `Prev` on [0, 218] give the ranges and the inverses, and the period is that of
counting modulo 219 (`scrollNext_iterate_toNat`). -/
theorem scrollArithmetic : Obligations.ScrollArithmetic := by
  intro v h
  have hperiod : scrollNext^[219] v = v := by
    apply BitVec.eq_of_toNat_eq
    rw [scrollNext_iterate_toNat h]
    omega
  exact ⟨scrollNext_toNat h, scrollPrev_toNat h, scrollNext_le v h, scrollPrev_le v h, scrollPrev_scrollNext h,
    scrollNext_scrollPrev h, hperiod⟩

/-! ### An item's actions and the lines RST and BL -/

/-- A sequencer action that names neither RST nor BL. -/
def Micro.SparesRstBl : Micro → Prop
  | .step _ c => c.rst = none ∧ c.bl = none
  | .wait _ => True
  | .color _ _ _ => True

theorem selSteps_sparesRstBl (i : Byte) : ∀ m ∈ selSteps i, m.SparesRstBl := by
  simp [selSteps, Micro.SparesRstBl]

theorem dataSteps_sparesRstBl (h l : Byte) : ∀ m ∈ dataSteps h l, m.SparesRstBl := by
  simp [dataSteps, Micro.SparesRstBl]

theorem itemMicros_sparesRstBl {it : Item} (hit : it.SparesRstBl) : ∀ m ∈ itemMicros it, m.SparesRstBl := by
  cases it with
  | sel i => exact selSteps_sparesRstBl i
  | data h l => exact dataSteps_sparesRstBl h l
  | reg i v => exact List.forall_mem_append.mpr ⟨selSteps_sparesRstBl i, dataSteps_sparesRstBl (hiByte v) (loByte v)⟩
  | delay _ => simp [itemMicros, Micro.SparesRstBl]
  | rst _ | bl _ => exact hit.elim

/-- A step that names RST or BL is that of the item for the line (44_scroll_init.md R196). -/
theorem item_of_step_names {it : Item} {k : StepName} {c : PinChange} (hm : .step k c ∈ itemMicros it) :
    (c.rst ≠ none → ∃ a, it = .rst a) ∧ (c.bl ≠ none → ∃ b, it = .bl b) := by
  cases it with
  | sel _ | data _ _ | reg _ _ | delay _ =>
    obtain ⟨hrst, hbl⟩ := itemMicros_sparesRstBl (by trivial) _ hm
    exact ⟨fun h => absurd hrst h, fun h => absurd hbl h⟩
  | rst a =>
    obtain ⟨-, rfl⟩ : k = .rstLine ∧ c = { rst := some a } := by simpa [itemMicros] using hm
    exact ⟨fun _ => ⟨a, rfl⟩, fun h => absurd rfl h⟩
  | bl b =>
    obtain ⟨-, rfl⟩ : k = .blLine ∧ c = { bl := some b } := by simpa [itemMicros] using hm
    exact ⟨fun h => absurd rfl h, fun _ => ⟨b, rfl⟩⟩

/-! ### The lines after items -/

/-- RST after items is as the last item for it says (44_scroll_init.md R196). -/
theorem State.runItems_rst (s : State) (ts : List Item) : (s.runItems ts).pins.rst = lastRst s.pins.rst ts := by
  induction ts generalizing s with
  | nil => rfl
  | cons t ts ih =>
    have ht : (s.runItem t).pins.rst = lastRst s.pins.rst [t] := by cases t <;> rfl
    rw [State.runItems_cons, ih, ht]
    rfl

/-- BL after items is as the last item for it says (44_scroll_init.md R196). -/
theorem State.runItems_bl (s : State) (ts : List Item) : (s.runItems ts).pins.bl = lastBl s.pins.bl ts := by
  induction ts generalizing s with
  | nil => rfl
  | cons t ts ih =>
    have ht : (s.runItem t).pins.bl = lastBl s.pins.bl [t] := by cases t <;> rfl
    rw [State.runItems_cons, ih, ht]
    rfl

/-- Items that spare the lines leave them as they were. -/
theorem lastRst_lastBl_of_spares {ts : List Item} (h : ∀ t ∈ ts, t.SparesRstBl) (a : Line) (b : Backlight) :
    lastRst a ts = a ∧ lastBl b ts = b := by
  induction ts with
  | nil => exact ⟨rfl, rfl⟩
  | cons t ts ih =>
    obtain ⟨ht, hts⟩ := List.forall_mem_cons.1 h
    cases t with
    | sel _ | data _ _ | reg _ _ | delay _ => exact ih hts
    | rst _ | bl _ => exact ht.elim

/-! ### The commands' items -/

theorem setWindowSeq_sparesRstBl {p : Params} {x0 y0 x1 y1 : Nat} :
    ∀ t ∈ setWindowSeq p x0 y0 x1 y1, t.SparesRstBl := by
  simp [setWindowSeq, Item.SparesRstBl]

theorem setCursorSeq_sparesRstBl {p : Params} {x y : Nat} : ∀ t ∈ setCursorSeq p x y, t.SparesRstBl := by
  simp [setCursorSeq, Item.SparesRstBl]

theorem correction_sparesRstBl {p : Params} {x y : Nat} : ∀ t ∈ correction p x y, t.SparesRstBl :=
  List.forall_mem_append.2 ⟨setCursorSeq_sparesRstBl, by simp [Item.SparesRstBl]⟩

theorem streamFill_sparesRstBl {p : Params} {c : Half} {n : Nat} : ∀ t ∈ streamFill p c n, t.SparesRstBl :=
  List.forall_mem_cons.2 ⟨trivial, fun _ ht => List.eq_of_mem_replicate ht ▸ trivial⟩

theorem fillItems_sparesRstBl {p : Params} {x0 y0 x1 y1 : Nat} {c : Half} {n : Nat} :
    ∀ t ∈ fillItems p x0 y0 x1 y1 c n, t.SparesRstBl :=
  List.forall_mem_append.2 ⟨List.forall_mem_append.2 ⟨setWindowSeq_sparesRstBl, setCursorSeq_sparesRstBl⟩,
    streamFill_sparesRstBl⟩

/-- The operation drives neither RST nor BL: a tile pixel never does, whatever bytes it reads. -/
def Op.SparesRstBl : Op → Prop
  | .item t => t.SparesRstBl
  | .pixel _ => True

theorem Op.items_sparesRstBl {o : Op} (h : o.SparesRstBl) (p : Params) (rd : Nat → Byte) :
    ∀ t ∈ o.items p rd, t.SparesRstBl := by
  cases o with
  | item t => exact List.forall_mem_singleton.2 h
  | pixel px =>
    show ∀ t ∈ pixelItems p rd px, t.SparesRstBl
    unfold pixelItems
    split
    · exact correction_sparesRstBl
    · exact List.forall_mem_singleton.2 trivial

theorem opsItems_sparesRstBl {ops : List Op} (h : ∀ o ∈ ops, o.SparesRstBl) (p : Params) (rd : Nat → Byte) :
    ∀ t ∈ opsItems p rd ops, t.SparesRstBl :=
  List.forall_mem_flatMap.2 fun o ho => Op.items_sparesRstBl (h o ho) p rd

/-- Plain items as operations drive what the items drive. -/
theorem map_item_sparesRstBl {ts : List Item} (h : ∀ t ∈ ts, t.SparesRstBl) :
    ∀ o ∈ ts.map Op.item, o.SparesRstBl :=
  List.forall_mem_map.2 h

theorem tileRow_sparesRstBl {p : Params} {x yrow scale rowAddr : Nat} {pal : Byte} {fh : Bool} :
    ∀ o ∈ tileRow p x yrow scale rowAddr pal fh, o.SparesRstBl :=
  List.forall_mem_append.2 ⟨map_item_sparesRstBl correction_sparesRstBl,
    List.forall_mem_flatMap.2 fun _ _ => List.forall_mem_map.2 fun _ _ => trivial⟩

theorem tileBody_sparesRstBl {p : Params} {x y scale a : Nat} {pal : Byte} {fv fh : Bool} :
    ∀ o ∈ tileBody p x y scale a pal fv fh, o.SparesRstBl :=
  List.forall_mem_append.2 ⟨map_item_sparesRstBl setWindowSeq_sparesRstBl,
    List.forall_mem_flatMap.2 fun _ _ => List.forall_mem_flatMap.2 fun _ _ => tileRow_sparesRstBl⟩

theorem compositeBody_sparesRstBl {p : Params} {x y scale : Nat} {pal : Byte} {tl tr bl br : Nat} :
    ∀ o ∈ compositeBody p x y scale pal tl tr bl br, o.SparesRstBl := by
  simp only [compositeBody, List.forall_mem_append]
  exact ⟨⟨⟨tileBody_sparesRstBl, tileBody_sparesRstBl⟩, tileBody_sparesRstBl⟩, tileBody_sparesRstBl⟩

/-! ### Plans -/

/-- The plan is a rejection, or none of its operations drives RST or BL. -/
def Plan.SparesRstBl : Plan → Prop
  | .reject _ => True
  | .run _ _ ops => ∀ o ∈ ops, o.SparesRstBl

/-- A check that rejects drives nothing. -/
theorem Plan.SparesRstBl.check {c : Prop} [Decidable c] {code : ErrCode} {q : Plan} (hq : q.SparesRstBl) :
    (if c then .reject code else q : Plan).SparesRstBl := by
  split
  · trivial
  · exact hq

/-- No command but INIT drives RST or BL (44_scroll_init.md R199). -/
theorem planOf_sparesRstBl {i : Instr} (hi : i ≠ .init) (p : Params) (scroll : Byte) :
    (planOf i p scroll).SparesRstBl :=
  match i with
  | .selectReg _ | .writeData _ _ | .scrollFwd | .scrollBwd => List.forall_mem_singleton.2 trivial
  | .setWindow _ _ _ _ => .check (.check (map_item_sparesRstBl setWindowSeq_sparesRstBl))
  | .setCursor _ _ => .check (map_item_sparesRstBl setCursorSeq_sparesRstBl)
  | .drawPixel _ _ _ | .drawHline _ _ _ _ => .check (map_item_sparesRstBl fillItems_sparesRstBl)
  | .drawRect _ _ _ _ _ => .check (.check (map_item_sparesRstBl fillItems_sparesRstBl))
  | .clearScreen => map_item_sparesRstBl fillItems_sparesRstBl
  | .drawTile _ _ _ _ _ _ _ => .check (.check (.check (.check tileBody_sparesRstBl)))
  | .drawComposite _ _ _ _ _ _ _ _ => .check (.check (.check (.check compositeBody_sparesRstBl)))
  | .init => absurd rfl hi

theorem State.perform_run_rst_bl (s : State) (kind : CommandKind) (scroll : Byte) (ops : List Op) :
    (s.perform (.run kind scroll ops)).pins.rst = lastRst s.pins.rst (opsItems s.params s.assetByte ops) ∧
      (s.perform (.run kind scroll ops)).pins.bl = lastBl s.pins.bl (opsItems s.params s.assetByte ops) := by
  rw [State.perform_run]
  exact ⟨State.runItems_rst _ _, State.runItems_bl _ _⟩

theorem State.perform_keeps_rst_bl {plan : Plan} (h : plan.SparesRstBl) (s : State) :
    (s.perform plan).pins.rst = s.pins.rst ∧ (s.perform plan).pins.bl = s.pins.bl := by
  cases plan with
  | reject code => exact ⟨rfl, rfl⟩
  | run kind scroll ops =>
    obtain ⟨hrst, hbl⟩ := s.perform_run_rst_bl kind scroll ops
    obtain ⟨hr, hb⟩ := lastRst_lastBl_of_spares (opsItems_sparesRstBl h s.params s.assetByte) s.pins.rst s.pins.bl
    exact ⟨hrst.trans hr, hbl.trans hb⟩

/-- INIT leaves the lines as the last items for them in `INIT_SEQ` say (44_scroll_init.md R197). -/
theorem State.perform_planInit_rst_bl (s : State) :
    (s.perform (planInit s.params)).pins.rst = lastRst s.pins.rst s.params.initSeq ∧
      (s.perform (planInit s.params)).pins.bl = lastBl s.pins.bl s.params.initSeq := by
  have h := s.perform_run_rst_bl .init 0#8 (s.params.initSeq.map .item)
  rwa [opsItems_items] at h

/-- Settles O47: a command's plan spares the lines (`planOf_sparesRstBl`) unless it is INIT, which runs `INIT_SEQ`; a step
that names a line is that of the line's item (`item_of_step_names`); an edge with `rst` drives the reset pins. -/
theorem onlyInitDrivesRstBl : Obligations.OnlyInitDrivesRstBl := by
  refine ⟨fun i s t h hi => ?_, fun s t h => ?_, fun it k c hm => item_of_step_names hm, fun _ _ _ => ⟨rfl, rfl⟩⟩ <;>
    obtain rfl := Host.Outcome.next.inj ((exec_eq_perform _ s).symm.trans h)
  · exact State.perform_keeps_rst_bl (planOf_sparesRstBl hi _ _) s
  · exact s.perform_planInit_rst_bl

end Sys2Proof.Machine
end

section
/-! Family 60_exceptions.md: of the causes that apply to a command, the one its checks reject with has the smallest
code. -/

namespace Sys2Proof.Machine

/-! ### Operand checks as causes -/

theorem not_onPanel_iff (x y : Nat) : (!onPanel x y) = true ↔ x ≥ 176 ∨ y ≥ 220 := by
  simp only [onPanel, Bool.not_eq_true', Bool.and_eq_false_iff, decide_eq_false_iff_not, not_lt]
  exact Iff.rfl

theorem not_fitsPanel_iff (x y w h : Nat) : (!fitsPanel x y w h) = true ↔ x + w > 176 ∨ y + h > 220 := by
  simp only [fitsPanel, Bool.not_eq_true', Bool.and_eq_false_iff, decide_eq_false_iff_not, not_le]
  exact Iff.rfl

theorem not_palOk_iff (p : Params) (pal : Byte) : (!palOk p pal) = true ↔ pal.toNat ≥ numPalettes p := by
  simp only [palOk, Bool.not_eq_true', decide_eq_false_iff_not, not_lt, ge_iff_le]

theorem not_tileAddrOk_iff (p : Params) (a : AssetAddr) :
    (!tileAddrOk p a) = true ↔ a.toNat + 23 ≥ assetBytes p := by
  simp only [tileAddrOk, Bool.not_eq_true', decide_eq_false_iff_not, not_lt, ge_iff_le]

/-! ### The smallest cause -/

/-- No code of `cs` is below `floor`, and the plan rejects with the smallest code of `cs`, if there is one
(60_exceptions.md R212). -/
structure Plan.RejectsLeast (plan : Plan) (cs : List ErrCode) (floor : Nat) : Prop where
  floor_le : ∀ c ∈ cs, floor ≤ c.bits.toNat
  least : ∀ code ∈ cs, (∀ c ∈ cs, code.bits.toNat ≤ c.bits.toNat) → plan = .reject code

theorem Plan.RejectsLeast.nil (plan : Plan) (floor : Nat) : plan.RejectsLeast [] floor :=
  ⟨List.forall_mem_nil _, List.forall_mem_nil _⟩

theorem Plan.RejectsLeast.perm {plan : Plan} {cs ds : List ErrCode} {floor : Nat} (h : plan.RejectsLeast cs floor)
    (hp : cs.Perm ds) : plan.RejectsLeast ds floor :=
  ⟨fun c hc => h.floor_le c (hp.mem_iff.2 hc),
    fun code hcode hmin => h.least code (hp.mem_iff.2 hcode) fun c hc => hmin c (hp.mem_iff.1 hc)⟩

/-- A check made before those of all larger codes: where its cause applies no later one counts, and where it does not
the later checks decide. -/
theorem Plan.RejectsLeast.check {plan : Plan} {cs : List ErrCode} {floor : Nat} {fails cause : Prop} [Decidable fails]
    [Decidable cause] (h : plan.RejectsLeast cs floor) (code : ErrCode) (hlt : code.bits.toNat < floor)
    (hc : fails ↔ cause) :
    (if fails then .reject code else plan : Plan).RejectsLeast (cs ++ if cause then [code] else [])
      code.bits.toNat := by
  have hle : ∀ c ∈ cs, code.bits.toNat < c.bits.toNat := fun c hm => hlt.trans_le (h.floor_le c hm)
  by_cases hcause : cause
  · rw [if_pos hcause, if_pos (hc.2 hcause)]
    refine ⟨List.forall_mem_append.2 ⟨fun c hm => (hle c hm).le, List.forall_mem_singleton.2 le_rfl⟩,
      fun k hk hmin => ?_⟩
    have hkc : k.bits.toNat ≤ code.bits.toNat := hmin code (List.mem_append_right _ List.mem_cons_self)
    have hk' : k ∈ [code] := (List.mem_append.1 hk).resolve_left fun hm => (hle k hm).not_ge hkc
    rw [List.mem_singleton.1 hk']
  · rw [if_neg hcause, if_neg (mt hc.1 hcause), List.append_nil]
    exact ⟨fun c hm => (hle c hm).le, h.least⟩

/-! ### The commands

Each command's checks are read from the last one back, from a floor of 9, which is above every code (R211). -/

theorem planSetWindow_rejectsLeast (p : Params) (x0 y0 x1 y1 scroll : Byte) :
    (planSetWindow p x0 y0 x1 y1 scroll).RejectsLeast (causes p (.setWindow x0 y0 x1 y1)) 7 :=
  (((Plan.RejectsLeast.nil _ 9).check .outOfPanel (by decide) (not_onPanel_iff _ _)).check .badWindow (by decide)
    Iff.rfl).perm List.perm_append_comm

theorem planDrawHline_rejectsLeast (p : Params) (x y width : Byte) (color : Half) (scroll : Byte) :
    (planDrawHline p x y width color scroll).RejectsLeast (causes p (.drawHline x y width color)) 8 :=
  (Plan.RejectsLeast.nil _ 9).check .outOfPanel (by decide) <| by
    rw [Bool.or_eq_true, not_onPanel_iff, decide_eq_true_iff, or_assoc, panelW]

theorem planDrawRect_rejectsLeast (p : Params) (x y width height : Byte) (color : Half) (scroll : Byte) :
    (planDrawRect p x y width height color scroll).RejectsLeast (causes p (.drawRect x y width height color)) 4 :=
  ((Plan.RejectsLeast.nil _ 9).check .outOfPanel (by decide) (not_fitsPanel_iff _ _ _ _)).check .zeroExtent (by decide)
    Iff.rfl

theorem planDrawTile_rejectsLeast (p : Params) (x y scale pal : Byte) (addr : AssetAddr) (fv fh : Bool)
    (scroll : Byte) :
    (planDrawTile p x y scale pal addr fv fh scroll).RejectsLeast (causes p (.drawTile x y scale pal addr fv fh)) 3 :=
  ((((Plan.RejectsLeast.nil _ 9).check .outOfPanel (by decide) (not_fitsPanel_iff _ _ _ _)).check .badAddress
    (by decide) (not_tileAddrOk_iff _ _)).check .badPalette (by decide) (not_palOk_iff _ _)).check .badScale (by decide)
    Iff.rfl

theorem planDrawComposite_rejectsLeast (p : Params) (x y scale pal : Byte) (tl tr bl br : AssetAddr) (scroll : Byte) :
    (planDrawComposite p x y scale pal tl tr bl br scroll).RejectsLeast
      (causes p (.drawComposite x y scale pal tl tr bl br)) 3 :=
  ((((Plan.RejectsLeast.nil _ 9).check .outOfPanel (by decide) (not_fitsPanel_iff _ _ _ _)).check .badAddress
    (by decide) (by simp only [Bool.not_and, Bool.or_eq_true, not_tileAddrOk_iff, or_assoc])).check .badPalette
    (by decide) (not_palOk_iff _ _)).check .badScale (by decide) Iff.rfl

/-- A command's checks reject with the smallest code of its causes (60_exceptions.md R212). -/
theorem planOf_rejectsLeast (i : Instr) (p : Params) (scroll : Byte) :
    ∃ floor, (planOf i p scroll).RejectsLeast (causes p i) floor :=
  match i with
  | .selectReg _ | .writeData _ _ | .clearScreen | .scrollFwd | .scrollBwd | .init => ⟨0, .nil _ 0⟩
  | .setCursor _ _ | .drawPixel _ _ _ =>
    ⟨8, (Plan.RejectsLeast.nil _ 9).check .outOfPanel (by decide) (not_onPanel_iff _ _)⟩
  | .setWindow _ _ _ _ => ⟨7, planSetWindow_rejectsLeast ..⟩
  | .drawHline _ _ _ _ => ⟨8, planDrawHline_rejectsLeast ..⟩
  | .drawRect _ _ _ _ _ => ⟨4, planDrawRect_rejectsLeast ..⟩
  | .drawTile _ _ _ _ _ _ _ => ⟨3, planDrawTile_rejectsLeast ..⟩
  | .drawComposite _ _ _ _ _ _ _ _ => ⟨3, planDrawComposite_rejectsLeast ..⟩

theorem exec_rejected {i : Instr} {s : State} {code : ErrCode} (h : planOf i s.params s.scrollOffset = .reject code) :
    ∃ t, exec i s = .next t ∧ s.RejectedAs t code :=
  ⟨_, exec_eq_perform i s, h ▸ s.perform_reject code⟩

theorem runWord_rejectedAs {w : CmdWord} {s : State} {code : ErrCode}
    (h : planWord w s.params s.scrollOffset = .reject code) :
    ∃ t, runWord w s = .next t ∧ (s.capture w).RejectedAs t code :=
  (runWord_rejected h).imp fun _ ⟨ht, hr, _⟩ => ⟨ht, hr⟩

/-- Settles O50: a command's plan rejects with the smallest code of its causes (`planOf_rejectsLeast`), a word that does
not decode by its decode error alone, and a rejected plan changes nothing else (`State.perform_reject`). -/
theorem rejectedWithSmallestCode : Obligations.RejectedWithSmallestCode := by
  refine ⟨fun i s code hmem hmin => ?_, fun w s => ⟨fun hd => ?_, fun hd => ?_⟩⟩
  · obtain ⟨_, h⟩ := planOf_rejectsLeast i s.params s.scrollOffset
    exact exec_rejected (h.least code hmem hmin)
  · exact runWord_rejectedAs (by rw [planWord, hd])
  · exact runWord_rejectedAs (by rw [planWord, hd])

end Sys2Proof.Machine
end

section
/-! Encoding: the round trip of a command and its word, illegal opcodes, and the spec's example words. -/

namespace Sys2Proof.Machine

open Laws

/-! ### Decode of encode -/

theorem tableWord_toNat (w : CmdWord) : tableWord 128 w.toNat = w := by
  rw [tableWord, Nat.mod_eq_of_lt w.isLt, BitVec.ofNat_toNat, BitVec.setWidth_eq]

/-- Settles O12: every command is decoded from its encoding (`decode_encode`), which as a table word is
the same word. -/
theorem decodeEncodeRoundTrip : Obligations.DecodeEncodeRoundTrip := by
  intro i
  refine ⟨decode_encode i, ?_⟩
  rw [decodeTableWord, tableWord_toNat, decode_encode]

/-! ### Encode of decode -/

/-- A word is its slots packed, with its reserved bits in their two slots (30_encoding.md R81). -/
theorem packAll_slotsAt (w : CmdWord) : packAll (slotsAt w) (w.extractLsb' 6 2) (w.extractLsb' 40 8) = w := by
  have hbit (k : Nat) : BitVec.ofBool (w.getLsbD k) = w.extractLsb' k 1 := by
    ext j hj
    obtain rfl : j = 0 := by omega
    simp
  simp only [packAll, slotsAt, slotOp, slotFV, slotFH, slotA, slotB, slotC, slotD, slotColor, slotT0, slotT1, slotT2,
    slotT3, hbit]
  iterate 13 rw [BitVec.extractLsb'_append_extractLsb'_eq_extractLsb' (by rfl)]
  exact BitVec.extractLsb'_eq_self

/-- The slots that a command's mask leaves to its operands (30_encoding.md R83, R84). -/
def operandSlots : Instr → Slots
  | .selectReg _ => { op := 0#4, a := 0xFF#8 }
  | .writeData _ _ | .setCursor _ _ => { op := 0#4, a := 0xFF#8, b := 0xFF#8 }
  | .setWindow _ _ _ _ => { op := 0#4, a := 0xFF#8, b := 0xFF#8, c := 0xFF#8, d := 0xFF#8 }
  | .drawPixel _ _ _ => { op := 0#4, a := 0xFF#8, b := 0xFF#8, color := 0xFFFF#16 }
  | .drawHline _ _ _ _ => { op := 0#4, a := 0xFF#8, b := 0xFF#8, c := 0xFF#8, color := 0xFFFF#16 }
  | .drawRect _ _ _ _ _ => { op := 0#4, a := 0xFF#8, b := 0xFF#8, c := 0xFF#8, d := 0xFF#8, color := 0xFFFF#16 }
  | .drawTile _ _ _ _ _ _ _ =>
    { op := 0#4, fv := true, fh := true, a := 0xFF#8, b := 0xFF#8, c := 0xFF#8, d := 0xFF#8, t0 := 0xFFFF#16 }
  | .drawComposite _ _ _ _ _ _ _ _ =>
    { op := 0#4, a := 0xFF#8, b := 0xFF#8, c := 0xFF#8, d := 0xFF#8,
      t0 := 0xFFFF#16, t1 := 0xFFFF#16, t2 := 0xFFFF#16, t3 := 0xFFFF#16 }
  | .clearScreen | .scrollFwd | .scrollBwd | .init => { op := 0#4 }

theorem not_maskOf (i : Instr) : ~~~maskOf i = packAll (operandSlots i) 0#2 0#8 := by
  cases i <;> simp only [maskOf, operandSlots] <;> decide

/-- The operands that a command takes from a word's slots are the command's own. -/
theorem andSlots_operandSlots {op : Nat} {s : Slots} {i : Instr} (h : instrOf op s = some i) :
    andSlots s (operandSlots i) = { slotsOf i with op := 0#4 } := by
  have byte (b : Byte) : b &&& 0xFF#8 = b := BitVec.and_allOnes
  have half (v : Half) : v &&& 0xFFFF#16 = v := BitVec.and_allOnes
  unfold instrOf at h
  split at h <;> cases h <;> simp [andSlots, operandSlots, slotsOf, byte, half]

/-- Outside the mask a legal word holds its command's operands and nothing else. -/
theorem and_not_maskOf_of_decode {w : CmdWord} {i : Instr} (h : decode w = .legal i) :
    w &&& ~~~maskOf i = packAll { slotsOf i with op := 0#4 } 0#2 0#8 := by
  have hi : instrOf (slotOp w).toNat (slotsAt w) = some i := by
    rw [decode_eq] at h
    cases hj : instrOf (slotOp w).toNat (slotsAt w) with
    | none => simp [hj] at h
    | some j =>
      rw [hj] at h
      exact congrArg some (legalIf_eq_legal_iff.mp h).2
  conv_lhs => rw [← packAll_slotsAt w, not_maskOf, packAll_and, andSlots_operandSlots hi]
  simp

/-- Two words that agree under a mask and outside it are the same word. -/
theorem eq_of_and_eq_of_and_not_eq {w v m : CmdWord} (h : w &&& m = v &&& m) (hn : w &&& ~~~m = v &&& ~~~m) :
    w = v := by
  ext k hk
  have h1 := congrArg (·[k]) h
  have h2 := congrArg (·[k]) hn
  simp only [BitVec.getElem_and, BitVec.getElem_not] at h1 h2
  cases hm : m[k] <;> simp_all

/-- Settles O13: a legal word and the encoding of its command are decoded to the same command, so they agree under the
command's mask (`and_maskOf_of_decode`) and outside it (`and_not_maskOf_of_decode`). -/
theorem encodeDecodeRoundTrip : Obligations.EncodeDecodeRoundTrip := fun _ i h =>
  eq_of_and_eq_of_and_not_eq ((and_maskOf_of_decode (decode_encode i)).trans (and_maskOf_of_decode h).symm)
    ((and_not_maskOf_of_decode (decode_encode i)).trans (and_not_maskOf_of_decode h).symm)

/-! ### Illegal opcodes -/

theorem instrOf_eq_none_iff (op : Nat) (s : Slots) : instrOf op s = none ↔ 13 ≤ op := by
  match op with
  | 0 | 1 | 2 | 3 | 4 | 5 | 6 | 7 | 8 | 9 | 10 | 11 | 12 => simp [instrOf]
  | _ + 13 => simp [instrOf]

/-- A word is illegal exactly when no command has its opcode (30_encoding.md R85). -/
theorem decode_eq_illegalOpcode_iff (w : CmdWord) : decode w = .illegalOpcode ↔ 13 ≤ (slotOp w).toNat := by
  rw [decode_eq, ← instrOf_eq_none_iff _ (slotsAt w)]
  cases instrOf (slotOp w).toNat (slotsAt w) with
  | none => simp
  | some i =>
    unfold legalIf
    simp only [Option.elim_some, reduceCtorEq, iff_false]
    split <;> simp

/-- Settles O9: the illegal words by their opcode (`decode_eq_illegalOpcode_iff`), rejected as every word whose plan
is a rejection (`runWord_rejected`). -/
theorem illegalOpcodeRejected : Obligations.IllegalOpcodeRejected := by
  intro w
  refine ⟨?_, fun h s => runWord_rejected (by rw [planWord, h])⟩
  rw [decode_eq_illegalOpcode_iff, slotOp]
  have hop := (w.extractLsb' 0 4).isLt
  simp only [← BitVec.toNat_inj, BitVec.toNat_ofNat]
  omega

/-! ### Example words -/

/-- Settles O14: each word decoded. -/
theorem specWordsDecode : Obligations.SpecWordsDecode := by
  unfold Obligations.SpecWordsDecode
  decide

end Sys2Proof.Machine
end

section
/-! The machine's step: the state taken at reset, one clock edge, one step, and what every step keeps. -/

namespace Sys2Proof.Machine

/-! ### Reset in mid-command -/

/-- The reset vector adds nothing to the records read so far (log 23). -/
theorem readTrace_push_reset_trans (tr : List Pins) :
    (readTrace (pushTrace resetPins tr)).trans = (readTrace tr).trans := by
  match tr with
  | [] => rfl
  | o :: rest =>
    rw [pushTrace]
    split
    · rfl
    · rfl

/-- Settles O2: an edge with `rst` is `State.blockReset`, whose pin vector adds no record
(`readTrace_push_reset_trans`), and an IDLE block rests (`State.edges_idle`). -/
theorem resetAbortsCommand : Obligations.ResetAbortsCommand := by
  intro s errClr offer rest hin
  exact ⟨_, step_edge hin, rfl, rfl, rfl, rfl, rfl, rfl, rfl, rfl, readTrace_push_reset_trans s.trace, rfl, rfl, rfl,
    fun n => State.edges_idle n _ rfl⟩

/-! ### One clock edge -/

theorem State.cmdReady_iff (rst : Bool) (s : State) : s.cmdReady rst = true ↔ s.phase = .idle ∧ rst = false := by
  simp [State.cmdReady]

/-- A word offered while the block is not ready has no effect (10_state.md R29). -/
theorem State.edge_of_not_ready {s : State} {rst : Bool} (h : s.cmdReady rst = false) (errClr : Bool)
    (offer : Option CmdWord) : s.edge rst errClr offer = s.edge rst errClr none := by
  cases rst with
  | true => rfl
  | false =>
    have hb : s.phase = .busy := by
      cases hp : s.phase with
      | busy => rfl
      | idle => simp [State.cmdReady, hp] at h
    rw [State.edge_busy hb, State.edge_busy hb]

/-- Settles O4: acceptance is `State.edge_idle_some`, an edge of a command `State.edge_busy`. -/
theorem clockEdge : Obligations.ClockEdge := by
  intro s rst errClr offer w code
  refine ⟨s.cmdReady_iff rst, fun h => ?accept, fun h => State.edge_of_not_ready h errClr (some w), fun hb => ?word,
    rfl, rfl, fun hb hseq => ?reject⟩
  case accept =>
    obtain ⟨hp, rfl⟩ := (s.cmdReady_iff rst).mp h
    rw [State.edge_idle_some hp]
    cases errClr <;> simp [State.accept]
  case word =>
    rw [State.edge_busy hb, (State.tick_kept _).cmd, State.clearIf_cmd]
  case reject =>
    have ht : s.edge false true offer = s.clearErr.reject code := by
      rw [State.edge_busy hb]
      simp only [State.clearIf_true, State.tick, State.clearErr_seq, hseq]
      rfl
    rw [ht]
    exact ⟨rfl, rfl, rfl⟩

/-! ### One step -/

theorem step_command_busy {s : State} {w : CmdWord} {rest : List HostInput} (hin : s.inputs = .command w :: rest)
    (hp : s.phase = .busy) : step s = .next s.noInput := by
  rw [State.noInput_busy s hp, ← State.takeCommand_busy hp w rest]
  simp only [step, hin]

theorem step_command_idle {s : State} {w : CmdWord} {rest : List HostInput} (hin : s.inputs = .command w :: rest)
    (hp : s.phase = .idle) : step s = runWord w { s with inputs := rest } := by
  rw [← State.takeCommand_idle hp w rest]
  simp only [step, hin]

/-- A host write of a byte that exists. -/
theorem step_assetWrite_of_lt {s : State} {a : AssetAddr} {b : Byte} {rest : List HostInput}
    (hin : s.inputs = .assetWrite a b :: rest) (ha : a.toNat < assetBytes s.params) :
    step s = .next (State.hostWrite a b { s with inputs := rest }) := by
  simp only [step, hin]
  exact if_pos ha

/-- A host write of a byte that does not exist (log 15). -/
theorem step_assetWrite_of_le {s : State} {a : AssetAddr} {b : Byte} {rest : List HostInput}
    (hin : s.inputs = .assetWrite a b :: rest) (ha : assetBytes s.params ≤ a.toNat) :
    step s = .fault (.noSuchAssetByte a) := by
  simp only [step, hin]
  exact if_neg ha.not_gt

/-- A legal word runs as its command's meaning, any other is rejected (30_encoding.md R85–R87). -/
theorem runWord_of_decode (w : CmdWord) (s : State) :
    (∀ i, decode w = .legal i → runWord w s = exec i (s.capture w)) ∧
      (decode w = .illegalOpcode → runWord w s = .next ((s.capture w).reject .illegalOpcode)) ∧
      (decode w = .reservedBits → runWord w s = .next ((s.capture w).reject .reservedBits)) := by
  refine ⟨fun i h => ?_, fun h => ?_, fun h => ?_⟩ <;> simp only [runWord, h]

theorem decode_of_decodeTableWord {nbits v : Nat} {i : Instr} (h : decodeTableWord nbits v = some i) :
    decode (tableWord nbits v) = .legal i := by
  unfold decodeTableWord at h
  split at h
  · next hd => rw [hd, Option.some.inj h]
  · cases h
  · cases h

/-- Settles O7: each input by its own equation of `step`, a word taken by `runWord_of_decode`. -/
theorem stepRunsDecodedCommand : Obligations.StepRunsDecodedCommand := by
  refine ⟨fun s w rest hin => ⟨fun hp => ⟨step_command_busy hin hp, ?_⟩, fun hp => ?_⟩,
    fun s rst errClr offer rest hin => step_edge hin, fun s hin => ⟨by simp only [step, hin], rfl⟩,
    fun s a b rest hin ha => step_assetWrite_of_lt hin ha, fun s nbits v i h => ?_⟩
  · rw [State.noInput_busy s hp, (State.tick_kept s).inputs]
  · rw [step_command_idle hin hp]
    exact runWord_of_decode w { s with inputs := rest }
  · rw [step_command_idle (s := s.withFetchWord nbits v) rfl rfl]
    exact (runWord_of_decode _ _).1 i (decode_of_decodeTableWord h)

theorem runWord_goes_on (w : CmdWord) (s : State) : ∃ t, runWord w s = .next t := ⟨_, runWord_eq_perform w s⟩

/-- Settles O8: every input but a host write goes on, and a host write does exactly where the byte exists. -/
theorem stepStopsOnlyOnAbsentAssetByte : Obligations.StepStopsOnlyOnAbsentAssetByte := by
  refine fun s => ⟨?_, fun a b rest hin ha => step_assetWrite_of_le hin ha⟩
  match hin : s.inputs with
  | [] => exact .inl ⟨s.noInput, by simp only [step, hin]⟩
  | .edge rst errClr offer :: rest => exact .inl ⟨_, step_edge hin⟩
  | .command w :: rest =>
    cases hp : s.phase with
    | busy => exact .inl ⟨_, step_command_busy hin hp⟩
    | idle => exact .inl ((runWord_goes_on w _).imp fun t ht => (step_command_idle hin hp).trans ht)
  | .assetWrite a b :: rest =>
    rcases Nat.lt_or_ge a.toNat (assetBytes s.params) with ha | ha
    · exact .inl ⟨_, step_assetWrite_of_lt hin ha⟩
    · exact .inr ⟨a, b, rest, rfl, ha, step_assetWrite_of_le hin ha⟩

/-! ### The pin trace -/

theorem suffix_pushTrace (n : Pins) (tr : List Pins) : tr <:+ pushTrace n tr := by
  match tr with
  | [] => exact List.nil_suffix
  | o :: rest =>
    rw [pushTrace]
    split
    · exact List.suffix_rfl
    · exact List.suffix_cons _ _

theorem State.micro_trace_suffix (s : State) (m : Micro) : s.trace <:+ (s.micro m).trace := by
  cases m with
  | step _ _ | color _ _ _ => exact suffix_pushTrace _ _
  | wait _ => exact List.suffix_rfl

theorem State.runItem_trace_suffix (s : State) (t : Item) : s.trace <:+ (s.runItem t).trace := by
  unfold State.runItem
  generalize itemMicros t = ms
  induction ms generalizing s with
  | nil => exact List.suffix_rfl
  | cons m ms ih => exact (s.micro_trace_suffix m).trans (ih _)

theorem State.runItems_trace_suffix (s : State) (ts : List Item) : s.trace <:+ (s.runItems ts).trace := by
  induction ts generalizing s with
  | nil => exact List.suffix_rfl
  | cons t ts ih => exact (s.runItem_trace_suffix t).trans (ih _)

theorem State.perform_trace_suffix (s : State) (p : Plan) : s.trace <:+ (s.perform p).trace := by
  cases p with
  | reject code => exact List.suffix_rfl
  | run kind scroll ops =>
    rw [State.perform_run]
    exact State.runItems_trace_suffix (s.start kind scroll) _

theorem State.advance_trace_suffix (s : State) (kind : CommandKind) (ms : List Micro) (ops : List Op) :
    s.trace <:+ (s.advance kind ms ops).trace := by
  unfold State.advance
  split
  · exact State.micro_trace_suffix (s.countRace _) _
  · split
    · exact List.suffix_rfl
    · split
      · exact List.suffix_rfl
      · exact State.micro_trace_suffix (s.countRace _) _

theorem State.rejectAfter_trace (s : State) (code : ErrCode) (left : Nat) :
    (s.rejectAfter code left).trace = s.trace := by
  cases left <;> rfl

theorem State.tick_trace_suffix (s : State) : s.trace <:+ s.tick.trace := by
  unfold State.tick
  split
  · exact List.suffix_rfl
  · unfold State.begin
    split
    · rw [State.rejectAfter_trace]
    · exact State.advance_trace_suffix (s.start _ _) _ _ _
  · exact List.suffix_rfl
  · rw [State.rejectAfter_trace]
  · exact s.advance_trace_suffix _ _ _
  · exact List.suffix_rfl

theorem State.edge_trace_suffix (s : State) (rst errClr : Bool) (offer : Option CmdWord) :
    s.trace <:+ (s.edge rst errClr offer).trace := by
  cases rst with
  | true => exact suffix_pushTrace _ _
  | false =>
    cases hp : s.phase with
    | busy =>
      rw [State.edge_busy hp, ← State.clearIf_trace errClr s]
      exact State.tick_trace_suffix _
    | idle =>
      cases offer with
      | none => rw [State.edge_idle_none hp, State.clearIf_trace]
      | some w => rw [State.edge_idle_some hp, State.accept_trace, State.clearIf_trace]

/-- Settles O21: whatever a step does, the trace before it is the older part of the trace after it. -/
theorem pinTraceOnlyGrows : Obligations.PinTraceOnlyGrows := by
  intro s t h
  suffices hs : s.trace <:+ t.trace by
    obtain ⟨new, hnew⟩ := hs
    exact ⟨new.reverse, by simp [State.pinTrace, ← hnew]⟩
  cases State.Steps.of_step h with
  | clock => exact s.edge_trace_suffix false false none
  | @command w rest => exact State.perform_trace_suffix (State.capture w { s with inputs := rest }) _
  | @edge _ _ _ rest => exact State.edge_trace_suffix { s with inputs := rest } _ _ _
  | assetWrite => exact List.suffix_rfl

/-! ### Parameters, captured word, assets -/

theorem State.Kept.of_edge {s : State} {errClr : Bool} {offer : Option CmdWord} (hb : s.phase = .busy) :
    s.Kept (s.edge false errClr offer) := by
  rw [State.edge_busy hb]
  obtain ⟨hcmd, hparams, hassets, hinputs⟩ := (s.clearIf errClr).tick_kept
  cases errClr <;> exact ⟨hcmd, hparams, hassets, hinputs⟩

/-- A clock edge leaves parameters and asset memory alone. -/
theorem State.edge_params_assets (s : State) (rst errClr : Bool) (offer : Option CmdWord) :
    (s.edge rst errClr offer).params = s.params ∧ (s.edge rst errClr offer).assets = s.assets := by
  cases rst with
  | true => exact ⟨rfl, rfl⟩
  | false =>
    cases hp : s.phase with
    | busy =>
      have hk : s.Kept (s.edge false errClr offer) := .of_edge hp
      exact ⟨hk.params, hk.assets⟩
    | idle =>
      cases offer with
      | none => rw [State.edge_idle_none hp]; cases errClr <;> exact ⟨rfl, rfl⟩
      | some w => rw [State.edge_idle_some hp]; cases errClr <;> exact ⟨rfl, rfl⟩

theorem State.perform_params_assets (s : State) (p : Plan) :
    (s.perform p).params = s.params ∧ (s.perform p).assets = s.assets := by
  cases p with
  | reject code => exact ⟨rfl, rfl⟩
  | run kind scroll ops =>
    obtain ⟨hr, -⟩ := s.perform_run_frame kind scroll ops
    exact ⟨hr.params, hr.assets⟩

/-- The asset memory after a step: that of a host write, or as before. -/
theorem step_params_assets {s t : State} (h : step s = .next t) :
    t.params = s.params ∧ (t.assets = s.assets ∨
      ∃ a b rest, s.inputs = .assetWrite a b :: rest ∧ a.toNat < assetBytes s.params ∧
        t.assets = Memory.write s.assets a.toNat b) := by
  cases State.Steps.of_step h with
  | clock => exact (s.edge_params_assets false false none).imp_right .inl
  | command => exact (State.perform_params_assets _ _).imp_right .inl
  | @edge _ _ _ rest => exact (State.edge_params_assets { s with inputs := rest } _ _ _).imp_right .inl
  | @assetWrite a b rest hin ha => exact ⟨rfl, .inr ⟨a, b, rest, hin, ha, rfl⟩⟩

/-- Who writes the captured word at a clock edge (10_state.md R29). -/
theorem State.edge_cmd (s : State) (errClr : Bool) (offer : Option CmdWord) :
    (s.edge false errClr offer).cmd = s.cmd ∨
      (s.phase = .idle ∧ ∃ w, offer = some w ∧ (s.edge false errClr offer).cmd = w) := by
  cases hp : s.phase with
  | busy => exact .inl (State.Kept.of_edge hp).cmd
  | idle =>
    cases offer with
    | none => rw [State.edge_idle_none hp]; exact .inl (State.clearIf_cmd _ _)
    | some w => rw [State.edge_idle_some hp]; exact .inr ⟨rfl, w, rfl, rfl⟩

/-- Who writes the captured word at a step. -/
theorem step_cmd {s t : State} (h : step s = .next t) :
    t.cmd = s.cmd ∨
      (s.phase = .idle ∧ ∃ w rest, s.inputs = .command w :: rest ∧ t.cmd = w) ∨
      (s.phase = .idle ∧ ∃ errClr w rest, s.inputs = .edge false errClr (some w) :: rest ∧ t.cmd = w) ∨
      ∃ errClr offer rest, s.inputs = .edge true errClr offer :: rest := by
  cases State.Steps.of_step h with
  | clock =>
    refine (s.edge_cmd false none).imp_right fun ⟨_, w, hw, _⟩ => ?_
    cases hw
  | @command w rest hin hp => exact .inr (.inl ⟨hp, w, rest, hin, State.perform_cmd _ _⟩)
  | @edge rst errClr offer rest hin =>
    cases rst with
    | true => exact .inr (.inr (.inr ⟨errClr, offer, rest, hin⟩))
    | false =>
      refine (State.edge_cmd { s with inputs := rest } errClr offer).imp_right fun ⟨hp, w, hw, hc⟩ => ?_
      exact .inr (.inl ⟨hp, errClr, w, rest, hw ▸ hin, hc⟩)
  | assetWrite => exact .inl rfl

/-- The asset bytes after a write of one of them. -/
theorem State.assetByte_of_write {s t : State} {a : Nat} {b : Byte} (ht : t.assets = Memory.write s.assets a b)
    (hwf : Memory.wf s.assets) : t.assetByte a = b ∧ ∀ k, k ≠ a → t.assetByte k = s.assetByte k := by
  simp only [State.assetByte, ht]
  exact ⟨Memory.read_write_same _ hwf _ _, fun k hk => Memory.read_write_other _ _ _ _ hk⟩

/-- Settles O57: parameters and assets by `step_params_assets`, the captured word by `step_cmd`, the byte written by the
store's laws. -/
theorem paramsAndAssetsKept : Obligations.ParamsAndAssetsKept := by
  refine ⟨fun s a b rest hin ha => ⟨State.hostWrite a b { s with inputs := rest },
    step_assetWrite_of_lt hin ha, rfl, State.assetByte_of_write rfl⟩, fun i s t h => ?_, fun s t h => ?_⟩
  · obtain rfl := Host.Outcome.next.inj ((exec_eq_perform i s).symm.trans h)
    exact s.perform_cmd _
  · obtain ⟨hparams, hassets⟩ := step_params_assets h
    refine ⟨hparams, step_cmd h, hassets.imp_right fun ⟨a, b, rest, hin, ha, ht⟩ => ⟨a, b, rest, hin, ha, ?_⟩⟩
    exact State.assetByte_of_write ht

end Sys2Proof.Machine
end

section
/-! The machine's invariant: it holds at reset and every step keeps it. -/

namespace Sys2Proof.Machine

/-! ### Updates that no bus step sees -/

/-- An update of the state that no bus step reads or writes: it can be made before a bus sequence as well as after
it. -/
def BusBlind (f : State → State) : Prop := ∀ (s : State) (m : Micro), (f s).micro m = f (s.micro m)

section BusBlind

variable {f : State → State} (hf : BusBlind f)
include hf

theorem BusBlind.micros (s : State) (ms : List Micro) : ms.foldl State.micro (f s) = f (ms.foldl State.micro s) := by
  induction ms generalizing s with
  | nil => rfl
  | cons m ms ih => rw [List.foldl_cons, hf, ih, List.foldl_cons]

theorem BusBlind.runItems (s : State) (ts : List Item) : (f s).runItems ts = f (s.runItems ts) := by
  rw [← State.micros_items, hf.micros, State.micros_items]

end BusBlind

/-- The sequencer's position is set. -/
def State.setSeq (q : SeqPos) (s : State) : State := { s with seq := q }

theorem State.busBlind_setSeq (q : SeqPos) : BusBlind (State.setSeq q) := fun _ m => by cases m <;> rfl

theorem State.busBlind_clearErr : BusBlind State.clearErr := fun _ m => by cases m <;> rfl

/-- The host writes nothing that a bus step reads. -/
theorem State.busBlind_hostWrite (a : AssetAddr) (b : Byte) : BusBlind (State.hostWrite a b) :=
  fun _ m => by cases m <;> rfl

/-- The host's inputs are set. -/
def State.setInputs (is : List HostInput) (s : State) : State := { s with inputs := is }

theorem State.busBlind_setInputs (is : List HostInput) : BusBlind (State.setInputs is) :=
  fun _ m => by cases m <;> rfl

/-- An update that no bus step sees and that leaves pins and trace alone leaves the bus settled at the transaction's
end. -/
theorem BusBlind.settles {f : State → State} (hf : BusBlind f) (hp : ∀ s, (f s).pins = s.pins)
    (ht : ∀ s, (f s).trace = s.trace) {s : State} {ms : List Micro} (h : (ms.foldl State.micro s).Settled) :
    (ms.foldl State.micro (f s)).Settled := by
  rw [hf.micros]
  exact State.settled_congr (hp _) (ht _) h

/-! ### The invariant in parts -/

/-- The error report says one thing: `err` is set exactly with a code, and the code is one of the eight
(60_exceptions.md R211). -/
structure State.ReportOk (s : State) : Prop where
  code : s.errCode.toNat ≤ 8
  errCode : s.err = true ↔ s.errCode ≠ 0#4

/-- The trace ends in the present pins with no equal neighbours, and the controller's stores are canonical. -/
structure State.BusOk (s : State) : Prop where
  traceEnds : s.trace.head? = some s.pins
  merged : s.trace.IsChain (fun a b => a ≠ b)
  stores : s.controller.StoresOk

/-- The sequencer has something exactly while BUSY, and the bus is settled when its transaction ends. -/
structure State.SeqOk (s : State) : Prop where
  idle : s.phase = .idle ↔ s.seq = .none
  olds : s.phase = .idle → s.olds = []
  settles : ((SeqPos.micros s.seq).foldl State.micro s).Settled

/-- The asset memory is canonical and within bounds. -/
structure State.AssetsOk (s : State) : Prop where
  wf : Memory.wf s.assets
  below : Memory.below s.assets (assetBytes s.params)

theorem State.inv_iff (s : State) :
    s.Inv ↔ s.scrollOffset.toNat ≤ 218 ∧ s.ReportOk ∧ s.BusOk ∧ s.SeqOk ∧ s.AssetsOk := by
  constructor
  · intro h
    exact ⟨h.scroll, ⟨h.code, h.errCode⟩, ⟨h.traceEnds, h.merged, h.gramWf, h.gramBelow, h.regsWf, h.regsBelow⟩,
      ⟨h.idle, h.olds, h.settles⟩, h.assetsWf, h.assetsBelow⟩
  · rintro ⟨scroll, report, bus, seq, assets⟩
    exact ⟨scroll, report.code, report.errCode, seq.idle, seq.olds, bus.traceEnds, bus.merged, seq.settles, assets.wf,
      assets.below, bus.stores.gramWf, bus.stores.gramBelow, bus.stores.regsWf, bus.stores.regsBelow⟩

/-- Settles O55: reset has an empty report, a trace of the reset vector alone and empty stores. -/
theorem resetInv : Obligations.ResetInv :=
  (State.inv_iff _).mpr ⟨by decide, ⟨by decide, by decide⟩, ⟨rfl, .singleton _, Controller.start_storesOk⟩,
    ⟨by decide, fun _ => rfl, rfl, rfl, rfl⟩, Memory.wf_nil, List.forall_mem_nil _⟩

/-! ### The error report -/

theorem State.ReportOk.of_errKept {s t : State} (h : s.ReportOk) (hk : s.ErrKept t) : t.ReportOk := by
  obtain ⟨herr, hcode⟩ := hk
  exact ⟨hcode ▸ h.code, herr ▸ hcode ▸ h.errCode⟩

theorem State.ReportOk.of_cleared {s : State} (he : s.err = false) (hc : s.errCode = 0#4) : s.ReportOk :=
  ⟨by rw [hc]; decide, by simp [he, hc]⟩

theorem State.ReportOk.clearIf {s : State} (h : s.ReportOk) (b : Bool) : (s.clearIf b).ReportOk := by
  cases b with
  | true => exact .of_cleared rfl rfl
  | false => exact h

theorem ErrCode.bits_ok (code : ErrCode) : code.bits.toNat ≤ 8 ∧ code.bits ≠ 0#4 := by
  cases code <;> decide

theorem State.ReportOk.reject {s : State} (h : s.ReportOk) (code : ErrCode) : (s.reject code).ReportOk := by
  obtain ⟨hle, hne⟩ := code.bits_ok
  constructor <;> rw [State.reject_errCode]
  · split
    · exact h.code
    · exact hle
  · rw [State.reject_err]
    split
    · next he => exact iff_of_true rfl (h.errCode.mp he)
    · exact iff_of_true rfl hne

theorem State.ReportOk.edge {s : State} (h : s.ReportOk) (rst errClr : Bool) (offer : Option CmdWord) :
    (s.edge rst errClr offer).ReportOk := by
  cases rst with
  | true => exact .of_cleared rfl rfl
  | false =>
    obtain ⟨code, -, he⟩ | hk := State.edge_report s errClr offer
    · rw [he]
      exact (h.clearIf errClr).reject code
    · exact (h.clearIf errClr).of_errKept hk

theorem State.ReportOk.perform {s : State} (h : s.ReportOk) (p : Plan) : (s.perform p).ReportOk := by
  cases p with
  | reject code => exact h.reject code
  | run kind scroll ops => exact h.of_errKept (s.perform_run_frame kind scroll ops).1.errKept

theorem State.ReportOk.step {s t : State} (h : s.ReportOk) (ht : step s = .next t) : t.ReportOk := by
  cases State.Steps.of_step ht with
  | clock => exact h.edge false false none
  | @command w rest =>
    exact State.ReportOk.perform (s := State.capture w { s with inputs := rest }) ⟨h.code, h.errCode⟩ _
  | @edge _ _ _ rest => exact State.ReportOk.edge (s := { s with inputs := rest }) ⟨h.code, h.errCode⟩ _ _ _
  | assetWrite => exact ⟨h.code, h.errCode⟩

/-! ### Trace and controller -/

theorem State.BusOk.congr {s t : State} (h : s.BusOk) (hp : t.pins = s.pins) (ht : t.trace = s.trace)
    (hc : t.controller = s.controller) : t.BusOk :=
  ⟨by rw [hp, ht]; exact h.traceEnds, by rw [ht]; exact h.merged, by rw [hc]; exact h.stores⟩

theorem State.BusOk.micros {s : State} (h : s.BusOk) (ms : List Micro) : (ms.foldl State.micro s).BusOk := by
  obtain ⟨hmerged, hends, hstores⟩ := s.micros_keep ms h.merged h.traceEnds h.stores
  exact ⟨hends, hmerged, hstores⟩

theorem State.BusOk.runItems {s : State} (h : s.BusOk) (ts : List Item) : (s.runItems ts).BusOk := by
  rw [← State.micros_items]
  exact h.micros _

theorem State.BusOk.start {s : State} (h : s.BusOk) (kind : CommandKind) (scroll : Byte) :
    (s.start kind scroll).BusOk :=
  ⟨h.traceEnds, h.merged, s.controller.beginCommand_storesOk kind h.stores⟩

theorem State.BusOk.complete {s : State} (h : s.BusOk) (kind : CommandKind) : (s.complete kind).BusOk :=
  ⟨h.traceEnds, h.merged, s.controller.endCommand_storesOk kind h.stores⟩

theorem State.BusOk.perform {s : State} (h : s.BusOk) (p : Plan) : (s.perform p).BusOk := by
  cases p with
  | reject code => exact h.congr rfl rfl rfl
  | run kind scroll ops =>
    rw [State.perform_run]
    exact ((h.start kind scroll).runItems _).complete kind

theorem State.BusOk.advance {s : State} (h : s.BusOk) (kind : CommandKind) (ms : List Micro) (ops : List Op) :
    (s.advance kind ms ops).BusOk := by
  have hmicro (b : Bool) (m : Micro) : ((s.countRace b).micro m).BusOk :=
    State.BusOk.micros (s := s.countRace b) (h.congr rfl rfl rfl) [m]
  unfold State.advance
  split
  · exact (hmicro _ _).congr rfl rfl rfl
  · split
    · exact h.complete kind
    · split
      · exact h.congr rfl rfl rfl
      · exact (hmicro _ _).congr rfl rfl rfl

theorem State.BusOk.rejectAfter {s : State} (h : s.BusOk) (code : ErrCode) (left : Nat) :
    (s.rejectAfter code left).BusOk := by
  cases left <;> exact h.congr rfl rfl rfl

theorem State.BusOk.tick {s : State} (h : s.BusOk) : s.tick.BusOk := by
  unfold State.tick
  split
  · exact h.congr rfl rfl rfl
  · unfold State.begin
    split
    · exact h.rejectAfter _ _
    · exact (h.start _ _).advance _ _ _
  · exact h.congr rfl rfl rfl
  · exact h.rejectAfter _ _
  · exact h.advance _ _ _
  · exact h.congr rfl rfl rfl

theorem State.BusOk.clearIf {s : State} (h : s.BusOk) (b : Bool) : (s.clearIf b).BusOk := by
  cases b <;> exact h.congr rfl rfl rfl

theorem State.BusOk.edge {s : State} (h : s.BusOk) (rst errClr : Bool) (offer : Option CmdWord) :
    (s.edge rst errClr offer).BusOk := by
  cases rst with
  | true => exact ⟨pushTrace_head _ _, pushTrace_merged _ _ h.merged, s.controller.unspecified_storesOk⟩
  | false =>
    cases hp : s.phase with
    | busy =>
      rw [State.edge_busy hp]
      exact (h.clearIf errClr).tick
    | idle =>
      cases offer with
      | none =>
        rw [State.edge_idle_none hp]
        exact h.clearIf errClr
      | some w =>
        rw [State.edge_idle_some hp]
        exact (h.clearIf errClr).congr rfl rfl rfl

theorem State.BusOk.step {s t : State} (h : s.BusOk) (ht : step s = .next t) : t.BusOk := by
  cases State.Steps.of_step ht with
  | clock => exact h.edge false false none
  | @command w rest =>
    exact State.BusOk.perform (s := State.capture w { s with inputs := rest }) (h.congr rfl rfl rfl) _
  | @edge _ _ _ rest => exact State.BusOk.edge (s := { s with inputs := rest }) (h.congr rfl rfl rfl) _ _ _
  | assetWrite => exact h.congr rfl rfl rfl

/-! ### The sequencer -/

/-- Where nothing is left in the sequencer, its part of the invariant is a settled bus. -/
theorem State.SeqOk.of_finished {s : State} (hp : s.phase = .idle) (hseq : s.seq = .none) (ho : s.olds = [])
    (hs : s.Settled) : s.SeqOk := by
  refine ⟨iff_of_true hp hseq, fun _ => ho, ?_⟩
  rw [hseq]
  exact hs

/-- While BUSY it is what the rest of the transaction in progress leads to. -/
theorem State.SeqOk.of_busy {s : State} {q : SeqPos} (hp : s.phase = .busy) (hseq : s.seq = q) (hq : q ≠ .none)
    (hs : (q.micros.foldl State.micro s).Settled) : s.SeqOk :=
  ⟨iff_of_false (by simp [hp]) (hseq ▸ hq), fun h => by simp [hp] at h, hseq ▸ hs⟩

theorem State.SeqOk.settled {s : State} (h : s.SeqOk) (hm : s.seq.micros = []) : s.Settled := by
  have hs := h.settles
  rwa [hm] at hs

theorem State.SeqOk.setInputs {s : State} (h : s.SeqOk) (is : List HostInput) : (s.setInputs is).SeqOk :=
  ⟨h.idle, h.olds, (State.busBlind_setInputs is).settles (fun _ => rfl) (fun _ => rfl) h.settles⟩

theorem State.SeqOk.clearIf {s : State} (h : s.SeqOk) (b : Bool) : (s.clearIf b).SeqOk := by
  cases b with
  | true => exact ⟨h.idle, h.olds, State.busBlind_clearErr.settles (fun _ => rfl) (fun _ => rfl) h.settles⟩
  | false => exact h

theorem State.SeqOk.hostWrite {s : State} (h : s.SeqOk) (a : AssetAddr) (b : Byte) : (s.hostWrite a b).SeqOk := by
  refine ⟨h.idle, fun hp => ?_, (State.busBlind_hostWrite a b).settles (fun _ => rfl) (fun _ => rfl) h.settles⟩
  have hi : s.phase = .idle := hp
  simp [State.hostWrite, State.busy, hi, h.olds hi]

theorem State.Settled.perform {s : State} (hs : s.Settled) (p : Plan) : (s.perform p).SeqOk := by
  cases p with
  | reject code => exact .of_finished rfl rfl rfl (State.settled_congr (s := s) rfl rfl hs)
  | run kind scroll ops =>
    obtain ⟨-, hphase, hseq, holds, -⟩ := s.perform_run_frame kind scroll ops
    exact .of_finished hphase hseq holds (s.perform_run_settled kind scroll ops hs).1

/-- Setting the sequencer's position changes nothing of what its actions lead to. -/
theorem State.settled_micros_setSeq {s : State} {ms : List Micro} (q : SeqPos)
    (h : (ms.foldl State.micro s).Settled) : (ms.foldl State.micro (s.setSeq q)).Settled :=
  (State.busBlind_setSeq q).settles (fun _ => rfl) (fun _ => rfl) h

/-- The next action, read anew or not, leaves the rest of its transaction to settle the bus. -/
theorem State.settled_after_reread {s : State} (hends : s.trace.head? = some s.pins) {m : Micro} {ms : List Micro}
    (h : ((m :: ms).foldl State.micro s).Settled) (b : Bool) :
    (ms.foldl State.micro ((s.countRace b).micro (s.reread m))).Settled := by
  have hs : ((m :: ms).foldl State.micro (s.countRace b)).Settled := by
    obtain ⟨hpins, htrace⟩ := State.micros_congr (m :: ms) (s.countRace b) s rfl rfl
    exact State.settled_congr hpins htrace h
  exact (State.micros_sameLines ms _ _ (State.reread_sameLines s (s.countRace b) m hends)).settled hs

/-- An operation reached on a settled bus leaves it settled after its actions (40_bus_protocol.md R118). -/
theorem State.settled_opMicros {s u : State} (h : u.Settled) (o : Op) :
    ((s.opMicros o).foldl State.micro u).Settled := by
  rw [State.opMicros, State.micros_op]
  exact (State.runItems_settled u _ h).1

theorem State.SeqOk.advance {s : State} (hp : s.phase = .busy) (hends : s.trace.head? = some s.pins)
    (kind : CommandKind) {ms : List Micro} (ops : List Op) (h : (ms.foldl State.micro s).Settled) :
    (s.advance kind ms ops).SeqOk := by
  unfold State.advance
  split
  · next m ms =>
    exact .of_busy ((State.micro_phase _ _).trans hp) rfl nofun
      (State.settled_micros_setSeq _ (State.settled_after_reread hends h _))
  · split
    · exact .of_finished rfl rfl rfl (State.settled_congr (s := s) rfl rfl h)
    · next o os =>
      have ho : ((s.opMicros o).foldl State.micro (s.countRace o.reads)).Settled :=
        State.settled_opMicros (u := s.countRace o.reads) (State.settled_congr (s := s) rfl rfl h) o
      split
      · exact .of_busy hp rfl nofun (State.settled_congr (s := s) rfl rfl h)
      · next m ms hm =>
        rw [hm] at ho
        exact .of_busy ((State.micro_phase _ _).trans hp) rfl nofun (State.settled_micros_setSeq _ ho)

theorem State.SeqOk.rejectAfter {s : State} (hp : s.phase = .busy) (hs : s.Settled) (code : ErrCode) (left : Nat) :
    (s.rejectAfter code left).SeqOk := by
  cases left with
  | zero => exact hs.perform (.reject code)
  | succ left => exact .of_busy hp rfl nofun (State.settled_congr (s := s) rfl rfl hs)

theorem State.SeqOk.tick {s : State} (h : s.SeqOk) (hp : s.phase = .busy) (hends : s.trace.head? = some s.pins) :
    s.tick.SeqOk := by
  unfold State.tick
  split
  · next hseq => exact absurd ((h.idle.mpr hseq).symm.trans hp) nofun
  · next hseq =>
    have hs : s.Settled := h.settled (by rw [hseq]; rfl)
    unfold State.begin
    split
    · exact .rejectAfter hp hs _ _
    · exact State.SeqOk.advance (s := s.start _ _) hp hends _ _ (State.settled_congr (s := s) rfl rfl hs)
  · next hseq => exact .of_busy hp rfl nofun (State.settled_congr (s := s) rfl rfl (h.settled (by rw [hseq]; rfl)))
  · next hseq => exact .rejectAfter hp (h.settled (by rw [hseq]; rfl)) _ _
  · next kind micros ops hseq =>
    have hs := h.settles
    rw [hseq] at hs
    exact .advance hp hends kind ops hs
  · next kind hold micros ops hseq =>
    have hs := h.settles
    rw [hseq] at hs
    exact .of_busy hp rfl nofun (State.settled_micros_setSeq _ hs)

/-- Reset leaves the bus settled whatever it was doing (70_reset_and_hazards.md R241). -/
theorem State.blockReset_settled (s : State) : s.blockReset.Settled :=
  ⟨pushTrace_head _ _, rfl, readTrace_pending_of_deasserted _ _ (pushTrace_head _ _) rfl⟩

theorem State.SeqOk.edge {s : State} (h : s.SeqOk) (hends : s.trace.head? = some s.pins) (rst errClr : Bool)
    (offer : Option CmdWord) : (s.edge rst errClr offer).SeqOk := by
  cases rst with
  | true => exact .of_finished rfl rfl rfl s.blockReset_settled
  | false =>
    cases hp : s.phase with
    | busy =>
      rw [State.edge_busy hp]
      exact (h.clearIf errClr).tick (by simpa using hp) (by simpa using hends)
    | idle =>
      cases offer with
      | none =>
        rw [State.edge_idle_none hp]
        exact h.clearIf errClr
      | some w =>
        rw [State.edge_idle_some hp]
        have hs : s.Settled := h.settled (by rw [h.idle.mp hp]; rfl)
        exact .of_busy rfl rfl nofun
          (State.settled_congr (s := s) (State.clearIf_pins _ _) (State.clearIf_trace _ _) hs)

theorem State.SeqOk.step {s t : State} (h : s.SeqOk) (hends : s.trace.head? = some s.pins) (ht : step s = .next t) :
    t.SeqOk := by
  cases State.Steps.of_step ht with
  | clock => exact h.edge hends false false none
  | @command w rest hin hp =>
    have hs : s.Settled := h.settled (by rw [h.idle.mp hp]; rfl)
    exact State.Settled.perform (s := State.capture w { s with inputs := rest })
      (State.settled_congr (s := s) rfl rfl hs) _
  | @edge _ _ _ rest => exact State.SeqOk.edge (h.setInputs rest) hends _ _ _
  | @assetWrite a b rest => exact (h.setInputs rest).hostWrite a b

/-! ### The asset memory -/

theorem State.AssetsOk.step {s t : State} (h : s.AssetsOk) (ht : step s = .next t) : t.AssetsOk := by
  obtain ⟨hparams, hassets | ⟨a, b, -, -, ha, hassets⟩⟩ := step_params_assets ht
  · exact ⟨hassets ▸ h.wf, hassets ▸ hparams ▸ h.below⟩
  · constructor <;> rw [hassets]
    · exact Memory.wf_write _ h.wf _ _
    · rw [hparams]
      exact Memory.below_write _ _ h.below _ ha _

/-- Settles O56: each part of the invariant (`State.inv_iff`) is kept by every step. -/
theorem stepKeepsInv : Obligations.StepKeepsInv := by
  intro s t hinv ht
  obtain ⟨hscroll, hreport, hbus, hseq, hassets⟩ := s.inv_iff.mp hinv
  exact t.inv_iff.mpr ⟨(scrollOffsetWriters s t ht).1 hscroll, hreport.step ht, hbus.step ht,
    hseq.step hbus.traceEnds ht, hassets.step ht⟩

end Sys2Proof.Machine
end

section
/-! When a command is accepted, and what an accepted one neither reads nor writes: the error report, memory and palette
entries that are not its own, and of drawing commands the scroll offset. -/

namespace Sys2Proof.Machine

/-! ### Accepted or rejected -/

/-- The plan runs where there is no cause for a rejection, and else rejects with one of the causes
(60_exceptions.md R211, R213). -/
def Plan.RejectsFor (plan : Plan) (cs : List ErrCode) : Prop :=
  (cs = [] ∧ ∃ kind scroll ops, plan = .run kind scroll ops) ∨ ∃ code ∈ cs, plan = .reject code

theorem Plan.RejectsFor.run (kind : CommandKind) (scroll : Byte) (ops : List Op) :
    (Plan.run kind scroll ops).RejectsFor [] := .inl ⟨rfl, kind, scroll, ops, rfl⟩

theorem Plan.RejectsFor.perm {plan : Plan} {cs ds : List ErrCode} (h : plan.RejectsFor cs) (hp : cs.Perm ds) :
    plan.RejectsFor ds := by
  obtain ⟨rfl, hrun⟩ | ⟨code, hcode, hrej⟩ := h
  · exact .inl ⟨hp.nil_eq.symm, hrun⟩
  · exact .inr ⟨code, hp.mem_iff.1 hcode, hrej⟩

/-- A check before the others adds its cause. -/
theorem Plan.RejectsFor.check {plan : Plan} {cs : List ErrCode} {fails cause : Prop} [Decidable fails]
    [Decidable cause] (h : plan.RejectsFor cs) (code : ErrCode) (hc : fails ↔ cause) :
    (if fails then .reject code else plan : Plan).RejectsFor (cs ++ if cause then [code] else []) := by
  by_cases hcause : cause
  · rw [if_pos hcause, if_pos (hc.2 hcause)]
    exact .inr ⟨code, List.mem_append_right _ List.mem_cons_self, rfl⟩
  · rw [if_neg hcause, if_neg (mt hc.1 hcause), List.append_nil]
    exact h

/-- A command runs where it has no cause for a rejection, and else is rejected with one of its causes. -/
theorem planOf_rejectsFor (i : Instr) (p : Params) (scroll : Byte) : (planOf i p scroll).RejectsFor (causes p i) :=
  match i with
  | .selectReg _ | .writeData _ _ | .clearScreen | .scrollFwd | .scrollBwd | .init => .run _ _ _
  | .setCursor _ _ | .drawPixel _ _ _ => (Plan.RejectsFor.run _ _ _).check .outOfPanel (not_onPanel_iff _ _)
  | .setWindow _ _ _ _ =>
    (((Plan.RejectsFor.run _ _ _).check .outOfPanel (not_onPanel_iff _ _)).check .badWindow Iff.rfl).perm
      List.perm_append_comm
  | .drawHline _ _ _ _ => (Plan.RejectsFor.run _ _ _).check .outOfPanel <| by
      rw [Bool.or_eq_true, not_onPanel_iff, decide_eq_true_iff, or_assoc, panelW]
  | .drawRect _ _ _ _ _ =>
    ((Plan.RejectsFor.run _ _ _).check .outOfPanel (not_fitsPanel_iff _ _ _ _)).check .zeroExtent Iff.rfl
  | .drawTile _ _ _ _ _ _ _ =>
    ((((Plan.RejectsFor.run _ _ _).check .outOfPanel (not_fitsPanel_iff _ _ _ _)).check .badAddress
      (not_tileAddrOk_iff _ _)).check .badPalette (not_palOk_iff _ _)).check .badScale Iff.rfl
  | .drawComposite _ _ _ _ _ _ _ _ =>
    ((((Plan.RejectsFor.run _ _ _).check .outOfPanel (not_fitsPanel_iff _ _ _ _)).check .badAddress
      (by simp only [Bool.not_and, Bool.or_eq_true, not_tileAddrOk_iff, or_assoc])).check .badPalette
      (not_palOk_iff _ _)).check .badScale Iff.rfl

theorem planOf_run_of_causes {i : Instr} {p : Params} (h : causes p i = []) (scroll : Byte) :
    ∃ kind v ops, planOf i p scroll = .run kind v ops := by
  obtain ⟨-, hrun⟩ | ⟨code, hcode, -⟩ := planOf_rejectsFor i p scroll
  · exact hrun
  · simp [h] at hcode

theorem planOf_reject_of_causes {i : Instr} {p : Params} (h : causes p i ≠ []) (scroll : Byte) :
    ∃ code ∈ causes p i, planOf i p scroll = .reject code :=
  (planOf_rejectsFor i p scroll).resolve_left fun hrun => h hrun.1

/-! ### Contracts -/

/-- The checks of a command against the parameters: palette and addresses in range (60_exceptions.md R213). -/
def OperandsInRange (p : Params) : Instr → Prop
  | .drawTile _ _ _ pal addr _ _ => pal.toNat < numPalettes p ∧ addr.toNat + 23 < assetBytes p
  | .drawComposite _ _ _ pal tl tr bl br =>
    pal.toNat < numPalettes p ∧ tl.toNat + 23 < assetBytes p ∧ tr.toNat + 23 < assetBytes p ∧
      bl.toNat + 23 < assetBytes p ∧ br.toNat + 23 < assetBytes p
  | _ => True

theorem areaOnPanel_iff (x y w h : Nat) : areaOnPanel x y w h = true ↔ x + w ≤ 176 ∧ y + h ≤ 220 := by
  simp only [areaOnPanel, Bool.and_eq_true, decide_eq_true_eq]
  exact Iff.rfl

theorem cause_eq_nil_iff {c : Prop} [Decidable c] {code : ErrCode} : (if c then [code] else []) = [] ↔ ¬ c := by
  split <;> simp [*]

/-- A command has no cause for a rejection exactly where its contracts are kept, those that no parameter enters
(00_scope.md R5) and those on palette and addresses. -/
theorem causes_eq_nil_iff (i : Instr) (p : Params) : causes p i = [] ↔ i.wellFormed = true ∧ OperandsInRange p i := by
  cases i with
  | selectReg | writeData | clearScreen | scrollFwd | scrollBwd | init =>
    exact iff_of_true rfl ⟨rfl, trivial⟩
  | setWindow | setCursor | drawPixel | drawHline | drawRect | drawTile | drawComposite =>
    simp only [causes, List.append_eq_nil_iff, cause_eq_nil_iff, Instr.wellFormed, Bool.and_eq_true,
      decide_eq_true_eq, areaOnPanel_iff, OperandsInRange, and_true]
    omega

/-- An accepted command records no error (60_exceptions.md R216). -/
theorem exec_accepted {i : Instr} {s : State} (h : causes s.params i = []) :
    ∃ t, exec i s = .next t ∧ s.ErrKept t := by
  obtain ⟨kind, scroll, ops, hplan⟩ := planOf_run_of_causes h s.scrollOffset
  exact ⟨_, exec_eq_perform i s, hplan ▸ (s.perform_run_frame kind scroll ops).1.errKept⟩

theorem operandsInRange_of_tiles {i : Instr} {p : Params}
    (htile : ∀ x y scale pal addr fv fh, i = .drawTile x y scale pal addr fv fh →
      pal.toNat < numPalettes p ∧ addr.toNat + 23 < assetBytes p)
    (hcomposite : ∀ x y scale pal tl tr bl br, i = .drawComposite x y scale pal tl tr bl br →
      pal.toNat < numPalettes p ∧ tl.toNat + 23 < assetBytes p ∧ tr.toNat + 23 < assetBytes p ∧
        bl.toNat + 23 < assetBytes p ∧ br.toNat + 23 < assetBytes p) : OperandsInRange p i := by
  unfold OperandsInRange
  split
  · exact htile _ _ _ _ _ _ _ rfl
  · exact hcomposite _ _ _ _ _ _ _ _ rfl
  all_goals trivial

/-- Settles O51: a broken contract is a cause and contracts kept leave none (`causes_eq_nil_iff`); the plan rejects
for a cause, and without one the command runs. -/
theorem contractsAreChecked : Obligations.ContractsAreChecked := by
  refine fun i s => ⟨fun h => ?_, fun h htile hcomposite => ?_⟩
  · have hc : causes s.params i ≠ [] := fun hnil =>
      absurd ((causes_eq_nil_iff i s.params).mp hnil).1 (by simp [h])
    obtain ⟨code, -, hplan⟩ := planOf_reject_of_causes hc s.scrollOffset
    obtain ⟨t, ht⟩ := exec_rejected hplan
    exact ⟨t, code, ht⟩
  · obtain ⟨t, ht, hk⟩ :=
      exec_accepted ((causes_eq_nil_iff i s.params).mpr ⟨h, operandsInRange_of_tiles htile hcomposite⟩)
    exact ⟨t, ht, hk.err, hk.errCode⟩

/-! ### Running with another error report, memory, palettes or scroll offset -/

/-- The error report is set. -/
def State.setErr (b : Bool) (c : BitVec 4) (s : State) : State := { s with err := b, errCode := c }

/-- The asset memory is set. -/
def State.setAssets (m : Memory 8) (s : State) : State := { s with assets := m }

/-- The palettes are set. -/
def State.setPalettes (roms : Vector (Vector Half 8) 256) (s : State) : State :=
  { s with params := { s.params with palettes := roms } }

/-- The scroll offset is set. -/
def State.setScroll (v : Byte) (s : State) : State := { s with scrollOffset := v }

theorem State.busBlind_setErr (b : Bool) (c : BitVec 4) : BusBlind (State.setErr b c) := fun _ m => by cases m <;> rfl

theorem State.busBlind_setAssets (m : Memory 8) : BusBlind (State.setAssets m) := fun _ m => by cases m <;> rfl

theorem State.busBlind_setPalettes (roms : Vector (Vector Half 8) 256) : BusBlind (State.setPalettes roms) :=
  fun _ m => by cases m <;> rfl

theorem State.busBlind_setScroll (v : Byte) : BusBlind (State.setScroll v) := fun _ m => by cases m <;> rfl

/-- An update that no bus step sees, nor the command's start and end, can be made before an accepted command as well as
after it, where the command's items are the same. -/
theorem BusBlind.perform_run {f : State → State} (hf : BusBlind f) {s : State} {kind : CommandKind} {v v' : Byte}
    {ops ops' : List Op} (hstart : (f s).start kind v' = f (s.start kind v))
    (hcomplete : ∀ t, (f t).complete kind = f (t.complete kind))
    (hitems : opsItems (f s).params (f s).assetByte ops' = opsItems s.params s.assetByte ops) :
    (f s).perform (.run kind v' ops') = f (s.perform (.run kind v ops)) := by
  rw [State.perform_run, State.perform_run, hitems, hstart, hf.runItems, hcomplete]

theorem exec_next_iff {i : Instr} {s t : State} :
    exec i s = .next t ↔ s.perform (planOf i s.params s.scrollOffset) = t := by
  rw [exec_eq_perform, Host.Outcome.next.injEq]

/-- Settles O6: a rejection records one of the causes and keeps a code that is there; an accepted command neither reads
nor writes the report (`BusBlind.perform_run`). -/
theorem laterCommandsRunWithErr : Obligations.LaterCommandsRunWithErr := by
  intro i s t h
  obtain rfl := exec_next_iff.mp h
  refine ⟨fun he => ?_, fun he hc => ?_, fun b c => ⟨fun hc => exec_next_iff.mpr ?_, fun _ => rfl⟩⟩
  · cases planOf i s.params s.scrollOffset with
    | reject code => exact ⟨rfl, if_pos he⟩
    | run kind scroll ops =>
      obtain ⟨herr, hcode⟩ := (s.perform_run_frame kind scroll ops).1.errKept
      exact ⟨herr.trans he, hcode⟩
  · obtain ⟨code, hmem, hplan⟩ := planOf_reject_of_causes hc s.scrollOffset
    rw [hplan]
    exact ⟨rfl, code, hmem, if_neg (by simp [he])⟩
  · obtain ⟨kind, scroll, ops, hplan⟩ := planOf_run_of_causes hc s.scrollOffset
    dsimp only
    rw [hplan]
    exact (State.busBlind_setErr b c).perform_run rfl (fun _ => rfl) rfl

/-! ### What is read of asset memory -/

/-- The index of a tile's pixel is in the three bytes of its row, so in the tile's 24 bytes. -/
theorem State.sourceIndex_congr {s u : State} {a : Nat} (ho : u.params.unpackOrder = s.params.unpackOrder)
    (h : ∀ k < 24, u.assetByte (a + k) = s.assetByte (a + k)) {r : Nat} (hr : r < 8) (q : Nat) (fh : Bool) :
    u.sourceIndex a r q fh = s.sourceIndex a r q fh := by
  have h0 := h (3 * r) (by omega)
  have h1 := h (3 * r + 1) (by omega)
  have h2 := h (3 * r + 2) (by omega)
  simp only [State.sourceIndex, ho, h0, h1, h2, Nat.add_assoc]

/-- Two tiles whose output pixels have the same indices, each by its own flip, have the same strokes. -/
theorem State.tileStrokes_congr {s u : State} {a : Nat} {fh fh' : Bool}
    (hp : ∀ pal idx, pixelStroke u.params pal idx = pixelStroke s.params pal idx)
    (h : ∀ r < 8, ∀ q < 8, u.sourceIndex a r q fh' = s.sourceIndex a r q fh) (x y scale : Nat) (pal : Byte)
    (fv : Bool) : u.tileStrokes x y scale a pal fv fh' = s.tileStrokes x y scale a pal fv fh := by
  refine List.flatMap_congr fun r hr => List.flatMap_congr fun rep _ => congrArg (_ :: ·) ?_
  refine List.flatMap_congr fun q hq => ?_
  rw [h r (List.mem_range.1 hr) q (List.mem_range.1 hq)]
  simp only [hp]

/-- With other asset bytes that show the same indices a tile has the same items. -/
theorem State.opsItems_tileBody_setAssets {s : State} {m : Memory 8} {a : Nat} {fh fh' : Bool}
    (h : ∀ r < 8, ∀ q < 8, (s.setAssets m).sourceIndex a r q fh' = s.sourceIndex a r q fh) (x y scale : Nat)
    (pal : Byte) (fv : Bool) :
    opsItems s.params (s.setAssets m).assetByte (tileBody s.params x y scale a pal fv fh') =
      opsItems s.params s.assetByte (tileBody s.params x y scale a pal fv fh) := by
  have hu := (s.setAssets m).opsItems_tileBody x y scale a pal fv fh'
  rw [State.tileStrokes_congr (s := s) (u := s.setAssets m) (fun _ _ => rfl) h] at hu
  exact hu.trans (s.opsItems_tileBody x y scale a pal fv fh).symm

/-- DRAW_TILE is rejected whatever its flips, or it is `TileBody`. -/
theorem planDrawTile_cases (p : Params) (x y scale pal : Byte) (addr : AssetAddr) (fv : Bool) (scroll : Byte) :
    (∃ code, ∀ fh, planDrawTile p x y scale pal addr fv fh scroll = .reject code) ∨
      ∀ fh, planDrawTile p x y scale pal addr fv fh scroll =
        .run .drawing scroll (tileBody p x.toNat y.toNat scale.toNat addr.toNat pal fv fh) := by
  unfold planDrawTile
  split_ifs
  case neg => exact .inr fun _ => rfl
  all_goals exact .inl ⟨_, fun _ => rfl⟩

/-- DRAW_TILE with other asset bytes, and another flip, that show the same indices. -/
theorem State.perform_drawTile_setAssets {s : State} {m : Memory 8} {addr : AssetAddr} {fh fh' : Bool}
    (h : ∀ r < 8, ∀ q < 8, (s.setAssets m).sourceIndex addr.toNat r q fh' = s.sourceIndex addr.toNat r q fh)
    (x y scale pal : Byte) (fv : Bool) :
    (s.setAssets m).perform (planDrawTile s.params x y scale pal addr fv fh' s.scrollOffset) =
      (s.perform (planDrawTile s.params x y scale pal addr fv fh s.scrollOffset)).setAssets m := by
  obtain ⟨code, hplan⟩ | hplan := planDrawTile_cases s.params x y scale pal addr fv s.scrollOffset
  · rw [hplan, hplan]
    rfl
  · rw [hplan, hplan]
    exact (State.busBlind_setAssets m).perform_run rfl (fun _ => rfl) (State.opsItems_tileBody_setAssets h ..)

/-- Settles O40: under the flip a row is read from its other end (`State.sourceIndex_flip`), so the two tiles show the
same indices (`State.perform_drawTile_setAssets`). -/
theorem flipSymmetry : Obligations.FlipSymmetry := by
  intro x y scale pal addr fv m s h
  refine ⟨_, _, exec_eq_perform _ s, exec_eq_perform _ _, ?_⟩
  have hu := State.perform_drawTile_setAssets (fh := true) (fh' := false) h x y scale pal fv
  simp only [planOf]
  rw [State.setAssets] at hu
  rw [hu]
  exact ⟨rfl, rfl, rfl, rfl, rfl, rfl⟩

/-- The plan is a rejection, or its operations are plain items. -/
def Plan.ReadsNoAssets : Plan → Prop
  | .reject _ => True
  | .run _ _ ops => ∃ ts : List Item, ops = ts.map .item

theorem Plan.ReadsNoAssets.check {c : Prop} [Decidable c] {code : ErrCode} {q : Plan} (hq : q.ReadsNoAssets) :
    (if c then .reject code else q : Plan).ReadsNoAssets := by
  split
  · trivial
  · exact hq

/-- No command but the tile commands reads asset memory (20_memory.md R53). -/
theorem planOf_readsNoAssets {i : Instr} (htile : ∀ x y scale pal addr fv fh, i ≠ .drawTile x y scale pal addr fv fh)
    (hcomposite : ∀ x y scale pal tl tr bl br, i ≠ .drawComposite x y scale pal tl tr bl br) (p : Params)
    (scroll : Byte) : (planOf i p scroll).ReadsNoAssets :=
  match i with
  | .selectReg idx => ⟨[.sel idx], rfl⟩
  | .writeData h l => ⟨[.data h l], rfl⟩
  | .scrollFwd | .scrollBwd => ⟨[.reg _ _], rfl⟩
  | .clearScreen | .init => ⟨_, rfl⟩
  | .setCursor _ _ | .drawPixel _ _ _ | .drawHline _ _ _ _ => .check ⟨_, rfl⟩
  | .setWindow _ _ _ _ | .drawRect _ _ _ _ _ => .check (.check ⟨_, rfl⟩)
  | .drawTile _ _ _ _ _ _ _ => absurd rfl (htile _ _ _ _ _ _ _)
  | .drawComposite _ _ _ _ _ _ _ _ => absurd rfl (hcomposite _ _ _ _ _ _ _ _)

/-- A plan that reads no asset byte is performed alike with any asset memory. -/
theorem State.perform_setAssets {plan : Plan} (h : plan.ReadsNoAssets) (s : State) (m : Memory 8) :
    (s.setAssets m).perform plan = (s.perform plan).setAssets m := by
  cases plan with
  | reject code => rfl
  | run kind scroll ops =>
    obtain ⟨ts, rfl⟩ := h
    exact (State.busBlind_setAssets m).perform_run rfl (fun _ => rfl) (by rw [opsItems_items, opsItems_items])

/-! ### What is read of the palettes -/

/-- The operation takes its colours from a row below `NUM_PALETTES`, if it takes any. -/
def Op.PaletteOk (p : Params) : Op → Prop
  | .item _ => True
  | .pixel px => px.pal.toNat < numPalettes p

/-- The plan is a rejection, or its operations take their colours from rows below `NUM_PALETTES`. -/
def Plan.PaletteOk (p : Params) : Plan → Prop
  | .reject _ => True
  | .run _ _ ops => ∀ o ∈ ops, o.PaletteOk p

theorem Plan.PaletteOk.check {p : Params} {c : Prop} [Decidable c] {code : ErrCode} {q : Plan}
    (hq : ¬ c → q.PaletteOk p) : (if c then .reject code else q : Plan).PaletteOk p := by
  split
  · trivial
  · next hc => exact hq hc

theorem map_item_paletteOk (p : Params) (ts : List Item) : ∀ o ∈ ts.map Op.item, o.PaletteOk p :=
  List.forall_mem_map.2 fun _ _ => trivial

theorem tileBody_paletteOk {p : Params} {pal : Byte} (hpal : pal.toNat < numPalettes p) {x y scale a : Nat}
    {fv fh : Bool} : ∀ o ∈ tileBody p x y scale a pal fv fh, o.PaletteOk p :=
  List.forall_mem_append.2 ⟨map_item_paletteOk p _, List.forall_mem_flatMap.2 fun _ _ =>
    List.forall_mem_flatMap.2 fun _ _ => List.forall_mem_append.2 ⟨map_item_paletteOk p _,
      List.forall_mem_flatMap.2 fun _ _ => List.forall_mem_map.2 fun _ _ => hpal⟩⟩

theorem compositeBody_paletteOk {p : Params} {pal : Byte} (hpal : pal.toNat < numPalettes p)
    {x y scale tl tr bl br : Nat} : ∀ o ∈ compositeBody p x y scale pal tl tr bl br, o.PaletteOk p := by
  simp only [compositeBody, List.forall_mem_append]
  exact ⟨⟨⟨tileBody_paletteOk hpal, tileBody_paletteOk hpal⟩, tileBody_paletteOk hpal⟩, tileBody_paletteOk hpal⟩

/-- The palette check of the tile commands, passed. -/
theorem palette_lt_of_palOk {p : Params} {pal : Byte} (h : ¬(!palOk p pal) = true) : pal.toNat < numPalettes p :=
  Nat.lt_of_not_le (mt (not_palOk_iff p pal).mpr h)

/-- No command takes a colour from a row at or beyond `NUM_PALETTES` (20_memory.md R55). -/
theorem planOf_paletteOk (i : Instr) (p : Params) (scroll : Byte) : (planOf i p scroll).PaletteOk p :=
  match i with
  | .selectReg _ | .writeData _ _ | .scrollFwd | .scrollBwd => List.forall_mem_singleton.2 trivial
  | .clearScreen | .init => map_item_paletteOk p _
  | .setCursor _ _ | .drawPixel _ _ _ | .drawHline _ _ _ _ => .check fun _ => map_item_paletteOk p _
  | .setWindow _ _ _ _ | .drawRect _ _ _ _ _ => .check fun _ => .check fun _ => map_item_paletteOk p _
  | .drawTile _ _ _ _ _ _ _ =>
    .check fun _ => .check fun hpal => .check fun _ => .check fun _ => tileBody_paletteOk (palette_lt_of_palOk hpal)
  | .drawComposite _ _ _ _ _ _ _ _ =>
    .check fun _ => .check fun hpal => .check fun _ => .check fun _ =>
      compositeBody_paletteOk (palette_lt_of_palOk hpal)

/-- Operations have the same items under palettes that agree on the colours below `NUM_PALETTES`. -/
theorem opsItems_setPalettes {p : Params} {roms : Vector (Vector Half 8) 256} {ops : List Op}
    (h : ∀ (pal : Byte) (idx : BitVec 3), pal.toNat < numPalettes p → idx ≠ 7#3 →
      palRead { p with palettes := roms } pal idx = palRead p pal idx)
    (hops : ∀ o ∈ ops, o.PaletteOk p) (rd : Nat → Byte) :
    opsItems { p with palettes := roms } rd ops = opsItems p rd ops := by
  refine List.flatMap_congr fun o ho => ?_
  cases o with
  | item t => rfl
  | pixel px =>
    have hpal : px.pal.toNat < numPalettes p := hops _ ho
    simp only [Op.items, pixelItems]
    by_cases hidx : pixelIndex p rd px = transparentIndex
    · exact (if_pos hidx).trans (if_pos hidx).symm
    · refine (if_neg hidx).trans (Eq.trans ?_ (if_neg hidx).symm)
      exact congrArg (fun c => [colorItem c]) (h px.pal _ hpal hidx)

theorem planOf_setPalettes (i : Instr) (p : Params) (roms : Vector (Vector Half 8) 256) (scroll : Byte) :
    planOf i { p with palettes := roms } scroll = planOf i p scroll := by
  cases i <;> rfl

/-- Settles O42: the tile's items depend on its 24 bytes (`State.sourceIndex_congr`), the other commands' on none
(`planOf_readsNoAssets`), and no command's on a palette entry that is no colour (`opsItems_setPalettes`). -/
theorem onlyTileBytesAndColoursRead : Obligations.OnlyTileBytesAndColoursRead := by
  refine ⟨fun x y scale pal addr fv fh m s t hm h => ?_, fun i m s t htile hcomposite h => ?_,
    fun i roms s t hroms h => ?_⟩ <;> obtain rfl := exec_next_iff.mp h <;> refine exec_next_iff.mpr ?_
  · exact State.perform_drawTile_setAssets
      (fun r hr q _ => State.sourceIndex_congr (s := s) (u := s.setAssets m) rfl hm hr q fh) x y scale pal fv
  · exact State.perform_setAssets (planOf_readsNoAssets htile hcomposite _ _) s m
  · have hok := planOf_paletteOk i s.params s.scrollOffset
    rw [planOf_setPalettes]
    cases hplan : planOf i s.params s.scrollOffset with
    | reject code => rfl
    | run kind scroll ops =>
      rw [hplan] at hok
      have h : (s.setPalettes roms).perform (.run kind scroll ops) =
          (s.perform (.run kind scroll ops)).setPalettes roms :=
        (State.busBlind_setPalettes roms).perform_run rfl (fun _ => rfl) (opsItems_setPalettes hroms hok _)
      rwa [State.setPalettes, State.setPalettes, (s.perform_run_frame kind scroll ops).1.params] at h

end Sys2Proof.Machine
end

section
/-! The drawing commands as paintings: a window, and then strokes (placements of the cursor and colour writes); their
transactions and their pins. -/

namespace Sys2Proof.Machine

/-! ### Paintings -/

/-- A window and the strokes made in it (42_primitives.md R147, R148; 43_sprite.md R168). -/
structure Painting where
  x0 : Nat
  y0 : Nat
  x1 : Nat
  y1 : Nat
  strokes : List Stroke

/-- The items of a painting. -/
def Painting.items (p : Params) (pt : Painting) : List Item :=
  setWindowSeq p pt.x0 pt.y0 pt.x1 pt.y1 ++ pt.strokes.flatMap (Stroke.items p)

/-- The cursor at the window's origin and `n` writes of one colour (42_primitives.md R148). -/
def fillPainting (x0 y0 x1 y1 : Nat) (color : Half) (n : Nat) : Painting :=
  ⟨x0, y0, x1, y1, .place x0 y0 :: List.replicate n (.color color)⟩

theorem fillPainting_items (p : Params) (x0 y0 x1 y1 : Nat) (color : Half) (n : Nat) :
    (fillPainting x0 y0 x1 y1 color n).items p = fillItems p x0 y0 x1 y1 color n := by
  have hcolors : (List.replicate n (Stroke.color color)).flatMap (Stroke.items p) =
      List.replicate n (colorItem color) := by
    rw [List.flatMap_replicate]
    exact List.flatten_replicate_singleton
  simp [Painting.items, fillPainting, fillItems, openWindow, streamFill, hcolors, Stroke.items, correction]

/-- The painting of a tile (43_sprite.md R168). -/
def State.tilePainting (s : State) (x y scale a : Nat) (pal : Byte) (fv fh : Bool) : Painting :=
  ⟨x, y, x + 8 * scale - 1, y + 8 * scale - 1, s.tileStrokes x y scale a pal fv fh⟩

/-- The paintings of a drawing command. -/
def State.paintings (s : State) : Instr → List Painting
  | .drawPixel x y color => [fillPainting x.toNat y.toNat x.toNat y.toNat color 1]
  | .drawHline x y width color =>
    [fillPainting x.toNat y.toNat (x.toNat + width.toNat) y.toNat color (width.toNat + 1)]
  | .drawRect x y width height color =>
    [fillPainting x.toNat y.toNat (x.toNat + width.toNat - 1) (y.toNat + height.toNat - 1) color
      (width.toNat * height.toNat)]
  | .clearScreen => [fillPainting 0 0 (panelW - 1) (panelH - 1) 0x0000#16 (panelH * panelW)]
  | .drawTile x y scale pal addr fv fh => [s.tilePainting x.toNat y.toNat scale.toNat addr.toNat pal fv fh]
  | .drawComposite x y scale pal tl tr bl br =>
    [s.tilePainting x.toNat y.toNat scale.toNat tl.toNat pal false false,
      s.tilePainting (x.toNat + 8 * scale.toNat) y.toNat scale.toNat tr.toNat pal false false,
      s.tilePainting x.toNat (y.toNat + 8 * scale.toNat) scale.toNat bl.toNat pal true false,
      s.tilePainting (x.toNat + 8 * scale.toNat) (y.toNat + 8 * scale.toNat) scale.toNat br.toNat pal true false]
  | .selectReg _ | .writeData _ _ | .setWindow _ _ _ _ | .setCursor _ _ | .scrollFwd | .scrollBwd | .init => []

/-- The items of a drawing command. -/
def State.drawItems (s : State) (i : Instr) : List Item := (s.paintings i).flatMap (Painting.items s.params)

/-- The plan is a rejection, or it draws the items `ts`. -/
def Plan.Draws (s : State) (ts : List Item) : Plan → Prop
  | .reject _ => True
  | .run kind scroll ops => kind = .drawing ∧ scroll = s.scrollOffset ∧ opsItems s.params s.assetByte ops = ts

theorem Plan.Draws.check {s : State} {ts : List Item} {c : Prop} [Decidable c] {code : ErrCode} {q : Plan}
    (hq : q.Draws s ts) : (if c then .reject code else q : Plan).Draws s ts := by
  split
  · trivial
  · exact hq

theorem Plan.Draws.fill (s : State) (x0 y0 x1 y1 : Nat) (color : Half) (n : Nat) :
    (Plan.run .drawing s.scrollOffset ((fillItems s.params x0 y0 x1 y1 color n).map .item)).Draws s
      ([fillPainting x0 y0 x1 y1 color n].flatMap (Painting.items s.params)) := by
  refine ⟨rfl, rfl, ?_⟩
  rw [opsItems_items, List.flatMap_singleton, fillPainting_items]

/-- A drawing command draws its paintings one after another, unless it is rejected. -/
theorem planOf_draws {i : Instr} (hi : isDrawing i = true) (s : State) :
    (planOf i s.params s.scrollOffset).Draws s (s.drawItems i) := by
  cases i with
  | drawPixel | drawHline => exact .check (.fill ..)
  | drawRect => exact .check (.check (.fill ..))
  | clearScreen => exact .fill ..
  | drawTile x y scale pal addr fv fh =>
    refine .check (.check (.check (.check ⟨rfl, rfl, ?_⟩)))
    rw [s.opsItems_tileBody, State.drawItems, State.paintings, List.flatMap_singleton]
    rfl
  | drawComposite x y scale pal tl tr bl br =>
    refine .check (.check (.check (.check ⟨rfl, rfl, ?_⟩)))
    simp only [compositeBody, opsItems_append, s.opsItems_tileBody, State.drawItems, State.paintings,
      List.flatMap_cons, List.flatMap_nil, List.append_nil, List.append_assoc, Painting.items, State.tilePainting]
  | selectReg | writeData | setWindow | setCursor | scrollFwd | scrollBwd | init => cases hi

/-! ### An accepted drawing command -/

/-- The items of a drawing command, and then the command is over. -/
def State.draw (s : State) (ts : List Item) : State := (s.runItems ts).complete .drawing

theorem State.perform_draws {s : State} {plan : Plan} {ts : List Item} (h : plan.Draws s ts) :
    (∃ code, plan = .reject code) ∨ s.perform plan = s.draw ts := by
  cases plan with
  | reject code => exact .inl ⟨code, rfl⟩
  | run kind scroll ops =>
    obtain ⟨rfl, rfl, hitems⟩ := h
    rw [State.perform_run, hitems]
    exact .inr rfl

/-- A drawing command without a cause for a rejection draws its items. -/
theorem exec_draws {i : Instr} {s : State} (hi : isDrawing i = true) (hc : causes s.params i = []) :
    exec i s = .next (s.draw (s.drawItems i)) := by
  obtain ⟨kind, scroll, ops, hplan⟩ := planOf_run_of_causes hc s.scrollOffset
  obtain ⟨code, hrej⟩ | hdraw := State.perform_draws (planOf_draws hi s)
  · rw [hplan] at hrej
    cases hrej
  · exact (exec_eq_perform i s).trans (congrArg _ hdraw)

theorem State.draw_frame (s : State) (ts : List Item) : s.Frame (s.draw ts) := by
  obtain ⟨⟨hparams, herr, hcode, hassets, hinputs, hraces⟩, hphase, hseq, holds, hscroll⟩ :=
    s.runItems_finish_frame ts
  exact ⟨⟨hparams, herr, hcode, hassets, hinputs, hraces⟩, hphase, hseq, holds, hscroll⟩

theorem State.draw_settled {s : State} (hs : s.Settled) (ts : List Item) :
    (s.draw ts).Settled ∧ (s.draw ts).transactions = s.transactions ++ itemsTrans ts := by
  obtain ⟨hsettled, htrans⟩ := State.runItems_settled s ts hs
  exact ⟨State.settled_congr (s := s.runItems ts) rfl rfl hsettled, htrans⟩

/-- After INIT the controller goes where the items lead it (70_reset_and_hazards.md R243). -/
theorem State.draw_controller {s : State} (h : s.controller.initialized = true) (ts : List Item) :
    (s.draw ts).controller = (s.runItems ts).controller :=
  Controller.endCommand_drawing _ ((s.runItems_initialized ts).trans h)

/-! ### The records of paintings -/

theorem itemTrans_reg_zext16 (i : Byte) {v : Nat} (hv : v < 256) : itemTrans (.reg i (zext16 v)) = regTrans i v := by
  have hb : (BitVec.ofNat 8 v).toNat = v := Nat.mod_eq_of_lt hv
  have hhi := hiByte_zext16 (BitVec.ofNat 8 v)
  have hlo := loByte_zext16 (BitVec.ofNat 8 v)
  rw [hb] at hhi hlo
  rw [itemTrans, hhi, hlo, regTrans]

theorem itemsTrans_setWindowSeq_eq (p : Params) {x0 y0 x1 y1 : Nat} (hx0 : x0 < 256) (hy0 : y0 < 256)
    (hx1 : x1 < 256) (hy1 : y1 < 256) : itemsTrans (setWindowSeq p x0 y0 x1 y1) = windowTrans p x0 y0 x1 y1 := by
  simp [setWindowSeq, itemsTrans, windowTrans, itemTrans_reg_zext16, *]

theorem itemsTrans_correction (p : Params) {x y : Nat} (hx : x < 256) (hy : y < 256) :
    itemsTrans (correction p x y) = cursorTrans p x y ++ [.sel p.regGram] := by
  have hsel : itemsTrans [.sel p.regGram] = [.sel p.regGram] := rfl
  simp [correction, setCursorSeq, itemsTrans_cons, cursorTrans, itemTrans_reg_zext16, hsel, hx, hy]

theorem itemsTrans_fillItems (p : Params) {x0 y0 x1 y1 : Nat} (hx0 : x0 < 256) (hy0 : y0 < 256) (hx1 : x1 < 256)
    (hy1 : y1 < 256) (color : Half) (n : Nat) :
    itemsTrans (fillItems p x0 y0 x1 y1 color n) = fillTrans p x0 y0 x1 y1 color n := by
  have hcolors : itemsTrans (List.replicate n (colorItem color)) = List.replicate n (colorTrans color) := by
    rw [itemsTrans, List.flatMap_replicate]
    exact List.flatten_replicate_singleton
  have hcursor := itemsTrans_correction p hx0 hy0
  rw [correction, itemsTrans_append] at hcursor
  rw [fillItems, openWindow, streamFill, ← List.singleton_append, fillTrans]
  simp only [itemsTrans_append, itemsTrans_setWindowSeq_eq p hx0 hy0 hx1 hy1, hcolors, List.append_assoc]
  rw [← List.append_assoc (itemsTrans (setCursorSeq p x0 y0)), hcursor, List.append_assoc]

/-- The pins after a last item that is a byte pair: the pair's, and the lines RST and BL of before. -/
theorem State.runItems_data_pins (s : State) {ts : List Item} (h : ∀ t ∈ ts, t.SparesRstBl) (hi lo : Byte) :
    (s.runItems (ts ++ [.data hi lo])).pins =
      { s.pins with d := lo, rs := .data, cs := .deasserted, wr := .deasserted } := by
  obtain ⟨hr, hb⟩ := lastRst_lastBl_of_spares h s.pins.rst s.pins.bl
  have hrst := (s.runItems_rst ts).trans hr
  have hbl := (s.runItems_bl ts).trans hb
  rw [State.runItems_append, State.runItems_cons, State.runItems_nil, State.runItem_data_pins]
  simp only [hrst, hbl]

/-! ### The fill commands -/

theorem fillItems_succ (p : Params) (x0 y0 x1 y1 : Nat) (color : Half) (n : Nat) :
    fillItems p x0 y0 x1 y1 color (n + 1) = fillItems p x0 y0 x1 y1 color n ++ [colorItem color] := by
  simp [fillItems, streamFill, List.replicate_succ']

/-- What a fill leaves of the block, and its records. -/
theorem State.draw_fill (s : State) {x0 y0 x1 y1 : Nat} (hx0 : x0 < 256) (hy0 : y0 < 256) (hx1 : x1 < 256)
    (hy1 : y1 < 256) (color : Half) {n : Nat} (hn : 1 ≤ n) :
    let t := s.draw (fillItems s.params x0 y0 x1 y1 color n)
    s.Frame t ∧
      t.pins = { s.pins with d := color.extractLsb' 0 8, rs := .data, cs := .deasserted, wr := .deasserted } ∧
      (s.Settled → t.Settled ∧ t.transactions = s.transactions ++ fillTrans s.params x0 y0 x1 y1 color n) := by
  refine ⟨s.draw_frame _, ?_, fun hs => ?_⟩
  · obtain ⟨k, rfl⟩ : ∃ k, n = k + 1 := ⟨n - 1, by omega⟩
    rw [fillItems_succ]
    exact s.runItems_data_pins fillItems_sparesRstBl _ _
  · rw [← itemsTrans_fillItems s.params hx0 hy0 hx1 hy1]
    exact State.draw_settled hs _

/-- A command that draws one fill draws its items. -/
theorem exec_fill {i : Instr} {s : State} (hi : isDrawing i = true) (hc : causes s.params i = [])
    {x0 y0 x1 y1 : Nat} {color : Half} {n : Nat} (hp : s.paintings i = [fillPainting x0 y0 x1 y1 color n]) :
    exec i s = .next (s.draw (fillItems s.params x0 y0 x1 y1 color n)) := by
  rw [exec_draws hi hc, State.drawItems, hp, List.flatMap_singleton, fillPainting_items]

theorem exec_drawRect {x y width height : Byte} {s : State} (color : Half) (hw : 1 ≤ width.toNat)
    (hh : 1 ≤ height.toNat) (hx : x.toNat + width.toNat ≤ 176) (hy : y.toNat + height.toNat ≤ 220) :
    exec (.drawRect x y width height color) s =
      .next (s.draw (fillItems s.params x.toNat y.toNat (x.toNat + width.toNat - 1) (y.toNat + height.toNat - 1)
        color (width.toNat * height.toNat))) :=
  exec_fill rfl (by simp [causes]; omega) rfl

theorem exec_drawPixel {x y : Byte} {s : State} (color : Half) (hx : x.toNat < 176) (hy : y.toNat < 220) :
    exec (.drawPixel x y color) s =
      .next (s.draw (fillItems s.params x.toNat y.toNat x.toNat y.toNat color 1)) :=
  exec_fill rfl (by simp [causes]; omega) rfl

theorem exec_drawHline {x y width : Byte} {s : State} (color : Half) (hx : x.toNat + width.toNat < 176)
    (hy : y.toNat < 220) :
    exec (.drawHline x y width color) s =
      .next (s.draw (fillItems s.params x.toNat y.toNat (x.toNat + width.toNat) y.toNat color (width.toNat + 1))) :=
  exec_fill rfl (by simp [causes]; omega) rfl

theorem exec_clearScreen (s : State) :
    exec .clearScreen s = .next (s.draw (fillItems s.params 0 0 175 219 0x0000#16 (176 * 220))) :=
  exec_fill rfl rfl rfl

/-- Settles O28: the fill of one pixel, its records written out. -/
theorem drawPixelResult : Obligations.DrawPixelResult := by
  intro x y color s hx hy
  have h := s.draw_fill (x0 := x.toNat) (y0 := y.toNat) (x1 := x.toNat) (y1 := y.toNat) (by omega) (by omega)
    (by omega) (by omega) color (le_refl 1)
  refine ⟨_, exec_drawPixel color hx hy, ?_⟩
  simpa [fillTrans, windowTrans, cursorTrans, regTrans, colorTrans] using h

/-- Settles O29: DRAW_HLINE is the fill of `width + 1` pixels of a row. -/
theorem drawHlineResult : Obligations.DrawHlineResult := by
  intro x y width color s hx hy
  exact ⟨_, exec_drawHline color hx hy,
    s.draw_fill (by omega) (by omega) (by omega) (by omega) color (Nat.succ_pos _)⟩

/-- Settles O30: DRAW_RECT is the fill of `width * height` pixels. -/
theorem drawRectResult : Obligations.DrawRectResult := by
  intro x y width height color s hw hh hx hy
  exact ⟨_, exec_drawRect color hw hh hx hy,
    s.draw_fill (by omega) (by omega) (by omega) (by omega) color (Nat.mul_pos hw hh)⟩

/-- Settles O31: CLEAR_SCREEN is the fill of the whole panel, as is DRAW_RECT of the whole panel. -/
theorem clearScreenResult : Obligations.ClearScreenResult := by
  intro s
  obtain ⟨hframe, hpins, hsettled⟩ := s.draw_fill (x0 := 0) (y0 := 0) (x1 := 175) (y1 := 219) (by decide)
    (by decide) (by decide) (by decide) 0x0000#16 (n := 176 * 220) (by decide)
  exact ⟨_, exec_clearScreen s, hframe, hpins, hsettled,
    exec_drawRect (x := 0#8) (y := 0#8) (width := 176#8) (height := 220#8) _ (by decide) (by decide) (by decide)
      (by decide)⟩

end Sys2Proof.Machine
end

section
/-! The tile commands by output rows and columns: transactions, four tiles of a composite, the last output pixel; and
what drawing commands never select or exceed. -/

namespace Sys2Proof.Machine

/-! ### Strokes by output rows and columns -/

theorem flatMap_range_map_add (m n : Nat) :
    ((List.range m).flatMap fun q => (List.range n).map (q * n + ·)) = List.range (m * n) := by
  induction m with
  | zero => simp
  | succ m ih => rw [List.range_succ, List.flatMap_append, ih, Nat.succ_mul, List.range_add, List.flatMap_singleton]

/-- Counting in blocks of `n`: what block `q` does at its place `k` is done at `q * n + k`. -/
theorem flatMap_range_blocks {α : Type} (m n : Nat) (f : Nat → Nat → List α) :
    ((List.range m).flatMap fun q => (List.range n).flatMap fun k => f q (q * n + k)) =
      (List.range (m * n)).flatMap fun j => f (j / n) j := by
  rw [← flatMap_range_map_add, List.flatMap_assoc]
  refine List.flatMap_congr fun q _ => ?_
  rw [List.flatMap_map]
  refine List.flatMap_congr fun k hk => ?_
  have hk : k < n := List.mem_range.1 hk
  have hdiv : (q * n + k) / n = q := by
    rw [Nat.mul_comm, Nat.mul_add_div (by omega), Nat.div_eq_of_lt hk, Nat.add_zero]
  rw [hdiv]

/-- The stroke of the output pixel at output row `o` and column `col` (43_sprite.md R164–R167). -/
def State.tileStroke (s : State) (x y scale a : Nat) (pal : Byte) (fv fh : Bool) (o col : Nat) : Stroke :=
  pixelStroke s.params pal (s.sourceIndex a (o / scale) (col / scale) fh) (x + col + 1) (panelRow y (8 * scale) o fv)

/-- The strokes of a tile, output row by output row: the cursor at the row's start, then its pixels by column. -/
theorem State.tileStrokes_eq (s : State) (x y scale a : Nat) (pal : Byte) (fv fh : Bool) :
    s.tileStrokes x y scale a pal fv fh = (List.range (8 * scale)).flatMap fun o =>
      .place x (panelRow y (8 * scale) o fv) ::
        (List.range (8 * scale)).map (s.tileStroke x y scale a pal fv fh o) := by
  refine Eq.trans ?_ (flatMap_range_blocks 8 scale fun r o => .place x (panelRow y (8 * scale) o fv) ::
    (List.range (8 * scale)).map fun col => pixelStroke s.params pal (s.sourceIndex a r (col / scale) fh)
      (x + col + 1) (panelRow y (8 * scale) o fv))
  refine List.flatMap_congr fun r _ => List.flatMap_congr fun rep _ => ?_
  refine congrArg (Stroke.place x (panelRow y (8 * scale) (r * scale + rep) fv) :: ·) ?_
  simp only [List.map_eq_flatMap]
  exact flatMap_range_blocks 8 scale fun q col => [pixelStroke s.params pal (s.sourceIndex a r q fh) (x + col + 1)
    (panelRow y (8 * scale) (r * scale + rep) fv)]

/-! ### The records of a tile -/

theorem panelRow_bounds {y big o : Nat} (fv : Bool) (ho : o < big) :
    y ≤ panelRow y big o fv ∧ panelRow y big o fv < y + big := by
  unfold panelRow
  split <;> omega

theorem itemsTrans_flatMap {α : Type} (l : List α) (f : α → List Item) :
    itemsTrans (l.flatMap f) = l.flatMap fun a => itemsTrans (f a) := List.flatMap_assoc

theorem itemsTrans_pixelStroke (p : Params) (pal : Byte) (idx : BitVec 3) {nextX yrow : Nat} (hx : nextX < 256)
    (hy : yrow < 256) :
    itemsTrans ((pixelStroke p pal idx nextX yrow).items p) = pixelTrans p pal idx nextX yrow := by
  unfold pixelStroke pixelTrans transparentIndex
  split
  · exact itemsTrans_correction p hx hy
  · rfl

/-- The records of a tile on the panel. -/
theorem State.itemsTrans_tilePainting (s : State) {x y scale : Nat} (hx : x + 8 * scale ≤ 176)
    (hy : y + 8 * scale ≤ 220) (a : Nat) (pal : Byte) (fv fh : Bool) :
    itemsTrans ((s.tilePainting x y scale a pal fv fh).items s.params) = s.tileTrans x y scale a pal fv fh := by
  rw [Painting.items, itemsTrans_append, State.tileTrans]
  refine congrArg₂ (· ++ ·) (itemsTrans_setWindowSeq_eq _ ?_ ?_ ?_ ?_) ?_
  iterate 4 simp only [State.tilePainting]; omega
  rw [State.tilePainting, s.tileStrokes_eq, List.flatMap_assoc, itemsTrans_flatMap]
  refine List.flatMap_congr fun o ho => ?_
  obtain ⟨-, hrow⟩ := panelRow_bounds (y := y) fv (List.mem_range.1 ho)
  rw [List.flatMap_cons, itemsTrans_append, Stroke.items, itemsTrans_correction _ (by omega) (by omega),
    List.flatMap_map, itemsTrans_flatMap]
  refine congrArg _ (List.flatMap_congr fun col hcol => ?_)
  have hcol := List.mem_range.1 hcol
  exact itemsTrans_pixelStroke _ _ _ (by omega) (by omega)

theorem causes_drawTile_eq_nil {p : Params} {x y scale pal : Byte} (hf : TileFits p x y scale pal (8 * scale.toNat))
    {addr : AssetAddr} (ha : addr.toNat + 23 < assetBytes p) (fv fh : Bool) :
    causes p (.drawTile x y scale pal addr fv fh) = [] := by
  obtain ⟨hscale, hpal, hright, hbottom⟩ := hf
  refine (causes_eq_nil_iff _ _).mpr ⟨?_, hpal, ha⟩
  simp only [Instr.wellFormed, Bool.and_eq_true, decide_eq_true_eq, areaOnPanel_iff]
  exact ⟨hscale, hright, hbottom⟩

theorem causes_drawComposite_eq_nil {p : Params} {x y scale pal : Byte}
    (hf : TileFits p x y scale pal (16 * scale.toNat)) {tl tr bl br : AssetAddr} (htl : tl.toNat + 23 < assetBytes p)
    (htr : tr.toNat + 23 < assetBytes p) (hbl : bl.toNat + 23 < assetBytes p) (hbr : br.toNat + 23 < assetBytes p) :
    causes p (.drawComposite x y scale pal tl tr bl br) = [] := by
  obtain ⟨hscale, hpal, hright, hbottom⟩ := hf
  refine (causes_eq_nil_iff _ _).mpr ⟨?_, hpal, htl, htr, hbl, hbr⟩
  simp only [Instr.wellFormed, Bool.and_eq_true, decide_eq_true_eq, areaOnPanel_iff]
  exact ⟨hscale, hright, hbottom⟩

/-- The items of DRAW_TILE. -/
def State.tileItems (s : State) (x y scale a : Nat) (pal : Byte) (fv fh : Bool) : List Item :=
  (s.tilePainting x y scale a pal fv fh).items s.params

/-- DRAW_TILE that passes its checks. -/
theorem exec_drawTile {s : State} {x y scale pal : Byte} (hf : TileFits s.params x y scale pal (8 * scale.toNat))
    {addr : AssetAddr} (ha : addr.toNat + 23 < assetBytes s.params) (fv fh : Bool) :
    exec (.drawTile x y scale pal addr fv fh) s =
      .next (s.draw (s.tileItems x.toNat y.toNat scale.toNat addr.toNat pal fv fh)) := by
  rw [exec_draws rfl (causes_drawTile_eq_nil hf ha fv fh), State.drawItems, State.paintings, List.flatMap_singleton]
  rfl

theorem State.tileItems_sparesRstBl (s : State) (x y scale a : Nat) (pal : Byte) (fv fh : Bool) :
    ∀ t ∈ s.tileItems x y scale a pal fv fh, t.SparesRstBl := by
  have h := opsItems_sparesRstBl (tileBody_sparesRstBl (p := s.params) (x := x) (y := y) (scale := scale) (a := a)
    (pal := pal) (fv := fv) (fh := fh)) s.params s.assetByte
  rwa [s.opsItems_tileBody] at h

/-- What a drawing with the records `new` leaves of the block on the way from `s` to `t`. -/
structure State.Drawn (s t : State) (new : List Trans) : Prop where
  frame : s.Frame t
  rst : t.pins.rst = s.pins.rst
  bl : t.pins.bl = s.pins.bl
  settled : s.Settled → t.Settled ∧ t.transactions = s.transactions ++ new

/-- A tile on the panel, drawn with the pixels that `s` has. -/
theorem State.drawn_tile (s u : State) {x y scale : Nat} (hx : x + 8 * scale ≤ 176) (hy : y + 8 * scale ≤ 220)
    (a : Nat) (pal : Byte) (fv fh : Bool) :
    u.Drawn (u.draw (s.tileItems x y scale a pal fv fh)) (s.tileTrans x y scale a pal fv fh) := by
  have hspares := s.tileItems_sparesRstBl x y scale a pal fv fh
  obtain ⟨hr, hb⟩ := lastRst_lastBl_of_spares hspares u.pins.rst u.pins.bl
  refine ⟨u.draw_frame _, (u.runItems_rst _).trans hr, (u.runItems_bl _).trans hb, fun hs => ?_⟩
  rw [← s.itemsTrans_tilePainting hx hy]
  exact State.draw_settled hs _

/-- Settles O34: DRAW_TILE draws its items (`exec_drawTile`), whose records are those of the tile by output rows and
columns (`State.itemsTrans_tilePainting`). -/
theorem drawTileResult : Obligations.DrawTileResult := by
  intro x y scale pal addr fv fh s hf ha
  obtain ⟨hframe, hrst, hbl, hsettled⟩ := s.drawn_tile s hf.right hf.bottom addr.toNat pal fv fh
  exact ⟨_, exec_drawTile hf ha fv fh, hframe, hrst, hbl, hsettled⟩

/-! ### A composite -/

/-- The items of DRAW_COMPOSITE: those of its four tiles. -/
theorem exec_drawComposite {s : State} {x y scale pal : Byte} (hf : TileFits s.params x y scale pal (16 * scale.toNat))
    {tl tr bl br : AssetAddr} (htl : tl.toNat + 23 < assetBytes s.params) (htr : tr.toNat + 23 < assetBytes s.params)
    (hbl : bl.toNat + 23 < assetBytes s.params) (hbr : br.toNat + 23 < assetBytes s.params) :
    exec (.drawComposite x y scale pal tl tr bl br) s = .next (s.draw
      (s.tileItems x.toNat y.toNat scale.toNat tl.toNat pal false false ++
        s.tileItems (x.toNat + 8 * scale.toNat) y.toNat scale.toNat tr.toNat pal false false ++
        s.tileItems x.toNat (y.toNat + 8 * scale.toNat) scale.toNat bl.toNat pal true false ++
        s.tileItems (x.toNat + 8 * scale.toNat) (y.toNat + 8 * scale.toNat) scale.toNat br.toNat pal true false)) := by
  rw [exec_draws rfl (causes_drawComposite_eq_nil hf htl htr hbl hbr), State.drawItems]
  simp only [State.paintings, List.flatMap_cons, List.flatMap_nil, List.append_nil, List.append_assoc]
  rfl

theorem State.busBlind_finish : BusBlind State.finish := fun _ m => by cases m <;> rfl

/-- Two drawings in a row are one but for the controller; after INIT they are one (70_reset_and_hazards.md R243). -/
theorem State.draw_append (s : State) (ts us : List Item) :
    ((s.draw ts).draw us).SameBlock (s.draw (ts ++ us)) ∧
      (s.controller.initialized = true → s.draw (ts ++ us) = (s.draw ts).draw us) := by
  have hrun : s.draw (ts ++ us) = (s.runItems ts).finish.draw us := by
    rw [State.draw, State.draw, State.runItems_append, State.busBlind_finish.runItems]
    rfl
  constructor
  · have hblock : (s.draw ts).SameBlock (s.runItems ts).finish := .mk _
    rw [hrun]
    exact (hblock.runItems us).complete .drawing
  · intro h
    have hdraw : s.draw ts = (s.runItems ts).finish := by
      unfold State.draw State.complete
      rw [Controller.endCommand_drawing _ ((s.runItems_initialized ts).trans h)]
    rw [hrun, hdraw]

theorem State.SameBlock.trans {s t u : State} : s.SameBlock t → t.SameBlock u → s.SameBlock u :=
  fun (.mk _) (.mk d) => .mk d

theorem State.SameBlock.draw {s t : State} (h : s.SameBlock t) (ts : List Item) : (s.draw ts).SameBlock (t.draw ts) :=
  (h.runItems ts).complete .drawing

/-- Four drawings in a row are one but for the controller; after INIT they are one. -/
theorem State.draw_append_four (s : State) (ts us vs ws : List Item) :
    ((((s.draw ts).draw us).draw vs).draw ws).SameBlock (s.draw (ts ++ us ++ vs ++ ws)) ∧
      (s.controller.initialized = true →
        s.draw (ts ++ us ++ vs ++ ws) = (((s.draw ts).draw us).draw vs).draw ws) := by
  obtain ⟨h2, e2⟩ := s.draw_append ts us
  obtain ⟨h3, e3⟩ := s.draw_append (ts ++ us) vs
  obtain ⟨h4, e4⟩ := s.draw_append (ts ++ us ++ vs) ws
  exact ⟨((((h2.draw vs).trans h3).draw ws).trans h4), fun h => by rw [e4 h, e3 h, e2 h]⟩

/-- A tile's items are those of any state with the same memory and parameters. -/
theorem State.tileItems_congr {s t : State} (hp : t.params = s.params) (ha : t.assets = s.assets) (x y scale a : Nat)
    (pal : Byte) (fv fh : Bool) : t.tileItems x y scale a pal fv fh = s.tileItems x y scale a pal fv fh := by
  have hb : t.assetByte = s.assetByte := by
    funext k
    rw [State.assetByte, State.assetByte, ha]
  have ht := t.opsItems_tileBody x y scale a pal fv fh
  rw [hp, hb, s.opsItems_tileBody] at ht
  rw [State.tileItems, Painting.items, hp]
  exact ht.symm

/-- A composite's corner by a tile's slot arithmetic. -/
theorem toNat_add_eight_mul {x scale : Byte} {bound : Nat} (h : x.toNat + 16 * scale.toNat ≤ bound)
    (hb : bound < 256) : (x + 8#8 * scale).toNat = x.toNat + 8 * scale.toNat := by
  rw [BitVec.toNat_add, BitVec.toNat_mul, BitVec.toNat_ofNat]
  omega

/-- A tile drawn after others finds the same memory and parameters. -/
theorem exec_drawTile_after {s t : State} (h : s.Frame t) {x y scale pal : Byte}
    (hf : TileFits s.params x y scale pal (8 * scale.toNat)) {addr : AssetAddr}
    (ha : addr.toNat + 23 < assetBytes s.params) (fv fh : Bool) :
    exec (.drawTile x y scale pal addr fv fh) t =
      .next (t.draw (s.tileItems x.toNat y.toNat scale.toNat addr.toNat pal fv fh)) := by
  rw [exec_drawTile (s := t) (h.params ▸ hf) (h.params ▸ ha), State.tileItems_congr h.params h.assets]

theorem State.Frame.trans {s t u : State} (h : s.Frame t) (k : t.Frame u) : s.Frame u where
  params := k.params.trans h.params
  err := k.err.trans h.err
  errCode := k.errCode.trans h.errCode
  assets := k.assets.trans h.assets
  inputs := k.inputs.trans h.inputs
  raceReads := k.raceReads.trans h.raceReads
  phase := k.phase
  seq := k.seq
  olds := k.olds
  scrollOffset := k.scrollOffset.trans h.scrollOffset

theorem State.Drawn.trans {s t u : State} {new new' : List Trans} (h : s.Drawn t new) (k : t.Drawn u new') :
    s.Drawn u (new ++ new') where
  frame := h.frame.trans k.frame
  rst := k.rst.trans h.rst
  bl := k.bl.trans h.bl
  settled hs := by
    obtain ⟨ht, htrans⟩ := h.settled hs
    obtain ⟨hu, hutrans⟩ := k.settled ht
    exact ⟨hu, by rw [hutrans, htrans, List.append_assoc]⟩

/-- Settles O35: each tile finds the memory of the start (`exec_drawTile_after`), and four drawings in a row are one
(`State.draw_append_four`). -/
theorem drawCompositeIsFourTiles : Obligations.DrawCompositeIsFourTiles := by
  intro x y scale pal tl tr bl br s hf htl htr hbl hbr x' y'
  obtain ⟨hscale, hpal, hright, hbottom⟩ := hf
  have hx' : x'.toNat = x.toNat + 8 * scale.toNat := toNat_add_eight_mul hright (by decide)
  have hy' : y'.toNat = y.toNat + 8 * scale.toNat := toNat_add_eight_mul hbottom (by decide)
  have hfit (u v : Byte) (hu : u.toNat ≤ x.toNat + 8 * scale.toNat) (hv : v.toNat ≤ y.toNat + 8 * scale.toNat) :
      TileFits s.params u v scale pal (8 * scale.toNat) := ⟨hscale, hpal, by omega, by omega⟩
  have hcomp := exec_drawComposite ⟨hscale, hpal, hright, hbottom⟩ htl htr hbl hbr
  rw [← hx', ← hy'] at hcomp ⊢
  have f1 := hfit x y (by omega) (by omega)
  have f2 := hfit x' y (by omega) (by omega)
  have f3 := hfit x y' (by omega) (by omega)
  have f4 := hfit x' y' (by omega) (by omega)
  have d1 := s.drawn_tile s f1.right f1.bottom tl.toNat pal false false
  have d2 := d1.trans (s.drawn_tile _ f2.right f2.bottom tr.toNat pal false false)
  have d3 := d2.trans (s.drawn_tile _ f3.right f3.bottom bl.toNat pal true false)
  obtain ⟨hframe, hrst, hbl', hsettled⟩ := d3.trans (s.drawn_tile _ f4.right f4.bottom br.toNat pal true false)
  refine ⟨rfl, rfl, _, _, _, _, exec_drawTile f1 htl _ _, exec_drawTile_after d1.frame f2 htr _ _,
    exec_drawTile_after d2.frame f3 hbl _ _, exec_drawTile_after d3.frame f4 hbr _ _, ?_, hframe, hrst, hbl', ?_⟩
  · obtain ⟨hblock, hinit⟩ := s.draw_append_four (s.tileItems x.toNat y.toNat scale.toNat tl.toNat pal false false)
      (s.tileItems x'.toNat y.toNat scale.toNat tr.toNat pal false false)
      (s.tileItems x.toNat y'.toNat scale.toNat bl.toNat pal true false)
      (s.tileItems x'.toNat y'.toNat scale.toNat br.toNat pal true false)
    generalize s.draw (_ ++ _ ++ _ ++ _) = u at hcomp hblock hinit
    obtain ⟨c⟩ := hblock
    exact ⟨c, hcomp, fun h => congrArg State.controller (hinit h)⟩
  · simpa only [List.append_assoc] using hsettled

end Sys2Proof.Machine
end

section
/-! The last output pixel of a tile and the chip select, the scroll offset in drawing, the number of transactions. -/

namespace Sys2Proof.Machine

/-! ### The last output pixel -/

/-- The last output pixel of a tile shows source row 7, position 7. -/
theorem lastPixel_div {scale : Nat} (h : 1 ≤ scale) : (8 * scale - 1) / scale = 7 :=
  Nat.div_eq_of_lt_le (by omega) (by omega)

/-- A tile's strokes end with that of its last output pixel. -/
theorem State.tileStrokes_eq_append_last (s : State) (x y : Nat) {scale : Nat} (hscale : 1 ≤ scale) (a : Nat)
    (pal : Byte) (fv fh : Bool) :
    ∃ ss, s.tileStrokes x y scale a pal fv fh =
      ss ++ [s.tileStroke x y scale a pal fv fh (8 * scale - 1) (8 * scale - 1)] := by
  obtain ⟨n, hn⟩ : ∃ n, 8 * scale = n + 1 := ⟨8 * scale - 1, by omega⟩
  rw [s.tileStrokes_eq, hn, List.range_succ, List.flatMap_append, List.flatMap_singleton, List.map_append,
    ← List.cons_append, ← List.append_assoc]
  exact ⟨_, rfl⟩

/-- A tile's last output pixel is a placement exactly when source pixel 7 of row 7 is transparent. -/
theorem State.tileStroke_last (s : State) (x y : Nat) {scale : Nat} (hscale : 1 ≤ scale) (a : Nat) (pal : Byte)
    (fv fh : Bool) : (s.tileStroke x y scale a pal fv fh (8 * scale - 1) (8 * scale - 1)).color? =
      if s.sourceIndex a 7 7 fh = 7#3 then none else some (palRead s.params pal (s.sourceIndex a 7 7 fh)) := by
  rw [State.tileStroke, lastPixel_div hscale, pixelStroke, transparentIndex]
  split <;> rfl

/-- A placement ends with a select, which leaves CS asserted, a colour write with CS deasserted
(40_bus_protocol.md R118). -/
theorem State.runItems_stroke_cs (u : State) (p : Params) (ts : List Item) (st : Stroke) :
    (u.runItems (ts ++ st.items p)).pins.cs = if st.color? = none then .asserted else .deasserted := by
  rw [State.runItems_append]
  cases st <;> rfl

/-- CS after items that end with a tile's. -/
theorem State.draw_tile_cs (s u : State) (ts : List Item) (x y : Nat) {scale : Nat} (hscale : 1 ≤ scale) (a : Nat)
    (pal : Byte) (fv fh : Bool) :
    (u.draw (ts ++ s.tileItems x y scale a pal fv fh)).pins.cs =
      if s.sourceIndex a 7 7 fh = 7#3 then .asserted else .deasserted := by
  obtain ⟨ss, hss⟩ := s.tileStrokes_eq_append_last x y hscale a pal fv fh
  rw [State.tileItems, Painting.items, State.tilePainting, hss, List.flatMap_append, List.flatMap_singleton,
    ← List.append_assoc, ← List.append_assoc]
  refine (State.runItems_stroke_cs u _ _ _).trans ?_
  rw [s.tileStroke_last x y hscale]
  split <;> simp

/-- Settles O54: SELECT_REG ends in `BusSel`, a tile in its last output pixel (`State.draw_tile_cs`), and an IDLE block
rests (`State.edges_idle`). -/
theorem chipSelectAfter : Obligations.ChipSelectAfter := by
  refine fun s => ⟨fun idx => ⟨_, exec_selectReg idx s, rfl, fun n => State.edges_idle n _ rfl,
    fun j => ⟨_, exec_selectReg j _, rfl⟩, fun h l => ⟨_, exec_writeData h l _, rfl⟩⟩,
    fun x y scale pal addr fv fh hf ha => ⟨_, exec_drawTile hf ha fv fh, fun n => State.edges_idle n _ rfl,
      s.draw_tile_cs s [] _ _ hf.scale _ _ _ _⟩,
    fun x y scale pal tl tr bl br hf htl htr hbl hbr => ⟨_, exec_drawComposite hf htl htr hbl hbr,
      fun n => State.edges_idle n _ rfl, s.draw_tile_cs s _ _ _ hf.scale _ _ _ _⟩⟩

/-! ### The scroll offset in drawing -/

/-- The plan with another scroll offset to set. -/
def Plan.withScroll (v : Byte) : Plan → Plan
  | .reject code => .reject code
  | .run kind _ ops => .run kind v ops

/-- No drawing command's checks or operations depend on the scroll offset (44_scroll_init.md R193). -/
theorem planOf_withScroll {i : Instr} (hi : isDrawing i = true) (p : Params) (scroll v : Byte) :
    planOf i p v = (planOf i p scroll).withScroll v := by
  have check {c : Prop} [Decidable c] {code : ErrCode} {q r : Plan} (hq : q = r.withScroll v) :
      (if c then .reject code else q : Plan) = (if c then .reject code else r : Plan).withScroll v := by
    split
    · rfl
    · exact hq
  cases i with
  | drawPixel | drawHline => exact check rfl
  | drawRect => exact check (check rfl)
  | clearScreen => rfl
  | drawTile | drawComposite => exact check (check (check (check rfl)))
  | selectReg | writeData | setWindow | setCursor | scrollFwd | scrollBwd | init => cases hi

theorem State.perform_setScroll (s : State) (v : Byte) (plan : Plan) :
    (s.setScroll v).perform (plan.withScroll v) = (s.perform plan).setScroll v := by
  cases plan with
  | reject code => rfl
  | run kind scroll ops => exact (State.busBlind_setScroll v).perform_run rfl (fun _ => rfl) rfl

/-- The registers that strokes select. -/
theorem mem_itemsTrans_strokes {p : Params} {i : Byte} {ss : List Stroke}
    (h : .sel i ∈ itemsTrans (ss.flatMap (Stroke.items p))) : i ∈ [p.regCurx, p.regCury, p.regGram] := by
  rw [itemsTrans_flatMap, List.mem_flatMap] at h
  obtain ⟨st, -, hst⟩ := h
  cases st with
  | place x y => simpa [itemsTrans, Stroke.items, correction, setCursorSeq, itemTrans] using hst
  | color c => simp [itemsTrans, Stroke.items, colorItem, itemTrans] at hst

/-- The registers that a painting selects. -/
theorem mem_itemsTrans_painting {p : Params} {i : Byte} {pt : Painting} (h : .sel i ∈ itemsTrans (pt.items p)) :
    i ∈ [p.regHsa, p.regHea, p.regVsa, p.regVea, p.regCurx, p.regCury, p.regGram] := by
  rw [Painting.items, itemsTrans_append, List.mem_append] at h
  rcases h with h | h
  · have hw : i ∈ [p.regHsa, p.regHea, p.regVsa, p.regVea] := by simpa [itemsTrans, setWindowSeq, itemTrans] using h
    exact List.mem_append_left _ hw
  · exact List.mem_append_right [p.regHsa, p.regHea, p.regVsa, p.regVea] (mem_itemsTrans_strokes h)

/-- No drawing command selects the scroll register. -/
theorem State.sel_regScroll_not_mem_drawItems (s : State) (hd : RegsDistinct s.params) (i : Instr) :
    .sel s.params.regScroll ∉ itemsTrans (s.drawItems i) := by
  intro h
  rw [State.drawItems, itemsTrans_flatMap, List.mem_flatMap] at h
  obtain ⟨pt, -, hpt⟩ := h
  have hdisjoint : ([s.params.regHsa, s.params.regHea, s.params.regVsa, s.params.regVea, s.params.regCurx,
    s.params.regCury, s.params.regGram] ++ [s.params.regScroll]).Nodup := hd
  exact List.disjoint_of_nodup_append hdisjoint (mem_itemsTrans_painting hpt) (List.mem_singleton_self _)

/-- What a drawing command does to the scroll offset and the transaction trace, rejected or not. -/
theorem exec_drawing_cases {i : Instr} {s t : State} (hi : isDrawing i = true) (h : exec i s = .next t) :
    (∃ code, t = s.reject code) ∨ (causes s.params i = [] ∧ t = s.draw (s.drawItems i)) := by
  by_cases hc : causes s.params i = []
  · exact .inr ⟨hc, Host.Outcome.next.inj (h.symm.trans (exec_draws hi hc))⟩
  · obtain ⟨code, -, hplan⟩ := planOf_reject_of_causes hc s.scrollOffset
    obtain rfl := exec_next_iff.mp h
    exact .inl ⟨code, by rw [hplan]; rfl⟩

/-- Settles O49: a drawing command's plan is that of any scroll offset (`planOf_withScroll`), and its paintings never
select the scroll register (`State.sel_regScroll_not_mem_drawItems`). -/
theorem drawingIgnoresScroll : Obligations.DrawingIgnoresScroll := by
  intro i v s t hi h
  refine ⟨?_, exec_next_iff.mpr ?_, fun hd hs => ?_⟩
  · obtain ⟨code, rfl⟩ | ⟨-, rfl⟩ := exec_drawing_cases hi h
    · rfl
    · exact (s.draw_frame _).scrollOffset
  · rw [← exec_next_iff.mp h]
    exact (congrArg _ (planOf_withScroll hi s.params s.scrollOffset v)).trans (s.perform_setScroll v _)
  · obtain ⟨code, rfl⟩ | ⟨-, rfl⟩ := exec_drawing_cases hi h
    · exact ⟨[], (List.append_nil _).symm, List.not_mem_nil⟩
    · exact ⟨_, (State.draw_settled hs _).2, s.sel_regScroll_not_mem_drawItems hd i⟩

/-! ### The number of transactions -/

/-- A stroke is five records at most. -/
theorem length_itemsTrans_strokes (p : Params) (ss : List Stroke) :
    (itemsTrans (ss.flatMap (Stroke.items p))).length = 5 * placements ss + (strokeColors ss).length := by
  have h := countP_itemsTrans_strokes (p := p) (P := fun _ => true) (h := 5) (d := 1) (fun _ _ => rfl) (fun _ => rfl) ss
  rwa [List.countP_true, Nat.one_mul] at h

/-- A painting is the window's eight records and its strokes'. -/
theorem length_itemsTrans_painting (p : Params) (pt : Painting) :
    (itemsTrans (pt.items p)).length = 8 + 5 * placements pt.strokes + (strokeColors pt.strokes).length := by
  rw [Painting.items, itemsTrans_append, List.length_append, length_itemsTrans_strokes, Nat.add_assoc]
  rfl

theorem length_fillTrans (p : Params) (x0 y0 x1 y1 : Nat) (color : Half) (n : Nat) :
    (itemsTrans ((fillPainting x0 y0 x1 y1 color n).items p)).length = 13 + n := by
  have hp : placements (List.replicate n (Stroke.color color)) = 0 := by
    simp [placements, List.countP_replicate, Stroke.color?]
  have hc : (strokeColors (List.replicate n (Stroke.color color))).length = n := by
    have h := length_eq_placements_add_colors (List.replicate n (Stroke.color color))
    rw [List.length_replicate, hp] at h
    omega
  rw [length_itemsTrans_painting, fillPainting, placements_place, strokeColors_place, hp, hc]

/-- A tile of side `big` is at most its window and five records for each of its `big` rows and `big * big` pixels. -/
theorem State.length_tileTrans_le (s : State) (x y scale a : Nat) (pal : Byte) (fv fh : Bool) {bound : Nat}
    (h : 8 * scale ≤ bound) :
    (itemsTrans ((s.tilePainting x y scale a pal fv fh).items s.params)).length ≤ 8 + 5 * (bound + bound * bound) := by
  have hlen := length_eq_placements_add_colors (s.tileStrokes x y scale a pal fv fh)
  have hsq := Nat.mul_le_mul h h
  rw [s.length_tileStrokes] at hlen
  rw [length_itemsTrans_painting]
  show 8 + 5 * placements (s.tileStrokes x y scale a pal fv fh) +
    (strokeColors (s.tileStrokes x y scale a pal fv fh)).length ≤ _
  omega

theorem State.length_drawItems_le {s : State} {i : Instr} (hc : causes s.params i = []) :
    (itemsTrans (s.drawItems i)).length ≤ 156672 := by
  obtain ⟨hwf, -⟩ := (causes_eq_nil_iff i s.params).mp hc
  rw [State.drawItems, itemsTrans_flatMap, List.length_flatMap]
  cases i with
  | selectReg | writeData | setWindow | setCursor | scrollFwd | scrollBwd | init => simp [State.paintings]
  | clearScreen =>
    rw [State.paintings, List.map_singleton, List.sum_singleton, length_fillTrans]
    decide
  | drawPixel =>
    rw [State.paintings, List.map_singleton, List.sum_singleton, length_fillTrans]
    decide
  | drawHline x y width color =>
    rw [State.paintings, List.map_singleton, List.sum_singleton, length_fillTrans]
    omega
  | drawRect x y width height color =>
    rw [State.paintings, List.map_singleton, List.sum_singleton, length_fillTrans]
    simp only [Instr.wellFormed, Bool.and_eq_true, decide_eq_true_eq, areaOnPanel_iff] at hwf
    have hn : width.toNat * height.toNat ≤ 176 * 220 := Nat.mul_le_mul (by omega) (by omega)
    omega
  | drawTile x y scale pal addr fv fh =>
    simp only [Instr.wellFormed, Bool.and_eq_true, decide_eq_true_eq, areaOnPanel_iff] at hwf
    rw [State.paintings, List.map_singleton, List.sum_singleton]
    exact (s.length_tileTrans_le _ _ _ _ _ _ _ (bound := 176) (by omega)).trans (by decide)
  | drawComposite x y scale pal tl tr bl br =>
    simp only [Instr.wellFormed, Bool.and_eq_true, decide_eq_true_eq, areaOnPanel_iff] at hwf
    have hside : 8 * scale.toNat ≤ 88 := by omega
    have htile := fun x y a fv => s.length_tileTrans_le x y scale.toNat a pal fv false hside
    have h1 := htile x.toNat y.toNat tl.toNat false
    have h2 := htile (x.toNat + 8 * scale.toNat) y.toNat tr.toNat false
    have h3 := htile x.toNat (y.toNat + 8 * scale.toNat) bl.toNat true
    have h4 := htile (x.toNat + 8 * scale.toNat) (y.toNat + 8 * scale.toNat) br.toNat true
    simp only [State.paintings, List.map_cons, List.map_nil, List.sum_cons, List.sum_nil]
    omega

end Sys2Proof.Machine
end

section
/-! SET_CURSOR, the scroll commands and raw writes at the reference controller. -/

namespace Sys2Proof.Machine

/-! ### SET_CURSOR -/

/-- The records of a cursor of bytes (41_addressing.md R133). -/
theorem itemsTrans_setCursorSeq (p : Params) (x y : Byte) :
    itemsTrans (setCursorSeq p x.toNat y.toNat) = [.sel p.regCurx, .data 0x00#8 x, .sel p.regCury, .data 0x00#8 y] := by
  simp [itemsTrans, setCursorSeq, itemTrans]

/-- The pins after a cursor of bytes are those after its last register write. -/
theorem State.runItems_setCursorSeq_pins (s : State) (x y : Byte) :
    (s.runItems (setCursorSeq s.params x.toNat y.toNat)).pins =
      { s.pins with d := y, rs := .data, cs := .deasserted, wr := .deasserted } := by
  simp [setCursorSeq, State.runItem_reg_pins]

/-- SET_CURSOR on the panel passes its check (41_addressing.md R134). -/
theorem planSetCursor_run (p : Params) {x y : Byte} (scroll : Byte) (hx : x.toNat < 176) (hy : y.toNat < 220) :
    planSetCursor p x y scroll = .run .plain scroll ((setCursorSeq p x.toNat y.toNat).map .item) := by
  simp [planSetCursor, onPanel, panelW, panelH, hx, hy]

/-- Settles O23: the check passes (`planSetCursor_run`), so the command is its items (`State.perform_items`), whose
pins, frame and records are those of two register writes. -/
theorem setCursorResult : Obligations.SetCursorResult := by
  intro x y s hx hy
  have hexec : exec (.setCursor x y) s = .next (s.runItems (setCursorSeq s.params x.toNat y.toNat)).finish := by
    rw [← State.perform_items, ← planSetCursor_run s.params s.scrollOffset hx hy]
    exact exec_eq_perform _ s
  refine ⟨_, hexec, State.runItems_setCursorSeq_pins s x y, rfl, State.runItems_finish_frame s _, fun hs => ?_⟩
  rw [← itemsTrans_setCursorSeq]
  exact State.runItems_finish_settled s _ hs

/-! ### The scroll commands -/

/-- A byte sent as a 16-bit value, at the register. -/
theorem zext16_toNat_eq_setWidth (v : Byte) : zext16 v.toNat = v.setWidth 16 := by
  apply BitVec.eq_of_toNat_eq
  simp [zext16]

/-- A plan that sets the scroll offset and writes it to the controller (44_scroll_init.md R190, R192). -/
theorem exec_scroll {i : Instr} {v : Byte} {s : State}
    (h : (i = .scrollFwd ∧ v = scrollNext s.scrollOffset) ∨ (i = .scrollBwd ∧ v = scrollPrev s.scrollOffset)) :
    exec i s = .next (s.perform (planScrollTo s.params v)) := by
  obtain ⟨rfl, rfl⟩ | ⟨rfl, rfl⟩ := h <;> rfl

/-- Settles O45: both commands perform one plan (`exec_scroll`), a register write of the new offset. -/
theorem scrollResult : Obligations.ScrollResult := by
  intro i v s h
  obtain ⟨hreport, hphase, hseq, holds, hscroll⟩ :=
    s.perform_run_frame .plain v [.item (.reg s.params.regScroll (zext16 v.toNat))]
  refine ⟨_, exec_scroll h, hscroll, hreport, hphase, hseq, holds, ?_, fun hs => ?_, fun hd => ?_⟩
  · exact congrArg (fun d => { s.pins with d := d, rs := .data, cs := .deasserted, wr := .deasserted })
      (loByte_zext16 v)
  · have h := s.perform_run_settled .plain v [.item (.reg s.params.regScroll (zext16 v.toNat))] hs
    rwa [show itemsTrans _ = [.sel s.params.regScroll, .data 0x00#8 v] by
      simp [opsItems, Op.items, itemsTrans, itemTrans]] at h
  · refine (State.runItem_reg_controller (s.start .plain v) _ _).trans ?_
    have hhi : Controller.item.hiByteOf (zext16 v.toNat) = 0x00#8 := hiByte_zext16 v
    have hreg := Controller.regWrite_scroll s.params hd
    simp only [Controller.item, State.start_params, hreg, hhi]
    rw [zext16_toNat_eq_setWidth]
    rfl

/-! ### Raw writes -/

/-- A write of an index that is none of the eight goes to that register (log 20). -/
theorem Controller.regWrite_unnamed {p : Params} {i : Byte} (v : Half) (c : Controller)
    (h : i ∉ [p.regHsa, p.regHea, p.regVsa, p.regVea, p.regCurx, p.regCury, p.regScroll]) (hg : i ≠ p.regGram) :
    c.regWrite p i v = { c with regs := Memory.write c.regs i.toNat v } := by
  simp only [List.mem_cons, List.not_mem_nil, or_false, not_or] at h
  obtain ⟨h1, h2, h3, h4, h5, h6, h7⟩ := h
  simp [Controller.regWrite, h1, h2, h3, h4, h5, h6, h7, hg]

/-- Settles O25: the pair is a register write of the register selected (`exec_writeData_controller`), which the laws of
`Controller.regWrite` give register by register. -/
theorem writeDataReachesRegister : Obligations.WriteDataReachesRegister := by
  intro h l s hd hp hg
  obtain ⟨t, hexec, hitem⟩ := exec_writeData_controller (s := s) h l hp
  have ht : t.controller =
      { s.controller with hold := h }.regWrite s.params s.controller.ir (h ++ l) := by
    rw [hitem, Controller.item, ← hp]
  refine ⟨t, hexec, by rw [ht, Controller.regWrite_ir], by rw [ht, Controller.regWrite_ph, hp], ?_⟩
  refine ⟨fun hi => ?_, fun hi => ?_, fun hi => ?_, fun hi => ?_, fun hi => ?_, fun hi => ?_, fun hi => ?_,
    fun hi hwf => ?_⟩
  · rw [ht, hi, Controller.regWrite_hsa, ← hi]
  · rw [ht, hi, Controller.regWrite_hea _ hd, ← hi]
  · rw [ht, hi, Controller.regWrite_vsa _ hd, ← hi]
  · rw [ht, hi, Controller.regWrite_vea _ hd, ← hi]
  · rw [ht, hi, Controller.regWrite_curx _ hd, ← hi]
  · rw [ht, hi, Controller.regWrite_cury _ hd, ← hi]
  · rw [ht, hi, Controller.regWrite_scroll _ hd, ← hi]
  · rw [ht, Controller.regWrite_unnamed _ _ hi hg]
    exact ⟨rfl, Memory.read_write_same _ hwf _ _, fun k hk => Memory.read_write_other _ _ _ _ hk⟩

/-- Settles O27: the pair is a GRAM write (`Controller.item_data_gram`) whose cell is outside. -/
theorem gramWriteOutside : Obligations.GramWriteOutside := by
  intro h l s hd hp hi hin
  refine ⟨_, exec_writeData h l s, State.runItem_finish_frame s _, State.runItem_data_pins s h l, ?_⟩
  have ht : (s.runItem (.data h l)).controller = Controller.writeGram (h ++ l) { s.controller with hold := h } :=
    (State.runItem_data_controller s h l hp).trans (Controller.item_data_gram hd hp hi h l)
  have hout : Controller.writeGram (h ++ l) { s.controller with hold := h } = _ :=
    if_neg (by simpa [Controller.inside] using hin)
  rw [State.finish_controller, ht, hout]

end Sys2Proof.Machine
end

section
/-! INIT, and the register that each command leaves selected. -/

namespace Sys2Proof.Machine

/-! ### INIT -/

/-- The pins after an item are its last vector, or those before it where it has none. -/
theorem State.runItem_pins (s : State) (t : Item) : (s.runItem t).pins = (itemVectors s.pins t).getLastD s.pins := by
  cases t <;> rfl

theorem getLastD_append {α : Type} (us vs : List α) (d : α) : (us ++ vs).getLastD d = vs.getLastD (us.getLastD d) := by
  simp only [List.getLastD_eq_getLast?, List.getLast?_append, Option.getD_or]

/-- Items add their pin vectors to the trace, and leave the last one on the pins (44_scroll_init.md R196). -/
theorem State.runItems_vectors (s : State) (ts : List Item) :
    (s.runItems ts).trace = grownTrace s.trace (seqVectors s.pins ts) ∧
      (s.runItems ts).pins = (seqVectors s.pins ts).getLastD s.pins := by
  induction ts generalizing s with
  | nil => exact ⟨rfl, rfl⟩
  | cons t ts ih =>
    obtain ⟨htrace, hpins⟩ := ih (s.runItem t)
    rw [State.runItem_pins] at htrace hpins
    constructor
    · rw [State.runItems_cons, htrace, State.runItem_trace, seqVectors, grownTrace, grownTrace, grownTrace,
        List.foldl_append]
    · rw [State.runItems_cons, hpins, seqVectors, getLastD_append]

/-- A register write keeps the scroll register, unless it is the register written. -/
theorem Controller.regWrite_scroll_other {p : Params} {i : Byte} (hi : i ≠ p.regScroll) (v : Half) (c : Controller) :
    (c.regWrite p i v).scroll = c.scroll := by
  have hgram : (c.writeGram v).scroll = c.scroll := by
    unfold Controller.writeGram
    split
    · exact Controller.advance_scroll _
    · rfl
  simp only [Controller.regWrite, if_neg hi, apply_ite Controller.scroll, hgram, ite_self]

/-- Items without a raw pair or a write of the scroll register keep it. -/
theorem Controller.foldl_item_scroll {p : Params} {ts : List Item} (hdata : ∀ h l, .data h l ∉ ts)
    (hreg : ∀ u, .reg p.regScroll u ∉ ts) (c : Controller) : (ts.foldl (Controller.item p) c).scroll = c.scroll := by
  induction ts generalizing c with
  | nil => rfl
  | cons t ts ih =>
    simp only [List.mem_cons, not_or] at hdata hreg
    refine (ih (fun h l => (hdata h l).2) (fun u => (hreg u).2) _).trans ?_
    cases t with
    | sel i => rfl
    | data h l => exact absurd rfl (hdata h l).1
    | reg i v => exact Controller.regWrite_scroll_other (fun hi => (hreg v).1 (by rw [hi])) _ _
    | rst a | bl b | delay n => rfl

/-- The controller after INIT: the items lead it on from a free scroll register (44_scroll_init.md R197). -/
theorem State.perform_planInit_controller (s : State) :
    (s.perform (planInit s.params)).controller =
      { (State.runItems { s with controller := s.controller.beginCommand .init } s.params.initSeq).controller with
        initialized := true } := by
  have hstart : s.start .init 0#8 = State.setScroll 0#8 { s with controller := s.controller.beginCommand .init } := rfl
  rw [planInit, State.perform_run, opsItems_items, hstart, (State.busBlind_setScroll _).runItems]
  rfl

/-- Settles O46: INIT is its items (`State.perform_run`), whose vectors are `State.runItems_vectors`; after a last
write of the scroll register nothing reaches it (`Controller.foldl_item_scroll`). -/
theorem initResult : Obligations.InitResult := by
  intro s
  obtain ⟨hreport, hphase, hseq, holds, hscroll⟩ := s.perform_run_frame .init 0#8 (s.params.initSeq.map .item)
  have hrun := s.perform_run .init 0#8 (s.params.initSeq.map .item)
  rw [opsItems_items] at hrun
  obtain ⟨htrace, hpins⟩ := (s.start .init 0#8).runItems_vectors s.params.initSeq
  have hcontroller := s.perform_planInit_controller
  refine ⟨_, exec_eq_perform .init s, hscroll, hreport, hphase, hseq, holds, ?_, ?_, ⟨_, hcontroller⟩, ?_, fun hs => ?_⟩
  · exact (congrArg State.trace hrun).trans htrace
  · exact (congrArg State.pins hrun).trans hpins
  · intro hd pre v post hinit hdata hreg
    refine (congrArg Controller.scroll hcontroller).trans ?_
    rw [hinit, State.runItems_append]
    show (State.runItems _ _).controller.scroll = v
    rw [State.runItems_reg_controller, State.runItems_params, Controller.foldl_item_scroll hdata hreg, Controller.item,
      Controller.regWrite_scroll _ hd]
  · have h := s.perform_run_settled .init 0#8 (s.params.initSeq.map .item) hs
    rwa [opsItems_items] at h

/-! ### The selected register -/

/-- A pin change to data leaves the index register (20_memory.md R66). -/
theorem Controller.observe_ir {n : Pins} (hn : n.rs = .data) (p : Params) (o : Pins) (c : Controller) :
    (c.observe p o n).ir = c.ir := by
  have hstrobe : (c.strobe p n).ir = c.ir := by
    unfold Controller.strobe
    rw [hn]
    split
    · contradiction
    · rfl
    · exact Controller.regWrite_ir ..
  simp only [Controller.observe, apply_ite Controller.ir, hstrobe, ite_self]

/-- A byte pair leaves the index register, whatever the byte phase was. -/
theorem State.runItem_data_ir (s : State) (h l : Byte) : (s.runItem (.data h l)).controller.ir = s.controller.ir := by
  have hstep (u : State) (c : PinChange) (hc : (u.pins.apply c).rs = .data) :
      (u.busStep c).controller.ir = u.controller.ir := Controller.observe_ir hc _ _ _
  rw [State.runItem_data_steps, hstep _ _ rfl, hstep _ _ rfl, hstep _ _ rfl, hstep _ _ rfl, hstep _ _ rfl,
    hstep _ _ rfl, hstep _ _ rfl, hstep _ _ rfl]

/-- The index register after an item is the last index sent (70_reset_and_hazards.md R251). -/
theorem State.runItem_ir (s : State) (t : Item) :
    (s.runItem t).controller.ir = lastSel s.controller.ir (itemTrans t) := by
  cases t with
  | sel i => rw [State.runItem_sel_controller]; rfl
  | data h l => exact s.runItem_data_ir h l
  | reg i v => rw [State.runItem_reg, State.runItem_data_ir, State.runItem_sel_controller]; rfl
  | rst a => exact congrArg Controller.ir (s.busStep_controller_quiet { rst := some a } (.inl rfl) (.inl rfl))
  | bl b => exact congrArg Controller.ir (s.busStep_controller_quiet { bl := some b } (.inl rfl) (.inl rfl))
  | delay n => rfl

theorem lastSel_append (ir : Byte) (ts us : List Trans) : lastSel ir (ts ++ us) = lastSel (lastSel ir ts) us :=
  List.foldl_append ..

/-- The index register after items is the last index sent. -/
theorem State.runItems_ir (s : State) (ts : List Item) :
    (s.runItems ts).controller.ir = lastSel s.controller.ir (itemsTrans ts) := by
  induction ts generalizing s with
  | nil => rfl
  | cons t ts ih => rw [State.runItems_cons, ih, State.runItem_ir, itemsTrans_cons, lastSel_append]

/-- A painting whose strokes begin with a placement. -/
def Painting.Placed (pt : Painting) : Prop := ∃ x y ss, pt.strokes = .place x y :: ss

/-- Strokes keep the memory-write register selected. -/
theorem lastSel_strokes (p : Params) (ss : List Stroke) :
    lastSel p.regGram (itemsTrans (ss.flatMap (Stroke.items p))) = p.regGram := by
  induction ss with
  | nil => rfl
  | cons st ss ih =>
    rw [List.flatMap_cons, itemsTrans_append, lastSel_append]
    cases st <;> exact ih

/-- A painting leaves the memory-write register selected. -/
theorem Painting.Placed.lastSel {pt : Painting} (h : pt.Placed) (p : Params) (ir : Byte) :
    lastSel ir (itemsTrans (pt.items p)) = p.regGram := by
  obtain ⟨x, y, ss, hss⟩ := h
  rw [Painting.items, hss, List.flatMap_cons, itemsTrans_append, itemsTrans_append, lastSel_append, lastSel_append]
  exact lastSel_strokes p ss

theorem lastSel_paintings {p : Params} {pts : List Painting} (h : ∀ pt ∈ pts, pt.Placed) (hne : pts ≠ []) (ir : Byte) :
    lastSel ir (itemsTrans (pts.flatMap (Painting.items p))) = p.regGram := by
  rw [← List.dropLast_append_getLast hne, List.flatMap_append, List.flatMap_singleton, itemsTrans_append,
      lastSel_append]
  exact (h _ (List.getLast_mem hne)).lastSel p _

/-- A tile's strokes begin with the placement of its first row's cursor. -/
theorem State.tilePainting_placed (s : State) (x y : Nat) {scale : Nat} (h : 1 ≤ scale) (a : Nat) (pal : Byte)
    (fv fh : Bool) : (s.tilePainting x y scale a pal fv fh).Placed :=
  ⟨x, s.tileStrokes_eq_place_cons x y h a pal fv fh⟩

/-- Every painting of an accepted drawing command begins with a placement. -/
theorem State.paintings_placed {s : State} {i : Instr} (hc : causes s.params i = []) :
    ∀ pt ∈ s.paintings i, pt.Placed := by
  obtain ⟨hwf, -⟩ := (causes_eq_nil_iff i s.params).mp hc
  have hfill (x0 y0 x1 y1 : Nat) (color : Half) (n : Nat) : (fillPainting x0 y0 x1 y1 color n).Placed := ⟨_, _, _, rfl⟩
  cases i with
  | drawPixel | drawHline | drawRect | clearScreen => exact List.forall_mem_singleton.2 (hfill ..)
  | drawTile x y scale pal addr fv fh =>
    simp only [Instr.wellFormed, Bool.and_eq_true, decide_eq_true_eq] at hwf
    exact List.forall_mem_singleton.2 (s.tilePainting_placed _ _ hwf.1 _ _ _ _)
  | drawComposite x y scale pal tl tr bl br =>
    simp only [Instr.wellFormed, Bool.and_eq_true, decide_eq_true_eq] at hwf
    simp [State.paintings, s.tilePainting_placed _ _ hwf.1]
  | selectReg | writeData | setWindow | setCursor | scrollFwd | scrollBwd | init => simp [State.paintings]

/-- An accepted drawing command leaves the memory-write register selected. -/
theorem State.lastSel_drawItems {s : State} {i : Instr} (hi : isDrawing i = true) (hc : causes s.params i = [])
    (ir : Byte) : lastSel ir (itemsTrans (s.drawItems i)) = selectedAfter s.params ir i := by
  have hpaint (hne : s.paintings i ≠ []) : lastSel ir (itemsTrans (s.drawItems i)) = s.params.regGram :=
    lastSel_paintings (State.paintings_placed hc) hne ir
  cases i with
  | drawPixel | drawHline | drawRect | clearScreen | drawTile | drawComposite => exact hpaint (List.cons_ne_nil _ _)
  | selectReg | writeData | setWindow | setCursor | scrollFwd | scrollBwd | init => cases hi

/-- A plan that, where it runs, is no drawing and leaves the index register `ir'` from `ir`. -/
def Plan.Selects (p : Params) (rd : Nat → Byte) (ir ir' : Byte) : Plan → Prop
  | .reject _ => True
  | .run kind _ ops => kind ≠ .drawing ∧ lastSel ir (itemsTrans (opsItems p rd ops)) = ir'

theorem Plan.Selects.check {p : Params} {rd : Nat → Byte} {ir ir' : Byte} {c : Prop} [Decidable c] {code : ErrCode}
    {q : Plan} (hq : q.Selects p rd ir ir') : (if c then .reject code else q : Plan).Selects p rd ir ir' := by
  split
  · trivial
  · exact hq

theorem planOf_selects {i : Instr} (hi : isDrawing i = false) (p : Params) (rd : Nat → Byte) (ir : Byte)
    (scroll : Byte) : (planOf i p scroll).Selects p rd ir (selectedAfter p ir i) := by
  have hplain : CommandKind.plain ≠ .drawing := nofun
  cases i with
  | selectReg | writeData | scrollFwd | scrollBwd => exact ⟨hplain, rfl⟩
  | setWindow => exact .check (.check ⟨hplain, rfl⟩)
  | setCursor => exact .check ⟨hplain, rfl⟩
  | init => exact ⟨nofun, by rw [opsItems_items]; rfl⟩
  | drawPixel | drawHline | drawRect | clearScreen | drawTile | drawComposite => cases hi

/-- The end of a command that draws nothing leaves the index register. -/
theorem Controller.endCommand_ir {kind : CommandKind} (h : kind ≠ .drawing) (c : Controller) :
    (c.endCommand kind).ir = c.ir := by
  cases kind with
  | plain | init => rfl
  | drawing => exact absurd rfl h

theorem Controller.beginCommand_ir (kind : CommandKind) (c : Controller) : (c.beginCommand kind).ir = c.ir := by
  cases kind <;> rfl

theorem State.perform_ir {s : State} {kind : CommandKind} {scroll : Byte} {ops : List Op} {ir' : Byte}
    (h : (Plan.run kind scroll ops).Selects s.params s.assetByte s.controller.ir ir') :
    (s.perform (.run kind scroll ops)).controller.ir = ir' := by
  obtain ⟨hkind, hsel⟩ := h
  rw [State.perform_run, State.complete_controller, Controller.endCommand_ir hkind, State.runItems_ir,
    State.start_controller, Controller.beginCommand_ir, hsel]

/-- Settles O52: the last index sent (`State.runItems_ir`), of paintings the memory-write register
(`State.lastSel_drawItems`); a rejection sends none. -/
theorem selectedRegisterAfter : Obligations.SelectedRegisterAfter := by
  refine fun s => ⟨fun i => ⟨_, exec_eq_perform i s, fun hc => ?_, fun hc hinit => ?_⟩,
    fun w hw => ⟨_, runWord_eq_perform w s, ?_⟩⟩
  · obtain ⟨code, -, hplan⟩ := planOf_reject_of_causes hc s.scrollOffset
    rw [hplan]
    rfl
  · cases hi : isDrawing i with
    | true =>
      rw [exec_next_iff.mp (exec_draws hi hc), State.draw_controller (hinit hi), State.runItems_ir,
        State.lastSel_drawItems hi hc]
    | false =>
      have hsel := planOf_selects hi s.params s.assetByte s.controller.ir s.scrollOffset
      obtain ⟨kind, scroll, ops, hplan⟩ := planOf_run_of_causes hc s.scrollOffset
      rw [hplan] at hsel ⊢
      exact State.perform_ir hsel
  · have hplan : ∃ code, planWord w s.params s.scrollOffset = .reject code := by
      unfold planWord
      split
      · next i h => exact absurd h (hw i)
      · exact ⟨_, rfl⟩
      · exact ⟨_, rfl⟩
    obtain ⟨code, hcode⟩ := hplan
    rw [hcode]
    rfl

end Sys2Proof.Machine
end

section
/-! Paintings at the reference controller: which cells are written, in which order, and where the address counter is. -/

namespace Sys2Proof.Machine

/-! ### Cells written one after another -/

/-- A store after writes of values at addresses, in order. -/
def Memory.writes {w : Nat} (m : Memory w) (ws : List (Nat × BitVec w)) : Memory w :=
  ws.foldl (fun m c => Memory.write m c.1 c.2) m

theorem Memory.writes_append {w : Nat} (m : Memory w) (us vs : List (Nat × BitVec w)) :
    m.writes (us ++ vs) = (m.writes us).writes vs := List.foldl_append ..

/-- An address that is not written keeps its value. -/
theorem Memory.read_writes_other {w : Nat} (m : Memory w) {ws : List (Nat × BitVec w)} {a : Nat}
    (h : ∀ c ∈ ws, c.1 ≠ a) : Memory.read (m.writes ws) a = Memory.read m a := by
  induction ws generalizing m with
  | nil => rfl
  | cons c ws ih =>
    obtain ⟨hc, hws⟩ := List.forall_mem_cons.1 h
    exact (ih _ hws).trans (Memory.read_write_other m c.1 a c.2 hc.symm)

/-- An address that is written, with one value only, has it. -/
theorem Memory.read_writes_same {w : Nat} {m : Memory w} (hm : Memory.wf m) {ws : List (Nat × BitVec w)} {a : Nat}
    {v : BitVec w} (hmem : (a, v) ∈ ws) (h : ∀ c ∈ ws, c.1 = a → c.2 = v) : Memory.read (m.writes ws) a = v := by
  induction ws generalizing m with
  | nil => cases hmem
  | cons c ws ih =>
    obtain ⟨hc, hws⟩ := List.forall_mem_cons.1 h
    by_cases hin : (a, v) ∈ ws
    · exact ih (Memory.wf_write m hm c.1 c.2) hin hws
    · have hother : ∀ d ∈ ws, d.1 ≠ a := fun d hd he => hin (by rw [← hws d hd he, ← he]; exact hd)
      obtain rfl : c = (a, v) := ((List.mem_cons.1 hmem).resolve_right hin).symm
      exact (Memory.read_writes_other _ hother).trans (Memory.read_write_same m hm a v)

/-! ### A window and strokes at the controller -/

/-- The controller after `SetWindowSeq` (41_addressing.md R132). -/
def Controller.setWindow (p : Params) (x0 y0 x1 y1 : Nat) (c : Controller) : Controller :=
  { c with
    ir := p.regVea, ph := .high, hold := hiByte (zext16 y1),
    hsa := zext16 x0, hea := zext16 x1, vsa := zext16 y0, vea := zext16 y1 }

/-- The controller after strokes, when it is between byte pairs. -/
def Controller.strokes (p : Params) (ss : List Stroke) (c : Controller) : Controller :=
  (ss.flatMap (Stroke.items p)).foldl (Controller.item p) c

theorem Controller.strokes_append (p : Params) (ss us : List Stroke) (c : Controller) :
    c.strokes p (ss ++ us) = (c.strokes p ss).strokes p us := by
  rw [Controller.strokes, List.flatMap_append, List.foldl_append]
  rfl

/-- A painting's items at the controller are its window and then its strokes. -/
theorem State.runItems_painting_controller (s : State) (hd : RegsDistinct s.params) (pt : Painting) :
    (s.runItems (pt.items s.params)).controller =
      (s.controller.setWindow s.params pt.x0 pt.y0 pt.x1 pt.y1).strokes s.params pt.strokes := by
  have hw := s.runItems_setWindowSeq_controller hd pt.x0 pt.y0 pt.x1 pt.y1
  rw [Painting.items, State.runItems_append, State.runItems_controller _ _ (by rw [hw]), hw, State.runItems_params]
  rfl

/-- A placement at the controller: the address counter, with the memory-write register selected. -/
theorem Controller.strokes_place {p : Params} (hd : RegsDistinct p) (x y : Nat) (c : Controller) :
    c.strokes p [.place x y] =
      { c with ir := p.regGram, ph := .high, hold := hiByte (zext16 y), acx := zext16 x, acy := zext16 y } := by
  simp only [Controller.strokes, List.flatMap_singleton, Stroke.items, correction, setCursorSeq, List.cons_append,
    List.nil_append, List.foldl_cons, List.foldl_nil, Controller.item, Controller.regWrite_curx _ hd,
    Controller.regWrite_cury _ hd]
  rfl

/-- A colour write with the memory-write register selected is a GRAM write of the colour. -/
theorem Controller.strokes_color {p : Params} (hd : RegsDistinct p) {c : Controller} (hp : c.ph = .high)
    (hi : c.ir = p.regGram) (v : Half) :
    c.strokes p [.color v] = Controller.writeGram v { c with hold := hiByte v } := by
  have h := Controller.item_data_gram hd hp hi (hiByte v) (loByte v)
  rwa [hiByte_append_loByte] at h

/-- `d` is reached from `c` by opening the window and writing the cells `ws` one after another, and by nothing else that
shows: scroll register, other registers and free values are as before (20_memory.md R68). -/
structure Controller.Wrote (x0 y0 x1 y1 : Nat) (c : Controller) (ws : List (Nat × Half)) (d : Controller) : Prop where
  ph : d.ph = .high
  hsa : d.hsa.toNat = x0
  hea : d.hea.toNat = x1
  vsa : d.vsa.toNat = y0
  vea : d.vea.toNat = y1
  gram : d.gram = c.gram.writes ws
  scroll : d.scroll = c.scroll
  regs : d.regs = c.regs
  draws : d.draws = c.draws

/-- The address counter is at `(x, y)` and the memory-write register is selected. -/
structure Controller.AtCell (p : Params) (x y : Nat) (d : Controller) : Prop where
  ir : d.ir = p.regGram
  acx : d.acx.toNat = x
  acy : d.acy.toNat = y

/-- Where the address counter goes after a write at `(x, y)` of a window (20_memory.md R68). -/
def nextCell (x0 y0 x1 y1 x y : Nat) : Nat × Nat :=
  if x + 1 ≤ x1 then (x + 1, y) else if y + 1 ≤ y1 then (x0, y + 1) else (x0, y0)

section Strokes

variable {p : Params} {x0 y0 x1 y1 : Nat} {c d : Controller} {ws : List (Nat × Half)}

theorem Controller.wrote_setWindow (hx0 : x0 < 65536) (hy0 : y0 < 65536) (hx1 : x1 < 65536) (hy1 : y1 < 65536) :
    Controller.Wrote x0 y0 x1 y1 c [] (c.setWindow p x0 y0 x1 y1) :=
  ⟨rfl, zext16_toNat hx0, zext16_toNat hx1, zext16_toNat hy0, zext16_toNat hy1, rfl, rfl, rfl, rfl⟩

theorem Controller.Wrote.place (h : Controller.Wrote x0 y0 x1 y1 c ws d) (hd : RegsDistinct p) {x y : Nat}
    (hx : x < 65536) (hy : y < 65536) :
    Controller.Wrote x0 y0 x1 y1 c ws (d.strokes p [.place x y]) ∧
      Controller.AtCell p x y (d.strokes p [.place x y]) := by
  rw [Controller.strokes_place hd]
  exact ⟨⟨rfl, h.hsa, h.hea, h.vsa, h.vea, h.gram, h.scroll, h.regs, h.draws⟩,
    ⟨rfl, zext16_toNat hx, zext16_toNat hy⟩⟩

/-- The advance of the address counter as arithmetic on cells. -/
theorem Controller.advance_toNat (d : Controller) :
    (d.advance.acx.toNat, d.advance.acy.toNat) =
      nextCell d.hsa.toNat d.vsa.toNat d.hea.toNat d.vea.toNat d.acx.toNat d.acy.toNat := by
  obtain ⟨hcolumn, hrow, hwrap⟩ := d.advance_rowMajor
  unfold nextCell
  split_ifs with hx hy
  · obtain ⟨h1, h2⟩ := hcolumn hx
    rw [h1, h2]
  · obtain ⟨h1, h2⟩ := hrow (Nat.lt_of_not_le hx) hy
    rw [h1, h2]
  · obtain ⟨h1, h2⟩ := hwrap (Nat.lt_of_not_le hx) (Nat.lt_of_not_le hy)
    rw [h1, h2]

theorem Controller.advance_hsa (d : Controller) : d.advance.hsa = d.hsa := by rw [Controller.advance_frame]

theorem Controller.advance_hea (d : Controller) : d.advance.hea = d.hea := by rw [Controller.advance_frame]

theorem Controller.advance_vsa (d : Controller) : d.advance.vsa = d.vsa := by rw [Controller.advance_frame]

theorem Controller.advance_vea (d : Controller) : d.advance.vea = d.vea := by rw [Controller.advance_frame]

theorem Controller.advance_draws (d : Controller) : d.advance.draws = d.draws := by rw [Controller.advance_frame]

/-- A colour write inside the window and the panel. -/
theorem Controller.Wrote.color (h : Controller.Wrote x0 y0 x1 y1 c ws d) (hd : RegsDistinct p) {x y : Nat}
    (hat : Controller.AtCell p x y d) (hx0 : x0 ≤ x) (hx1 : x ≤ x1) (hy0 : y0 ≤ y) (hy1 : y ≤ y1) (hx : x < 176)
    (hy : y < 220) (v : Half) :
    Controller.Wrote x0 y0 x1 y1 c (ws ++ [(gramCell x y, v)]) (d.strokes p [.color v]) ∧
      Controller.AtCell p (nextCell x0 y0 x1 y1 x y).1 (nextCell x0 y0 x1 y1 x y).2 (d.strokes p [.color v]) := by
  obtain ⟨hph, hsa, hea, vsa, vea, hgram, hscroll, hregs, hdraws⟩ := h
  obtain ⟨hir, rfl, rfl⟩ := hat
  subst hsa hea vsa vea
  have hin : Controller.inside { d with hold := hiByte v } = true :=
    (Controller.inside_iff _).mpr ⟨hx0, hx1, hy0, hy1, hx, hy⟩
  rw [Controller.strokes_color hd hph hir, Controller.writeGram_inside _ _ hin]
  have hnext := (Controller.storeGram v { d with hold := hiByte v }).advance_toNat
  have hcell : Memory.write d.gram (gramCell d.acx.toNat d.acy.toNat) v =
      c.gram.writes (ws ++ [(gramCell d.acx.toNat d.acy.toNat, v)]) := by
    rw [Memory.writes_append, ← hgram]
    rfl
  exact ⟨⟨(Controller.advance_ph _).trans hph, congrArg BitVec.toNat (Controller.advance_hsa _),
      congrArg BitVec.toNat (Controller.advance_hea _), congrArg BitVec.toNat (Controller.advance_vsa _),
      congrArg BitVec.toNat (Controller.advance_vea _), (Controller.advance_gram _).trans hcell,
      (Controller.advance_scroll _).trans hscroll, (Controller.advance_regs _).trans hregs,
      (Controller.advance_draws _).trans hdraws⟩,
    ⟨(Controller.advance_ir _).trans hir, congrArg Prod.fst hnext, congrArg Prod.snd hnext⟩⟩

end Strokes

/-! ### Output pixels, rows and tiles -/

/-- The stroke of an output pixel at `(x, y)`: a correction to the next column of its row, or a colour write. -/
def Stroke.IsPixel (x y : Nat) (st : Stroke) : Prop := st = .place (x + 1) y ∨ ∃ v, st = .color v

/-- The GRAM writes of an output pixel at `(x, y)`. -/
def Stroke.cells (x y : Nat) (st : Stroke) : List (Nat × Half) := st.color?.toList.map fun v => (gramCell x y, v)

/-- Where an output pixel at `(x, y)` leaves the address counter (70_reset_and_hazards.md R252). -/
def Stroke.after (x0 y0 x1 y1 x y : Nat) (st : Stroke) : Nat × Nat :=
  if st.color? = none then (x + 1, y) else nextCell x0 y0 x1 y1 x y

/-- The strokes of an output row: the cursor, and then one stroke for each of its columns. -/
def rowOf (x row : Nat) (n : Nat) (st : Nat → Stroke) : List Stroke := .place x row :: (List.range n).map st

/-- The GRAM writes of the first `n` output pixels of a row. -/
def rowCells (x row : Nat) (n : Nat) (st : Nat → Stroke) : List (Nat × Half) :=
  (List.range n).flatMap fun col => (st col).cells (x + col) row

section Tiles

variable {p : Params} {x y side : Nat} {c d : Controller} {ws : List (Nat × Half)}

/-- One output pixel. -/
theorem Controller.Wrote.pixel {x0 y0 x1 y1 : Nat} (h : Controller.Wrote x0 y0 x1 y1 c ws d) (hd : RegsDistinct p)
    (hat : Controller.AtCell p x y d) (hx0 : x0 ≤ x) (hx1 : x ≤ x1) (hy0 : y0 ≤ y) (hy1 : y ≤ y1) (hx : x < 176)
    (hy : y < 220) {st : Stroke} (hst : st.IsPixel x y) :
    Controller.Wrote x0 y0 x1 y1 c (ws ++ st.cells x y) (d.strokes p [st]) ∧
      Controller.AtCell p (st.after x0 y0 x1 y1 x y).1 (st.after x0 y0 x1 y1 x y).2 (d.strokes p [st]) := by
  obtain rfl | ⟨v, rfl⟩ := hst
  · have hplace := h.place hd (x := x + 1) (y := y) (by omega) (by omega)
    rwa [← List.append_nil ws] at hplace
  · exact h.color hd hat hx0 hx1 hy0 hy1 hx hy v

/-- A pixel that is not its row's last leaves the counter at the next column. -/
theorem Stroke.after_inside {x0 y0 x1 y1 : Nat} (st : Stroke) (h : x + 1 ≤ x1) :
    st.after x0 y0 x1 y1 x y = (x + 1, y) := by
  rw [Stroke.after, nextCell, if_pos h, ite_self]

/-- The first output pixels of a row inside a window, short of its last one. -/
theorem Controller.Wrote.rowStart {y0 y1 row n : Nat} (h : Controller.Wrote x y0 (x + side - 1) y1 c ws d)
    (hd : RegsDistinct p) (hside : x + side ≤ 176) (hy0 : y0 ≤ row) (hy1 : row ≤ y1) (hrow : row < 220)
    {st : Nat → Stroke} (hst : ∀ col < side, (st col).IsPixel (x + col) row) (hn : n < side) :
    Controller.Wrote x y0 (x + side - 1) y1 c (ws ++ rowCells x row n st) (d.strokes p (rowOf x row n st)) ∧
      Controller.AtCell p (x + n) row (d.strokes p (rowOf x row n st)) := by
  induction n with
  | zero =>
    rw [rowCells, List.range_zero, List.flatMap_nil, List.append_nil]
    exact h.place hd (by omega) (by omega)
  | succ n ih =>
    obtain ⟨hwrote, hat⟩ := ih (by omega)
    have hpixel := hwrote.pixel hd hat (by omega) (by omega) hy0 hy1 (by omega) hrow (hst n (by omega))
    rw [Stroke.after_inside _ (by omega), ← Controller.strokes_append, List.append_assoc] at hpixel
    simpa only [rowOf, rowCells, List.range_succ, List.map_append, List.flatMap_append, List.flatMap_singleton,
      List.map_singleton, List.cons_append, Nat.add_assoc] using hpixel

/-- An output row inside a window. -/
theorem Controller.Wrote.row {y0 y1 row : Nat} (h : Controller.Wrote x y0 (x + side - 1) y1 c ws d)
    (hd : RegsDistinct p) (hpos : 1 ≤ side) (hside : x + side ≤ 176) (hy0 : y0 ≤ row) (hy1 : row ≤ y1)
    (hrow : row < 220) {st : Nat → Stroke} (hst : ∀ col < side, (st col).IsPixel (x + col) row) :
    Controller.Wrote x y0 (x + side - 1) y1 c (ws ++ rowCells x row side st) (d.strokes p (rowOf x row side st)) ∧
      ∀ last, last + 1 = side →
        Controller.AtCell p ((st last).after x y0 (x + side - 1) y1 (x + last) row).1
          ((st last).after x y0 (x + side - 1) y1 (x + last) row).2 (d.strokes p (rowOf x row side st)) := by
  obtain ⟨last, rfl⟩ : ∃ last, side = last + 1 := ⟨side - 1, by omega⟩
  obtain ⟨hwrote, hat⟩ := h.rowStart hd hside hy0 hy1 hrow hst (Nat.lt_succ_self last)
  have hpixel := hwrote.pixel hd hat (by omega) (by omega) hy0 hy1 (by omega) hrow (hst last (by omega))
  rw [← Controller.strokes_append, List.append_assoc] at hpixel
  have hrows : rowOf x row (last + 1) st = rowOf x row last st ++ [st last] := by simp [rowOf, List.range_succ]
  have hcells : rowCells x row (last + 1) st = rowCells x row last st ++ (st last).cells (x + last) row := by
    simp [rowCells, List.range_succ]
  rw [hrows, hcells]
  refine ⟨hpixel.1, fun k hk => ?_⟩
  obtain rfl : k = last := by omega
  exact hpixel.2

/-- The strokes of the first `m` output rows of a tile. -/
def tileOf (x y side : Nat) (fv : Bool) (m : Nat) (st : Nat → Nat → Stroke) : List Stroke :=
  (List.range m).flatMap fun o => rowOf x (panelRow y side o fv) side (st o)

/-- The GRAM writes of the first `m` output rows of a tile. -/
def tileCells (x y side : Nat) (fv : Bool) (m : Nat) (st : Nat → Nat → Stroke) : List (Nat × Half) :=
  (List.range m).flatMap fun o => rowCells x (panelRow y side o fv) side (st o)

/-- The first output rows of a tile, in a window that is the tile. -/
theorem Controller.Wrote.tile {fv : Bool} {m : Nat}
    (h : Controller.Wrote x y (x + side - 1) (y + side - 1) c [] d) (hd : RegsDistinct p) (hx : x + side ≤ 176)
    (hy : y + side ≤ 220) {st : Nat → Nat → Stroke}
    (hst : ∀ o < side, ∀ col < side, (st o col).IsPixel (x + col) (panelRow y side o fv)) (hm : m ≤ side) :
    Controller.Wrote x y (x + side - 1) (y + side - 1) c (tileCells x y side fv m st)
        (d.strokes p (tileOf x y side fv m st)) ∧
      ∀ o, o + 1 = m → ∀ last, last + 1 = side →
        Controller.AtCell p
          ((st o last).after x y (x + side - 1) (y + side - 1) (x + last) (panelRow y side o fv)).1
          ((st o last).after x y (x + side - 1) (y + side - 1) (x + last) (panelRow y side o fv)).2
          (d.strokes p (tileOf x y side fv m st)) := by
  induction m with
  | zero => exact ⟨h, fun o ho => by omega⟩
  | succ m ih =>
    obtain ⟨hwrote, -⟩ := ih (by omega)
    obtain ⟨hrow, hrow'⟩ := panelRow_bounds (y := y) fv (Nat.lt_of_succ_le hm)
    have hnew := hwrote.row hd (by omega) hx hrow (by omega) (by omega) (hst m (by omega))
    rw [← Controller.strokes_append] at hnew
    have hrows : tileOf x y side fv (m + 1) st =
        tileOf x y side fv m st ++ rowOf x (panelRow y side m fv) side (st m) := by simp [tileOf, List.range_succ]
    have hcells : tileCells x y side fv (m + 1) st =
        tileCells x y side fv m st ++ rowCells x (panelRow y side m fv) side (st m) := by
      simp [tileCells, List.range_succ]
    rw [hrows, hcells]
    refine ⟨hnew.1, fun o ho => ?_⟩
    obtain rfl : o = m := by omega
    exact hnew.2

end Tiles

end Sys2Proof.Machine
end

section
/-! What tiles and composites paint, and where they leave the address counter. -/

namespace Sys2Proof.Machine

/-! ### Paintings one after another -/

/-- A painting at the controller. -/
def Controller.paint (p : Params) (c : Controller) (pt : Painting) : Controller :=
  (c.setWindow p pt.x0 pt.y0 pt.x1 pt.y1).strokes p pt.strokes

/-- The items of paintings at the controller. -/
theorem State.runItems_paintings_controller (s : State) (hd : RegsDistinct s.params) (pts : List Painting) :
    (s.runItems (pts.flatMap (Painting.items s.params))).controller =
      pts.foldl (Controller.paint s.params) s.controller := by
  induction pts generalizing s with
  | nil => rfl
  | cons pt pts ih =>
    have hfirst := s.runItems_painting_controller hd pt
    have hrest := ih (s.runItems (pt.items s.params)) (by rwa [State.runItems_params])
    rw [State.runItems_params] at hrest
    rw [List.flatMap_cons, State.runItems_append, hrest, hfirst]
    rfl

/-- The controller after an accepted drawing command (70_reset_and_hazards.md R243). -/
theorem State.draw_drawItems_controller {s : State} (hd : RegsDistinct s.params)
    (hinit : s.controller.initialized = true) (i : Instr) :
    (s.draw (s.drawItems i)).controller = (s.paintings i).foldl (Controller.paint s.params) s.controller := by
  rw [State.draw_controller hinit]
  exact s.runItems_paintings_controller hd _

/-- `d` is `c` with the cells `ws` written one after another and the memory-write register selected, whatever window and
address counter have become. -/
structure Controller.Painted (p : Params) (c d : Controller) (ws : List (Nat × Half)) : Prop where
  gram : d.gram = c.gram.writes ws
  ir : d.ir = p.regGram
  scroll : d.scroll = c.scroll
  regs : d.regs = c.regs
  draws : d.draws = c.draws

section Painted

variable {p : Params} {c d e : Controller} {ws us : List (Nat × Half)}

theorem Controller.Painted.trans (h : Controller.Painted p c d ws) (k : Controller.Painted p d e us) :
    Controller.Painted p c e (ws ++ us) where
  gram := by rw [k.gram, h.gram, Memory.writes_append]
  ir := k.ir
  scroll := k.scroll.trans h.scroll
  regs := k.regs.trans h.regs
  draws := k.draws.trans h.draws

theorem Controller.Wrote.painted {x0 y0 x1 y1 x y : Nat} (h : Controller.Wrote x0 y0 x1 y1 c ws d)
    (hat : Controller.AtCell p x y d) : Controller.Painted p c d ws :=
  ⟨h.gram, hat.ir, h.scroll, h.regs, h.draws⟩

/-- A cell that is written with at most one value. -/
theorem Controller.Painted.read (h : Controller.Painted p c d ws) (hwf : Memory.wf c.gram) {a : Nat} {o : Option Half}
    (hmem : ∀ v, (a, v) ∈ ws ↔ o = some v) : Memory.read d.gram a = o.getD (Memory.read c.gram a) := by
  rw [h.gram]
  cases o with
  | none =>
    refine Memory.read_writes_other _ fun w hw ha => ?_
    obtain ⟨k, v⟩ := w
    subst ha
    cases (hmem v).mp hw
  | some v =>
    refine Memory.read_writes_same hwf ((hmem v).mpr rfl) fun w hw ha => ?_
    obtain ⟨k, u⟩ := w
    subst ha
    exact (Option.some.inj ((hmem u).mp hw)).symm

/-- Outside the area of its writes a painting keeps every cell. -/
theorem Controller.Painted.keepsOutside {s t : State} (h : Controller.Painted s.params s.controller t.controller ws)
    {area : Nat → Prop} (harea : ∀ w ∈ ws, area w.1) : s.KeepsOutside t area where
  others a ha := by
    rw [h.gram]
    exact Memory.read_writes_other _ fun w hw he => ha (he ▸ harea w hw)
  ir := h.ir
  scroll := h.scroll
  regs := h.regs
  draws := h.draws

end Painted

/-! ### The cells of a tile -/

/-- A cell's address gives back its column and row. -/
theorem gramCell_inj {i j k l : Nat} (hi : i < 176) (hk : k < 176) : gramCell i j = gramCell k l ↔ i = k ∧ j = l := by
  simp only [gramCell, panelW]
  omega

/-- The output row of a tile of `side` rows at `y` that the panel row `j` shows (43_sprite.md R165). -/
def outputRow (y side j : Nat) (fv : Bool) : Nat := if fv then y + side - 1 - j else j - y

theorem panelRow_eq_iff {y side o j : Nat} {fv : Bool} (ho : o < side) :
    panelRow y side o fv = j ↔ y ≤ j ∧ j < y + side ∧ o = outputRow y side j fv := by
  unfold panelRow outputRow
  split <;> omega

/-- The GRAM writes of a tile by panel column and row. -/
theorem mem_tileCells {x y side i j : Nat} (hx : x + side ≤ 176) (hi : i < 176) {fv : Bool} {st : Nat → Nat → Stroke}
    {v : Half} : (gramCell i j, v) ∈ tileCells x y side fv side st ↔
      (x ≤ i ∧ i < x + side) ∧ (y ≤ j ∧ j < y + side) ∧ (st (outputRow y side j fv) (i - x)).color? = some v := by
  simp only [tileCells, rowCells, Stroke.cells, List.mem_flatMap, List.mem_range, List.mem_map, Option.mem_toList,
    Prod.mk.injEq]
  constructor
  · rintro ⟨o, ho, col, hcol, u, hu, hcell, rfl⟩
    obtain ⟨rfl, hj⟩ := (gramCell_inj (by omega) hi).mp hcell
    obtain ⟨hy, hy', rfl⟩ := (panelRow_eq_iff ho).mp hj
    rw [Nat.add_sub_cancel_left]
    exact ⟨⟨by omega, by omega⟩, ⟨hy, hy'⟩, hu⟩
  · rintro ⟨⟨hxi, hxi'⟩, ⟨hyj, hyj'⟩, hv⟩
    have ho : outputRow y side j fv < side := by unfold outputRow; split <;> omega
    refine ⟨_, ho, i - x, by omega, v, hv, (gramCell_inj (by omega) hi).mpr ⟨by omega, ?_⟩, rfl⟩
    exact (panelRow_eq_iff ho).mpr ⟨hyj, hyj', rfl⟩

/-- The GRAM writes of a tile are inside its square. -/
theorem inRect_of_mem_tileCells {x y side : Nat} {fv : Bool} {st : Nat → Nat → Stroke} {w : Nat × Half}
    (h : w ∈ tileCells x y side fv side st) : inRect x y side side w.1 := by
  simp only [tileCells, rowCells, Stroke.cells, List.mem_flatMap, List.mem_range, List.mem_map] at h
  obtain ⟨o, ho, col, hcol, v, -, rfl⟩ := h
  obtain ⟨hy, hy'⟩ := panelRow_bounds (y := y) fv ho
  exact ⟨col, hcol, panelRow y side o fv - y, by omega, by rw [Nat.add_sub_cancel' hy]⟩

/-- The GRAM writes of a tile. -/
def State.tileCells (s : State) (x y scale a : Nat) (pal : Byte) (fv fh : Bool) : List (Nat × Half) :=
  Machine.tileCells x y (8 * scale) fv (8 * scale) (s.tileStroke x y scale a pal fv fh)

theorem State.tileStroke_isPixel (s : State) (x y scale a : Nat) (pal : Byte) (fv fh : Bool) (o col : Nat) :
    (s.tileStroke x y scale a pal fv fh o col).IsPixel (x + col) (panelRow y (8 * scale) o fv) := by
  unfold State.tileStroke pixelStroke
  split
  · exact .inl rfl
  · exact .inr ⟨_, rfl⟩

/-- The colour of a tile's output pixel, if it is opaque (43_sprite.md R166, R167). -/
def State.outputColor (s : State) (scale a : Nat) (pal : Byte) (fh : Bool) (o col : Nat) : Option Half :=
  if s.sourceIndex a (o / scale) (col / scale) fh = 7#3 then none
  else some (palRead s.params pal (s.sourceIndex a (o / scale) (col / scale) fh))

theorem State.tileStroke_color (s : State) (x y scale a : Nat) (pal : Byte) (fv fh : Bool) (o col : Nat) :
    (s.tileStroke x y scale a pal fv fh o col).color? = s.outputColor scale a pal fh o col := by
  unfold State.tileStroke State.outputColor pixelStroke transparentIndex
  split <;> rfl

/-- The colour a cell has after a pixel that finds it with the colour `v`. -/
theorem State.outputColor_getD (s : State) (scale a : Nat) (pal : Byte) (fh : Bool) (o col : Nat) (v : Half) :
    (s.outputColor scale a pal fh o col).getD v =
      if s.sourceIndex a (o / scale) (col / scale) fh = 7#3 then v
      else palRead s.params pal (s.sourceIndex a (o / scale) (col / scale) fh) := by
  unfold State.outputColor
  split <;> rfl

/-- The GRAM writes of a tile with its corner `(dx, dy)` from a point `(x, y)`, by columns and rows from that point. -/
theorem State.mem_tileCells (s : State) {x y dx dy scale i j : Nat} (hx : x + dx + 8 * scale ≤ 176) (hi : x + i < 176)
    (a : Nat) (pal : Byte) (fv fh : Bool) {v : Half} :
    (gramCell (x + i) (y + j), v) ∈ s.tileCells (x + dx) (y + dy) scale a pal fv fh ↔
      (dx ≤ i ∧ i < dx + 8 * scale) ∧ (dy ≤ j ∧ j < dy + 8 * scale) ∧
        s.outputColor scale a pal fh (outputRow dy (8 * scale) j fv) (i - dx) = some v := by
  have hrow : outputRow (y + dy) (8 * scale) (y + j) fv = outputRow dy (8 * scale) j fv := by
    unfold outputRow
    split <;> omega
  have hcol : x + i - (x + dx) = i - dx := by omega
  rw [State.tileCells, Machine.mem_tileCells hx hi, s.tileStroke_color, hrow, hcol]
  simp only [Nat.add_assoc, Nat.add_le_add_iff_left, Nat.add_lt_add_iff_left]

/-- Where a tile leaves the address counter (70_reset_and_hazards.md R252). -/
def State.tileEnd (s : State) (x y scale a : Nat) (fv fh : Bool) : Nat × Nat :=
  if s.sourceIndex a 7 7 fh = 7#3 then (x + 8 * scale, if fv then y else y + 8 * scale - 1)
  else (x, if fv then y + 1 else y)

theorem State.tileStroke_last_after (s : State) (x y : Nat) {scale : Nat} (hscale : 1 ≤ scale) (a : Nat) (pal : Byte)
    (fv fh : Bool) :
    (s.tileStroke x y scale a pal fv fh (8 * scale - 1) (8 * scale - 1)).after x y (x + 8 * scale - 1)
        (y + 8 * scale - 1) (x + (8 * scale - 1)) (panelRow y (8 * scale) (8 * scale - 1) fv) =
      s.tileEnd x y scale a fv fh := by
  have hcolumn : x + (8 * scale - 1) + 1 = x + 8 * scale := by omega
  have hrow : panelRow y (8 * scale) (8 * scale - 1) fv = if fv then y else y + 8 * scale - 1 := by
    unfold panelRow
    split <;> omega
  have hnext : nextCell x y (x + 8 * scale - 1) (y + 8 * scale - 1) (x + (8 * scale - 1))
      (if fv then y else y + 8 * scale - 1) = (x, if fv then y + 1 else y) := by
    rw [nextCell, if_neg (by omega)]
    cases fv with
    | true => exact if_pos (show y + 1 ≤ y + 8 * scale - 1 by omega)
    | false => exact if_neg (show ¬ y + 8 * scale - 1 + 1 ≤ y + 8 * scale - 1 by omega)
  rw [Stroke.after, s.tileStroke_last x y hscale, State.tileEnd, hrow, hnext, hcolumn]
  split
  · rfl
  · rfl

/-- A tile on the panel, at the controller: its writes, and where it leaves the address counter. -/
theorem State.paint_tile (s : State) (hd : RegsDistinct s.params) {x y scale : Nat} (hscale : 1 ≤ scale)
    (hx : x + 8 * scale ≤ 176) (hy : y + 8 * scale ≤ 220) (a : Nat) (pal : Byte) (fv fh : Bool) (c : Controller) :
    Controller.Wrote x y (x + 8 * scale - 1) (y + 8 * scale - 1) c (s.tileCells x y scale a pal fv fh)
        (c.paint s.params (s.tilePainting x y scale a pal fv fh)) ∧
      Controller.AtCell s.params (s.tileEnd x y scale a fv fh).1 (s.tileEnd x y scale a fv fh).2
        (c.paint s.params (s.tilePainting x y scale a pal fv fh)) := by
  have hstrokes : s.tileStrokes x y scale a pal fv fh =
      tileOf x y (8 * scale) fv (8 * scale) (s.tileStroke x y scale a pal fv fh) :=
    s.tileStrokes_eq x y scale a pal fv fh
  have hwindow : Controller.Wrote x y (x + 8 * scale - 1) (y + 8 * scale - 1) c []
      (c.setWindow s.params x y (x + 8 * scale - 1) (y + 8 * scale - 1)) :=
    Controller.wrote_setWindow (by omega) (by omega) (by omega) (by omega)
  obtain ⟨hwrote, hend⟩ := hwindow.tile hd hx hy (fun o _ col _ => s.tileStroke_isPixel x y scale a pal fv fh o col)
    (le_refl _)
  rw [← hstrokes] at hwrote hend
  have hlast := hend (8 * scale - 1) (by omega) (8 * scale - 1) (by omega)
  rw [s.tileStroke_last_after x y hscale] at hlast
  exact ⟨hwrote, hlast⟩

theorem State.paint_tile_painted (s : State) (hd : RegsDistinct s.params) {x y scale : Nat} (hscale : 1 ≤ scale)
    (hx : x + 8 * scale ≤ 176) (hy : y + 8 * scale ≤ 220) (a : Nat) (pal : Byte) (fv fh : Bool) (c : Controller) :
    Controller.Painted s.params c (c.paint s.params (s.tilePainting x y scale a pal fv fh))
      (s.tileCells x y scale a pal fv fh) := by
  obtain ⟨hwrote, hat⟩ := s.paint_tile hd hscale hx hy a pal fv fh c
  exact hwrote.painted hat

end Sys2Proof.Machine
end

section
/-! The placement statements of the tile commands. -/

namespace Sys2Proof.Machine

/-- A rectangle inside another. -/
theorem inRect_of_inside {x y w h x' y' w' h' a : Nat} (hr : inRect x' y' w' h' a) (hx : x ≤ x') (hw : x' + w' ≤ x + w)
    (hy : y ≤ y') (hh : y' + h' ≤ y + h) : inRect x y w h a := by
  obtain ⟨i, hi, j, hj, rfl⟩ := hr
  exact ⟨x' - x + i, by omega, y' - y + j, by omega, by congr 1 <;> omega⟩

/-- Settles O36: the tile's writes are those of its output pixels (`State.paint_tile`), and a cell has at most one
(`State.mem_tileCells`). -/
theorem tilePlacement : Obligations.TilePlacement := by
  intro x y scale pal addr fv fh s hd hwf hinit hf ha big
  obtain ⟨hscale, -, hright, hbottom⟩ := id hf
  obtain ⟨hwrote, hat⟩ := s.paint_tile hd hscale hright hbottom addr.toNat pal fv fh s.controller
  have hpainted := hwrote.painted hat
  have hcontroller : (s.draw (s.drawItems (.drawTile x y scale pal addr fv fh))).controller =
      s.controller.paint s.params (s.tilePainting x.toNat y.toNat scale.toNat addr.toNat pal fv fh) :=
    State.draw_drawItems_controller hd hinit _
  rw [← hcontroller] at hwrote hpainted
  refine ⟨_, exec_draws rfl (causes_drawTile_eq_nil hf ha fv fh), fun o ho col hcol => ?_,
    hpainted.keepsOutside fun w => inRect_of_mem_tileCells, ⟨hwrote.hsa, hwrote.hea, hwrote.vsa, hwrote.vea⟩⟩
  obtain ⟨hy, hy', -⟩ := (panelRow_eq_iff (y := y.toNat) (fv := fv) ho).mp rfl
  have ho' : o = outputRow 0 big (panelRow y.toNat big o fv - y.toNat) fv := by
    unfold outputRow panelRow
    split <;> omega
  dsimp only
  rw [← s.outputColor_getD, ← Nat.add_sub_cancel' hy]
  refine hpainted.read hwf fun v => ?_
  have hmem := s.mem_tileCells (dx := 0) (dy := 0) (y := y.toNat) (j := panelRow y.toNat big o fv - y.toNat) hright
    (show x.toNat + col < 176 by omega) addr.toNat pal fv fh (v := v)
  rw [← ho'] at hmem
  refine hmem.trans ⟨fun h => h.2.2, fun h => ⟨⟨Nat.zero_le _, by omega⟩, ⟨Nat.zero_le _, by omega⟩, h⟩⟩

/-- The GRAM writes of a composite: those of its four tiles (43_sprite.md R176). -/
def State.compositeCells (s : State) (x y scale : Nat) (pal : Byte) (tl tr bl br : Nat) : List (Nat × Half) :=
  s.tileCells x y scale tl pal false false ++ s.tileCells (x + 8 * scale) y scale tr pal false false ++
    s.tileCells x (y + 8 * scale) scale bl pal true false ++
    s.tileCells (x + 8 * scale) (y + 8 * scale) scale br pal true false

/-- Each place of a composite is in one of its quadrants (43_sprite.md R177). -/
theorem State.mem_compositeCells (s : State) {x y scale i j : Nat} (hx : x + 16 * scale ≤ 176)
    (hi : i < 2 * (8 * scale)) (hj : j < 2 * (8 * scale)) (pal : Byte) (tl tr bl br : Nat) {v : Half} :
    (gramCell (x + i) (y + j), v) ∈ s.compositeCells x y scale pal tl tr bl br ↔
      s.outputColor scale
        (if j < 8 * scale then (if i < 8 * scale then tl else tr) else (if i < 8 * scale then bl else br)) pal false
        (if j < 8 * scale then j else 2 * (8 * scale) - 1 - j) (i % (8 * scale)) = some v := by
  have htl := s.mem_tileCells (x := x) (y := y) (dx := 0) (dy := 0) (scale := scale) (i := i) (j := j) (by omega)
    (by omega) tl pal false false (v := v)
  have htr := s.mem_tileCells (x := x) (y := y) (dx := 8 * scale) (dy := 0) (scale := scale) (i := i) (j := j)
    (by omega) (by omega) tr pal false false (v := v)
  have hbl := s.mem_tileCells (x := x) (y := y) (dx := 0) (dy := 8 * scale) (scale := scale) (i := i) (j := j)
    (by omega) (by omega) bl pal true false (v := v)
  have hbr := s.mem_tileCells (x := x) (y := y) (dx := 8 * scale) (dy := 8 * scale) (scale := scale) (i := i) (j := j)
    (by omega) (by omega) br pal true false (v := v)
  simp only [State.compositeCells, List.mem_append]
  simp only [Nat.add_zero] at htl htr hbl
  rw [htl, htr, hbl, hbr]
  have hleft : (0 ≤ i ∧ i < 0 + 8 * scale) ↔ i < 8 * scale := by omega
  have hright : (8 * scale ≤ i ∧ i < 8 * scale + 8 * scale) ↔ ¬ i < 8 * scale := by omega
  have htop : (0 ≤ j ∧ j < 0 + 8 * scale) ↔ j < 8 * scale := by omega
  have hbottom : (8 * scale ≤ j ∧ j < 8 * scale + 8 * scale) ↔ ¬ j < 8 * scale := by omega
  have hupright : outputRow 0 (8 * scale) j false = j := rfl
  have hflipped : outputRow (8 * scale) (8 * scale) j true = 2 * (8 * scale) - 1 - j := by rw [Nat.two_mul]; rfl
  simp only [hleft, hright, htop, hbottom, hupright, hflipped, Nat.sub_zero]
  by_cases hl : i < 8 * scale
  · rw [Nat.mod_eq_of_lt hl]
    by_cases ht : j < 8 * scale <;> simp only [hl, ht, if_true, if_false] <;> simp
  · rw [Nat.mod_eq_sub_mod (by omega), Nat.mod_eq_of_lt (by omega)]
    by_cases ht : j < 8 * scale <;> simp only [hl, ht, if_true, if_false] <;> simp

/-- Settles O37: four tiles one after another (`State.paint_tile_painted`), each place written by its quadrant's
(`State.mem_compositeCells`). -/
theorem compositePlacement : Obligations.CompositePlacement := by
  intro x y scale pal tl tr bl br s hd hwf hinit hf htl htr hbl hbr big
  obtain ⟨hscale, -, hright, hbottom⟩ := id hf
  have hcontroller : (s.draw (s.drawItems (.drawComposite x y scale pal tl tr bl br))).controller = _ :=
    State.draw_drawItems_controller hd hinit _
  have htile := fun x y hx hy a fv => s.paint_tile_painted hd hscale (x := x) (y := y) hx hy a pal fv false
  have hpainted : Controller.Painted s.params s.controller
      (s.draw (s.drawItems (.drawComposite x y scale pal tl tr bl br))).controller
      (s.compositeCells x.toNat y.toNat scale.toNat pal tl.toNat tr.toNat bl.toNat br.toNat) := by
    rw [hcontroller]
    exact (((htile _ _ (by omega) (by omega) tl.toNat false _).trans
      (htile _ _ (by omega) (by omega) tr.toNat false _)).trans
      (htile _ _ (by omega) (by omega) bl.toNat true _)).trans (htile _ _ (by omega) (by omega) br.toNat true _)
  refine ⟨_, exec_draws rfl (causes_drawComposite_eq_nil hf htl htr hbl hbr), fun i hi j hj => ?_,
    hpainted.keepsOutside fun w hw => ?_⟩
  · refine (hpainted.read hwf fun v => s.mem_compositeCells hright hi hj pal _ _ _ _).trans ?_
    simp only [s.outputColor_getD, apply_ite BitVec.toNat]
    rfl
  · simp only [State.compositeCells, List.mem_append] at hw
    obtain ((h | h) | h) | h := hw
    all_goals exact inRect_of_inside (inRect_of_mem_tileCells h) (by omega) (by omega) (by omega) (by omega)

/-! ### All-transparent tiles -/

/-- The output rows and columns of a tile show source rows and positions below 8 (43_sprite.md R164). -/
theorem div_scale_lt {n scale : Nat} (hn : n ∈ List.range (8 * scale)) : n / scale < 8 :=
  Nat.div_lt_of_lt_mul (by rw [Nat.mul_comm]; exact List.mem_range.1 hn)

/-- A tile without an opaque pixel writes no cell. -/
theorem State.tileCells_eq_nil {s : State} {x y scale a : Nat} {pal : Byte} {fv fh : Bool}
    (h : ∀ r < 8, ∀ q < 8, s.sourceIndex a r q fh = 7#3) : s.tileCells x y scale a pal fv fh = [] := by
  refine List.flatMap_eq_nil_iff.2 fun o ho => List.flatMap_eq_nil_iff.2 fun col hcol => ?_
  rw [Stroke.cells, s.tileStroke_color, State.outputColor, if_pos (h _ (div_scale_lt ho) _ (div_scale_lt hcol))]
  rfl

/-- The records of a tile without an opaque pixel: its window, and for each output row a placement at its start and one
after each pixel. -/
theorem State.tileTrans_transparent {s : State} {x y scale a : Nat} {pal : Byte} {fv fh : Bool}
    (h : ∀ r < 8, ∀ q < 8, s.sourceIndex a r q fh = 7#3) :
    s.tileTrans x y scale a pal fv fh =
      windowTrans s.params x y (x + 8 * scale - 1) (y + 8 * scale - 1) ++
        (List.range (8 * scale)).flatMap fun o => (List.range (8 * scale + 1)).flatMap fun n =>
          cursorTrans s.params (x + n) (panelRow y (8 * scale) o fv) ++ [.sel s.params.regGram] := by
  refine congrArg _ (List.flatMap_congr fun o ho => ?_)
  rw [List.range_succ_eq_map, List.flatMap_cons, List.flatMap_map]
  refine congrArg _ (List.flatMap_congr fun col hcol => ?_)
  rw [pixelTrans, if_pos (h _ (div_scale_lt ho) _ (div_scale_lt hcol))]
  rfl

/-- Settles O41: no pixel is opaque, so the tile writes no cell (`State.tileCells_eq_nil`), its records are placements
(`State.tileTrans_transparent`), and its strokes have no colour (`State.length_tileColors`). -/
theorem transparentTile : Obligations.TransparentTile := by
  intro x y scale pal addr fv fh s hd hs hf ha hidx S
  have hflip : ∀ r < 8, ∀ q < 8, s.sourceIndex addr.toNat r q fh = 7#3 := by
    intro r hr q hq
    cases fh with
    | false => exact hidx r hr q hq
    | true => exact hidx r hr (7 - q) (by omega)
  have hdrawn := s.drawn_tile s hf.right hf.bottom addr.toNat pal fv fh
  have hgram : gramColors s.params.regGram
      (s.tileTrans x.toNat y.toNat scale.toNat addr.toNat pal fv fh) = [] := by
    have hcount : s.transparentPixels addr.toNat = 64 := by
      refine List.countP_eq_length.2 fun n hn => ?_
      have hn64 : n < 64 := List.mem_range.1 hn
      simp [hidx (n / 8) (by omega) (n % 8) (by omega)]
    have hcolors := s.length_tileColors x.toNat y.toNat scale.toNat addr.toNat pal fv fh
    have hlength : (strokeColors (s.tileStrokes x.toNat y.toNat scale.toNat addr.toNat pal fv fh)).length = 0 := by
      rw [hcount] at hcolors
      have hsq : 8 * scale.toNat * (8 * scale.toNat) = scale.toNat * scale.toNat * 64 := by ring
      omega
    have htile := s.gramColors_tile hd x.toNat y.toNat hf.scale addr.toNat pal fv fh
    rw [s.opsItems_tileBody, List.length_eq_zero_iff.1 hlength] at htile
    rw [← s.itemsTrans_tilePainting hf.right hf.bottom]
    exact htile
  refine ⟨_, _, exec_drawTile hf ha fv fh, (hdrawn.settled hs).2, State.tileTrans_transparent hflip, hgram,
    hdrawn.frame.err, fun hinit => ?_⟩
  have hpainted := s.paint_tile_painted hd hf.scale hf.right hf.bottom addr.toNat pal fv fh s.controller
  rw [State.tileCells_eq_nil hflip] at hpainted
  have hcontroller := State.draw_drawItems_controller hd hinit (.drawTile x y scale pal addr fv fh)
  rw [State.drawItems, State.paintings, List.flatMap_singleton] at hcontroller
  exact (congrArg Controller.gram hcontroller).trans hpainted.gram

end Sys2Proof.Machine
end

section
/-! What the fill commands paint, and where every drawing command leaves the address counter. -/

namespace Sys2Proof.Machine

/-! ### Cells in row-major order -/

/-- The place after the `k`-th of rows of `w`. -/
theorem succ_div_mod {w : Nat} (hw : 0 < w) (k : Nat) :
    (k % w + 1 < w ∧ (k + 1) / w = k / w ∧ (k + 1) % w = k % w + 1) ∨
      (k % w + 1 = w ∧ (k + 1) / w = k / w + 1 ∧ (k + 1) % w = 0) := by
  have hk := Nat.mod_add_div k w
  have hlt := Nat.mod_lt k hw
  rcases Nat.lt_or_ge (k % w + 1) w with h | h
  · exact .inl ⟨h, (Nat.div_mod_unique hw).mpr ⟨by omega, h⟩⟩
  · exact .inr ⟨by omega, (Nat.div_mod_unique hw).mpr ⟨by rw [Nat.mul_succ]; omega, hw⟩⟩

/-- The address counter goes through a window's cells in row-major order, again and again (20_memory.md R68). -/
theorem nextCell_rowMajor {x y w h : Nat} (hw : 0 < w) (hh : 0 < h) (k : Nat) :
    nextCell x y (x + w - 1) (y + h - 1) (x + k % w) (y + k / w % h) = (x + (k + 1) % w, y + (k + 1) / w % h) := by
  unfold nextCell
  obtain ⟨hcol, hdiv, hmod⟩ | ⟨hcol, hdiv, hmod⟩ := succ_div_mod hw k
  · rw [if_pos (by omega), hdiv, hmod, Nat.add_assoc]
  · rw [if_neg (by omega), hdiv, hmod]
    obtain ⟨hrow, -, hmod'⟩ | ⟨hrow, -, hmod'⟩ := succ_div_mod hh (k / w)
    · rw [if_pos (by omega), hmod', Nat.add_assoc]
      rfl
    · rw [if_neg (by omega), hmod']
      rfl

/-- The GRAM writes of the first `k` colour writes of a fill. -/
def fillCells (x y w h : Nat) (color : Half) (k : Nat) : List (Nat × Half) :=
  (List.range k).map fun n => (gramCell (x + n % w) (y + n / w % h), color)

/-- The first colour writes of a fill, at the controller. -/
theorem Controller.Wrote.fill {p : Params} (hd : RegsDistinct p) {x y w h : Nat} (hw : 1 ≤ w) (hh : 1 ≤ h)
    (hx : x + w ≤ 176) (hy : y + h ≤ 220) {c d : Controller}
    (hwindow : Controller.Wrote x y (x + w - 1) (y + h - 1) c [] d) (color : Half) (k : Nat) :
    Controller.Wrote x y (x + w - 1) (y + h - 1) c (fillCells x y w h color k)
        (d.strokes p (.place x y :: List.replicate k (.color color))) ∧
      Controller.AtCell p (x + k % w) (y + k / w % h)
        (d.strokes p (.place x y :: List.replicate k (.color color))) := by
  induction k with
  | zero =>
    rw [Nat.zero_div, Nat.zero_mod, Nat.zero_mod]
    exact hwindow.place hd (by omega) (by omega)
  | succ k ih =>
    obtain ⟨hwrote, hat⟩ := ih
    have hcol := Nat.mod_lt k hw
    have hrow := Nat.mod_lt (k / w) hh
    have hcolor := hwrote.color hd hat (by omega) (by omega) (by omega) (by omega) (by omega) (by omega) color
    rw [← Controller.strokes_append, nextCell_rowMajor hw hh] at hcolor
    simpa only [fillCells, List.range_succ, List.map_append, List.map_singleton, List.replicate_succ',
      List.cons_append] using hcolor

theorem mem_fillCells {x y w h i j : Nat} (hi : i < w) (hj : j < h) (color : Half) :
    (gramCell (x + i) (y + j), color) ∈ fillCells x y w h color (w * h) := by
  obtain ⟨hdiv, hmod⟩ := (Nat.div_mod_unique (a := i + w * j) (c := i) (d := j) (Nat.zero_lt_of_lt hi)).mpr ⟨rfl, hi⟩
  refine List.mem_map.2 ⟨i + w * j, List.mem_range.2 ?_, by rw [hdiv, hmod, Nat.mod_eq_of_lt hj]⟩
  have hrows := Nat.mul_le_mul_left w (Nat.succ_le_of_lt hj)
  rw [Nat.mul_succ] at hrows
  omega

/-! ### Fills -/

/-- The colour writes of a painting are the colours of its strokes. -/
theorem Painting.Placed.gramColors {p : Params} (hd : RegsDistinct p) {pt : Painting} (h : pt.Placed) :
    gramColors p.regGram (itemsTrans (pt.items p)) = (strokeColors pt.strokes).map colorTrans := by
  obtain ⟨x, y, ss, hss⟩ := h
  rw [Painting.items, hss, itemsTrans_append, List.flatMap_cons, itemsTrans_append, gramColors_eq, List.foldl_append,
    List.foldl_append, colorSteps_window hd, Stroke.items, colorSteps_correction hd, colorSteps_strokes hd]
  rfl

/-- The controller after the first `k` colour writes of a fill of the `w` by `h` rectangle at `(x, y)`. -/
theorem State.runItems_fill (s : State) (hd : RegsDistinct s.params) {x y w h : Nat} (hw : 1 ≤ w) (hh : 1 ≤ h)
    (hx : x + w ≤ 176) (hy : y + h ≤ 220) (color : Half) (k : Nat) :
    Controller.Wrote x y (x + w - 1) (y + h - 1) s.controller (fillCells x y w h color k)
        (s.runItems (fillItems s.params x y (x + w - 1) (y + h - 1) color k)).controller ∧
      Controller.AtCell s.params (x + k % w) (y + k / w % h)
        (s.runItems (fillItems s.params x y (x + w - 1) (y + h - 1) color k)).controller := by
  rw [← fillPainting_items, s.runItems_painting_controller hd]
  exact Controller.Wrote.fill hd hw hh hx hy
    (Controller.wrote_setWindow (by omega) (by omega) (by omega) (by omega)) color k

/-- What a fill paints (42_primitives.md R145). -/
theorem State.draw_fills {s : State} (hd : RegsDistinct s.params) (hwf : Memory.wf s.controller.gram)
    (hinit : s.controller.initialized = true) {x y x1 y1 w h n : Nat} (hw : 1 ≤ w) (hh : 1 ≤ h) (hx : x + w ≤ 176)
    (hy : y + h ≤ 220) (hx1 : x1 = x + w - 1) (hy1 : y1 = y + h - 1) (hn : n = w * h) (color : Half) :
    s.Fills (s.draw (fillItems s.params x y x1 y1 color n)) x y w h color := by
  subst hx1 hy1 hn
  have hcontroller := State.draw_controller hinit (fillItems s.params x y (x + w - 1) (y + h - 1) color (w * h))
  obtain ⟨hwrote, hat⟩ := s.runItems_fill hd hw hh hx hy color (w * h)
  rw [Nat.mul_mod_right, Nat.mul_div_cancel_left h hw, Nat.mod_self] at hat
  rw [← hcontroller] at hwrote hat
  refine ⟨fun i hi j hj => ?_, (hwrote.painted hat).keepsOutside fun c hc => ?_, fun k hk => ?_, fun hs => ?_,
    hat.acx, hat.acy, ⟨hwrote.hsa, hwrote.hea, hwrote.vsa, hwrote.vea⟩⟩
  · refine (congrArg (Memory.read · _) hwrote.gram).trans
      (Memory.read_writes_same hwf (mem_fillCells hi hj color) fun c hc _ => ?_)
    obtain ⟨k, -, rfl⟩ := List.mem_map.1 hc
    rfl
  · obtain ⟨k, -, rfl⟩ := List.mem_map.1 hc
    exact ⟨k % w, Nat.mod_lt _ hw, k / w % h, Nat.mod_lt _ hh, rfl⟩
  · obtain ⟨-, hir, hacx, hacy⟩ := s.runItems_fill hd hw hh hx hy color k
    rw [Nat.mod_eq_of_lt (Nat.div_lt_of_lt_mul hk)] at hacy
    exact ⟨hir, hacx, hacy⟩
  · refine ⟨_, (State.draw_settled hs _).2, ?_⟩
    have hplaced : (fillPainting x y (x + w - 1) (y + h - 1) color (w * h)).Placed := ⟨_, _, _, rfl⟩
    have hcolors : strokeColors (List.replicate (w * h) (.color color)) = List.replicate (w * h) color :=
      List.filterMap_replicate_of_some rfl
    rw [← fillPainting_items, hplaced.gramColors hd, fillPainting, strokeColors_place, hcolors, List.map_replicate]

/-- Settles O32: each fill command is a fill of its rectangle (`State.draw_fills`). -/
theorem fillPlacement : Obligations.FillPlacement := by
  intro s hd hwf hinit
  refine ⟨fun x y width height color hw hh hx hy => ⟨_, exec_drawRect color hw hh hx hy, ?_⟩,
    fun x y color hx hy => ⟨_, exec_drawPixel color hx hy, ?_⟩,
    fun x y width color hx hy => ⟨_, exec_drawHline color hx hy, ?_⟩, ⟨_, exec_clearScreen s, ?_⟩⟩
  · exact State.draw_fills hd hwf hinit hw hh hx hy rfl rfl rfl color
  · exact State.draw_fills hd hwf hinit (le_refl 1) (le_refl 1) hx hy rfl rfl rfl color
  · exact State.draw_fills hd hwf hinit (Nat.succ_pos _) (le_refl 1) hx hy rfl rfl (Nat.mul_one _).symm color
  · exact State.draw_fills (w := 176) (h := 220) hd hwf hinit (by decide) (by decide) (by decide) (by decide)
      rfl rfl rfl _

/-! ### The address counter after a drawing command -/

/-- A fill leaves the address counter at its origin (70_reset_and_hazards.md R252). -/
theorem State.draw_fill_origin {s : State} (hd : RegsDistinct s.params) (hinit : s.controller.initialized = true)
    {x y x1 y1 w h n : Nat} (hw : 1 ≤ w) (hh : 1 ≤ h) (hx : x + w ≤ 176) (hy : y + h ≤ 220) (hx1 : x1 = x + w - 1)
    (hy1 : y1 = y + h - 1) (hn : n = w * h) (color : Half) :
    (s.draw (fillItems s.params x y x1 y1 color n)).controller.acx.toNat = x ∧
      (s.draw (fillItems s.params x y x1 y1 color n)).controller.acy.toNat = y := by
  subst hx1 hy1 hn
  obtain ⟨-, -, hacx, hacy⟩ := s.runItems_fill hd hw hh hx hy color (w * h)
  rw [Nat.mul_mod_right, Nat.add_zero] at hacx
  rw [Nat.mul_div_cancel_left h hw, Nat.mod_self, Nat.add_zero] at hacy
  rw [State.draw_controller hinit]
  exact ⟨hacx, hacy⟩

/-- Where a tile leaves the address counter, by its last output pixel. -/
theorem State.AtCell_tileEnd {s : State} {x y scale a : Nat} {fv fh : Bool} {d : Controller}
    (h : Controller.AtCell s.params (s.tileEnd x y scale a fv fh).1 (s.tileEnd x y scale a fv fh).2 d) :
    (s.sourceIndex a 7 7 fh = 7#3 →
        d.acx.toNat = x + 8 * scale ∧ d.acy.toNat = if fv then y else y + 8 * scale - 1) ∧
      (s.sourceIndex a 7 7 fh ≠ 7#3 → d.acx.toNat = x ∧ d.acy.toNat = if fv then y + 1 else y) := by
  obtain ⟨-, hacx, hacy⟩ := h
  unfold State.tileEnd at hacx hacy
  constructor
  · intro hidx
    rw [if_pos hidx] at hacx hacy
    exact ⟨hacx, hacy⟩
  · intro hidx
    rw [if_neg hidx] at hacx hacy
    exact ⟨hacx, hacy⟩

/-- Settles O53: a fill ends at its origin (`State.draw_fill_origin`), a tile as its last output pixel says
(`State.paint_tile`), a composite with its fourth tile. -/
theorem addressCounterAfter : Obligations.AddressCounterAfter := by
  intro s hd hinit
  refine ⟨fun x y color hx hy => ⟨_, exec_drawPixel color hx hy, ?_⟩,
    fun x y width color hx hy => ⟨_, exec_drawHline color hx hy, ?_⟩,
    fun x y width height color hw hh hx hy => ⟨_, exec_drawRect color hw hh hx hy, ?_⟩, ⟨_, exec_clearScreen s, ?_⟩,
    fun x y scale pal addr fv fh hf ha => ⟨_, exec_draws rfl (causes_drawTile_eq_nil hf ha fv fh), ?_⟩,
    fun x y scale pal tl tr bl br hf htl htr hbl hbr =>
      ⟨_, exec_draws rfl (causes_drawComposite_eq_nil hf htl htr hbl hbr), ?_⟩⟩
  · exact State.draw_fill_origin hd hinit (le_refl 1) (le_refl 1) hx hy rfl rfl rfl color
  · exact State.draw_fill_origin hd hinit (Nat.succ_pos _) (le_refl 1) hx hy rfl rfl (Nat.mul_one _).symm color
  · exact State.draw_fill_origin hd hinit hw hh hx hy rfl rfl rfl color
  · exact State.draw_fill_origin (w := 176) (h := 220) hd hinit (by decide) (by decide) (by decide) (by decide)
      rfl rfl rfl _
  · obtain ⟨hscale, -, hright, hbottom⟩ := hf
    rw [State.draw_drawItems_controller hd hinit]
    exact State.AtCell_tileEnd (s.paint_tile hd hscale hright hbottom _ pal fv fh _).2
  · obtain ⟨hscale, -, hright, hbottom⟩ := hf
    rw [State.draw_drawItems_controller hd hinit]
    have hcolumn : x.toNat + 2 * (8 * scale.toNat) = x.toNat + 8 * scale.toNat + 8 * scale.toNat := by omega
    rw [hcolumn]
    exact State.AtCell_tileEnd (s.paint_tile hd hscale (by omega) (by omega) _ pal true false _).2

end Sys2Proof.Machine
end

section
/-! A command edge by edge: it ends, in the state of its one transition, and no earlier than its bus steps take. -/

namespace Sys2Proof.Machine

/-! ### Every command ends -/

/-- After finitely many edges without a host input the block is IDLE. -/
def State.Ends (s : State) : Prop := ∃ n, (State.edges n s).phase = .idle

theorem State.Ends.of_idle {s : State} (h : s.phase = .idle) : s.Ends := ⟨0, h⟩

theorem State.Ends.of_tick {s : State} (hb : s.phase = .busy) (h : s.tick.Ends) : s.Ends := by
  obtain ⟨n, hn⟩ := h
  exact ⟨n + 1, by rwa [State.edges, State.noInput_busy s hb]⟩

/-- A step held ends if what comes after it does. -/
theorem State.ends_of_running {kind : CommandKind} {ms : List Micro} {ops : List Op}
    (h : ∀ u : State, u.phase = .busy → (u.advance kind ms ops).Ends) (hold : Nat) {s : State} (hb : s.phase = .busy)
    (hs : s.seq = .running kind hold ms ops) : s.Ends := by
  induction hold generalizing s with
  | zero => exact .of_tick hb (by rw [State.tick, hs]; exact h s hb)
  | succ hold ih => exact .of_tick hb (by rw [State.tick, hs]; exact ih hb rfl)

/-- A command in progress ends, action by action and operation by operation. -/
theorem State.ends_advance (kind : CommandKind) (ops : List Op) (ms : List Micro) {s : State} (hb : s.phase = .busy) :
    (s.advance kind ms ops).Ends := by
  have hmicro (u : State) (m : Micro) (hu : u.phase = .busy) : (u.micro m).phase = .busy := by
    rw [State.micro_phase, hu]
  induction ops generalizing s ms with
  | nil =>
    induction ms generalizing s with
    | nil => exact .of_idle rfl
    | cons m ms ih => exact State.ends_of_running (fun u hu => ih hu) _ (hmicro _ _ hb) rfl
  | cons o ops ihops =>
    induction ms generalizing s with
    | nil =>
      rw [State.advance]
      dsimp only
      split
      · exact State.ends_of_running (fun u hu => ihops [] hu) _ hb rfl
      · exact State.ends_of_running (fun u hu => ihops _ hu) _ (hmicro _ _ hb) rfl
    | cons m ms ih => exact State.ends_of_running (fun u hu => ih hu) _ (hmicro _ _ hb) rfl

theorem State.ends_rejectAfter (code : ErrCode) (left : Nat) {s : State} (hb : s.phase = .busy) :
    (s.rejectAfter code left).Ends := by
  induction left generalizing s with
  | zero => exact .of_idle rfl
  | succ left ih => exact .of_tick hb (ih (s := { s with seq := .rejecting left code }) hb)

theorem State.ends_begin {s : State} (hb : s.phase = .busy) : s.begin.Ends := by
  cases hplan : planWord s.cmd s.params s.scrollOffset with
  | reject code =>
    rw [State.begin_reject hplan]
    exact State.ends_rejectAfter code _ hb
  | run kind scroll ops =>
    rw [State.begin_run hplan]
    exact State.ends_advance kind ops [] hb

theorem State.ends_decoding (left : Nat) {s : State} (hb : s.phase = .busy) (hs : s.seq = .decoding left) : s.Ends := by
  induction left generalizing s with
  | zero => exact .of_tick hb (by rw [State.tick, hs]; exact State.ends_begin hb)
  | succ left ih => exact .of_tick hb (by rw [State.tick, hs]; exact ih hb rfl)

/-- Settles O58: the sequencer's position gets smaller (`State.ends_advance`), and the records of an accepted drawing
command are bounded (`State.length_drawItems_le`). -/
theorem everyCommandEnds : Obligations.EveryCommandEnds := by
  refine ⟨fun s => ?_, fun i s t hi hs h => ?_⟩
  · show s.Ends
    cases hb : s.phase with
    | idle => exact .of_idle hb
    | busy =>
      cases hseq : s.seq with
      | none => exact .of_tick hb (by rw [State.tick, hseq]; exact .of_idle rfl)
      | decoding left => exact State.ends_decoding left hb hseq
      | rejecting left code =>
        exact .of_tick hb (by rw [State.tick, hseq]; exact State.ends_rejectAfter code left hb)
      | running kind hold ms ops =>
        exact State.ends_of_running (fun u hu => State.ends_advance kind ops ms hu) hold hb hseq
  · obtain ⟨code, rfl⟩ | ⟨hc, rfl⟩ := exec_drawing_cases hi h
    · exact ⟨[], (List.append_nil _).symm, Nat.zero_le _⟩
    · exact ⟨_, (State.draw_settled hs _).2, State.length_drawItems_le hc⟩

/-! ### From one state to another, BUSY -/

/-- After `n` edges without a host input `s` is `t`, BUSY until then. -/
def State.RunsTo (s : State) (n : Nat) (t : State) : Prop :=
  State.edges n s = t ∧ ∀ m < n, (State.edges m s).phase = .busy

theorem State.RunsTo.refl (s : State) : s.RunsTo 0 s := ⟨rfl, nofun⟩

/-- One more edge in front. -/
theorem State.RunsTo.of_tick {s t : State} {n : Nat} (hb : s.phase = .busy) (h : s.tick.RunsTo n t) :
    s.RunsTo (n + 1) t := by
  obtain ⟨hn, hbusy⟩ := h
  refine ⟨by rwa [State.edges, State.noInput_busy s hb], fun m hm => ?_⟩
  cases m with
  | zero => exact hb
  | succ m =>
    rw [State.edges, State.noInput_busy s hb]
    exact hbusy m (by omega)

/-- What an edge makes of a command does not depend on the position the sequencer is at, once that is given. -/
theorem State.advance_setSeq (s : State) (q : SeqPos) (kind : CommandKind) (ms : List Micro) (ops : List Op) :
    (s.setSeq q).advance kind ms ops = s.advance kind ms ops := by
  have hmicro (b : Bool) (m : Micro) (r : SeqPos) :
      { ((s.setSeq q).countRace b).micro m with seq := r } = { (s.countRace b).micro m with seq := r } := by
    rw [show (s.setSeq q).countRace b = (s.countRace b).setSeq q from rfl, State.busBlind_setSeq]
    rfl
  cases ms with
  | cons m ms => exact hmicro _ _ _
  | nil =>
    cases ops with
    | nil => rfl
    | cons o ops =>
      unfold State.advance
      dsimp only
      rw [show (s.setSeq q).opMicros o = s.opMicros o from rfl]
      split
      · rfl
      · exact hmicro _ _ _

/-- A step held: the next action follows when its cycles are over. -/
theorem State.runsTo_hold {kind : CommandKind} {ms : List Micro} {ops : List Op} (hold : Nat) {s t : State} {n : Nat}
    (hb : s.phase = .busy) (h : (s.advance kind ms ops).RunsTo n t) :
    (s.setSeq (.running kind hold ms ops)).RunsTo (n + hold + 1) t := by
  induction hold with
  | zero =>
    refine .of_tick hb ?_
    rw [State.tick]
    dsimp only [State.setSeq]
    rwa [← State.setSeq, State.advance_setSeq]
  | succ hold ih => exact .of_tick hb ih

/-! ### A command that no host write disturbs -/

/-- Every operation has a first action. -/
theorem Op.micros_ne_nil (p : Params) (rd : Nat → Byte) (o : Op) : o.micros p rd ≠ [] := by
  cases o with
  | item t => cases t <;> exact List.cons_ne_nil _ _
  | pixel px =>
    show pixelMicros p rd px ≠ []
    unfold pixelMicros
    split <;> exact List.cons_ne_nil _ _

theorem State.advance_cons_quiet {s : State} (h : s.olds = []) (kind : CommandKind) (m : Micro) (ms : List Micro)
    (ops : List Op) :
    s.advance kind (m :: ms) ops = (s.micro m).setSeq (.running kind (holdOf s.params m) ms ops) := by
  rw [State.advance, State.countRace_quiet s _ h, State.reread_quiet s _ h]
  rfl

/-- The first action of the next operation follows as any other. -/
theorem State.advance_op_quiet {s : State} (h : s.olds = []) (kind : CommandKind) (o : Op) (ops : List Op) :
    s.advance kind [] (o :: ops) = s.advance kind (o.micros s.params s.assetByte) ops := by
  have ho := State.opMicros_quiet s o h
  obtain ⟨m, ms, hms⟩ := List.exists_cons_of_ne_nil (Op.micros_ne_nil s.params s.assetByte o)
  rw [hms] at ho ⊢
  rw [State.advance_cons_quiet h, State.advance]
  dsimp only
  rw [ho, State.countRace_quiet s _ h]
  rfl

/-- The actions and operations that are left, and then the end of the command. -/
def State.finally (s : State) (kind : CommandKind) (ms : List Micro) (ops : List Op) : State :=
  ((ms.foldl State.micro s).runOps ops).complete kind

theorem State.finally_op (s : State) (kind : CommandKind) (o : Op) (ops : List Op) :
    s.finally kind [] (o :: ops) = s.finally kind (o.micros s.params s.assetByte) ops := by
  rw [State.finally, State.finally, State.micros_op]
  rfl

/-- How many actions operations have. -/
def opsActions (p : Params) (rd : Nat → Byte) (ops : List Op) : Nat := (ops.map fun o => (o.micros p rd).length).sum

/-- Undisturbed, a command in progress ends in the state that its actions and operations lead to, at least one edge
for each action that is left. -/
theorem State.runsTo_finally (kind : CommandKind) (ops : List Op) (ms : List Micro) {s : State} (hb : s.phase = .busy)
    (ho : s.olds = []) :
    ∃ n, (s.advance kind ms ops).RunsTo n (s.finally kind ms ops) ∧
      ms.length + opsActions s.params s.assetByte ops ≤ n := by
  have hstep (ops : List Op) (m : Micro) (ms : List Micro) (s : State) (hb : s.phase = .busy) (ho : s.olds = [])
      (ih : ∀ u : State, u.phase = .busy → u.olds = [] → ∃ n, (u.advance kind ms ops).RunsTo n (u.finally kind ms ops) ∧
        ms.length + opsActions u.params u.assetByte ops ≤ n) :
      ∃ n, (s.advance kind (m :: ms) ops).RunsTo n (s.finally kind (m :: ms) ops) ∧
        (m :: ms).length + opsActions s.params s.assetByte ops ≤ n := by
    have hassets : (s.micro m).assetByte = s.assetByte := by
      funext k
      rw [State.assetByte, State.micro_assets, State.assetByte]
    have hb' : (s.micro m).phase = .busy := by rw [State.micro_phase, hb]
    obtain ⟨n, hn, hle⟩ := ih (s.micro m) hb' (by rw [State.micro_olds, ho])
    rw [State.micro_params, hassets] at hle
    rw [State.advance_cons_quiet ho]
    exact ⟨_, State.runsTo_hold _ hb' hn, by rw [List.length_cons]; omega⟩
  induction ops generalizing s ms with
  | nil =>
    induction ms generalizing s with
    | nil => exact ⟨0, .refl _, le_refl 0⟩
    | cons m ms ih => exact hstep [] m ms s hb ho fun u hu hu' => ih hu hu'
  | cons o ops ihops =>
    induction ms generalizing s with
    | nil =>
      obtain ⟨n, hn, hle⟩ := ihops (o.micros s.params s.assetByte) hb ho
      rw [State.advance_op_quiet ho, State.finally_op]
      exact ⟨n, hn, by rw [opsActions, List.map_cons, List.sum_cons]; exact (Nat.zero_add _).trans_le hle⟩
    | cons m ms ih => exact hstep (o :: ops) m ms s hb ho fun u hu hu' => ih hu hu'

/-- A rejection that has begun is recorded after its latency (60_exceptions.md R214). -/
theorem State.runsTo_reject (code : ErrCode) (left : Nat) {s : State} (hb : s.phase = .busy) :
    ∃ n, (s.rejectAfter code left).RunsTo n (s.reject code) := by
  induction left generalizing s with
  | zero => exact ⟨0, .refl _⟩
  | succ left ih =>
    obtain ⟨n, hn⟩ := ih (s := { s with seq := .rejecting left code }) hb
    exact ⟨n + 1, .of_tick hb hn⟩

/-- The number of actions of a plan: none for a rejection. -/
def Plan.actions (p : Params) (rd : Nat → Byte) : Plan → Nat
  | .reject _ => 0
  | .run _ _ ops => opsActions p rd ops

/-- Decode and checks, and then the plan (60_exceptions.md R213). -/
theorem State.runsTo_perform (left : Nat) {s : State} (hb : s.phase = .busy) (ho : s.olds = []) :
    ∃ n, (s.setSeq (.decoding left)).RunsTo (n + 1) (s.perform (planWord s.cmd s.params s.scrollOffset)) ∧
      (planWord s.cmd s.params s.scrollOffset).actions s.params s.assetByte ≤ n := by
  induction left with
  | zero =>
    cases hplan : planWord s.cmd s.params s.scrollOffset with
    | reject code =>
      obtain ⟨n, hn⟩ := State.runsTo_reject code s.params.rejectExtra (s := s.setSeq (.decoding 0)) hb
      have hbegin : (s.setSeq (.decoding 0)).tick =
          (s.setSeq (.decoding 0)).rejectAfter code s.params.rejectExtra := State.begin_reject hplan
      rw [← hbegin] at hn
      exact ⟨n, .of_tick hb hn, Nat.zero_le _⟩
    | run kind scroll ops =>
      obtain ⟨n, hn, hle⟩ := State.runsTo_finally kind ops [] (s := s.start kind scroll) hb ho
      have hbegin : (s.setSeq (.decoding 0)).tick = ((s.start kind scroll).setSeq (.decoding 0)).advance kind [] ops :=
        State.begin_run hplan
      rw [← State.advance_setSeq _ (.decoding 0), ← hbegin] at hn
      exact ⟨n, .of_tick hb hn, (Nat.zero_add _).symm.trans_le hle⟩
  | succ left ih =>
    obtain ⟨n, hn, hle⟩ := ih
    exact ⟨n + 1, .of_tick hb hn, Nat.le_succ_of_le hle⟩

/-- An accepted word, edge by edge. -/
theorem State.accept_runsTo {w : CmdWord} {s t : State} (h : runWord w s = .next t) :
    ∃ n, (s.accept w).RunsTo (n + 1) t ∧ (planWord w s.params s.scrollOffset).actions s.params s.assetByte ≤ n := by
  rw [runWord_eq_perform, Host.Outcome.next.injEq] at h
  subst h
  exact State.runsTo_perform s.params.decodeExtra (s := s.capture w) rfl rfl

/-- Settles O59: from acceptance the block is BUSY until it is in the state of the plan (`State.accept_runsTo`). -/
theorem clockRunReachesAtomicResult : Obligations.ClockRunReachesAtomicResult := by
  intro w s t h
  obtain ⟨n, ⟨hn, hbusy⟩, -⟩ := State.accept_runsTo h
  exact ⟨n + 1, hn, Nat.succ_pos n, hbusy⟩

/-! ### The minimum cycles -/

/-- Four steps for each `Sel` of an item and eight for each `Data` (70_reset_and_hazards.md R260). -/
theorem itemTrans_cycles (t : Item) :
    4 * countSel (itemTrans t) + 8 * countData (itemTrans t) ≤ (itemMicros t).length := by
  cases t <;> simp [itemTrans, itemMicros, selSteps, dataSteps, countSel, countData]

theorem countSel_append (ts us : List Trans) : countSel (ts ++ us) = countSel ts + countSel us := List.countP_append

theorem countData_append (ts us : List Trans) : countData (ts ++ us) = countData ts + countData us := List.countP_append

theorem itemsTrans_cycles (ts : List Item) :
    4 * countSel (itemsTrans ts) + 8 * countData (itemsTrans ts) ≤ (ts.flatMap itemMicros).length := by
  induction ts with
  | nil => exact Nat.zero_le _
  | cons t ts ih =>
    have ht := itemTrans_cycles t
    rw [itemsTrans_cons, countSel_append, countData_append, List.flatMap_cons, List.length_append]
    omega

/-- An operation has as many actions as its items. -/
theorem Op.length_micros (p : Params) (rd : Nat → Byte) (o : Op) :
    (o.micros p rd).length = ((o.items p rd).flatMap itemMicros).length := by
  cases o with
  | item t => exact congrArg List.length (List.flatMap_singleton itemMicros t).symm
  | pixel px =>
    show (pixelMicros p rd px).length = ((pixelItems p rd px).flatMap itemMicros).length
    unfold pixelMicros pixelItems
    split <;> rfl

theorem opsActions_eq (p : Params) (rd : Nat → Byte) (ops : List Op) :
    opsActions p rd ops = ((opsItems p rd ops).flatMap itemMicros).length := by
  rw [opsItems, List.flatMap_assoc, List.length_flatMap, opsActions]
  exact congrArg List.sum (List.map_congr_left fun o _ => o.length_micros p rd)

/-- What a plan adds to the transaction trace takes at least as many of its actions. -/
theorem State.perform_cycles {s : State} (hs : s.Settled) (plan : Plan) :
    ∃ new, (s.perform plan).transactions = s.transactions ++ new ∧
      4 * countSel new + 8 * countData new ≤ plan.actions s.params s.assetByte := by
  cases plan with
  | reject code => exact ⟨[], (List.append_nil _).symm, Nat.zero_le _⟩
  | run kind scroll ops =>
    refine ⟨_, (s.perform_run_settled kind scroll ops hs).2, ?_⟩
    rw [Plan.actions, opsActions_eq]
    exact itemsTrans_cycles _

/-- Settles O60: the run takes an edge for each action (`State.accept_runsTo`), and a state that it reaches IDLE is not
reached before it ends. -/
theorem busyAtLeastBusCycles : Obligations.BusyAtLeastBusCycles := by
  intro w s t n hs h hn
  obtain ⟨k, ⟨-, hbusy⟩, hle⟩ := State.accept_runsTo h
  have hperform := runWord_eq_perform w s
  rw [h, Host.Outcome.next.injEq] at hperform
  have hcapture : (s.capture w).Settled := State.settled_congr (s := s) rfl rfl hs
  obtain ⟨new, htrans, hcycles⟩ := State.perform_cycles hcapture (planWord w s.params s.scrollOffset)
  rw [← hperform] at htrans
  have hidle : t.phase = .idle := by
    rw [hperform]
    cases planWord w s.params s.scrollOffset <;> rfl
  have hk : k + 1 ≤ n := by
    by_contra hlt
    have hb := hbusy n (by omega)
    rw [hn, hidle] at hb
    cases hb
  exact ⟨new, htrans, hcycles.trans (hle.trans (by omega))⟩

end Sys2Proof.Machine
end

section
/-! How long actions hold, and reads of asset bytes that the host has changed. -/

namespace Sys2Proof.Machine

/-! ### The edge of an action -/

/-- The action that an edge performs for `m`: `m`, or a colour's with another colour found. -/
def Micro.Rereads (m m' : Micro) : Prop :=
  m' = m ∨ ∃ high px found found', m = .color high px found ∧ m' = .color high px found'

/-- What a read made anew at an action's own edge gives (20_memory.md R54). -/
theorem State.reread_color (s : State) (high : Bool) (px : PixelOp) (found : Half) :
    ∃ c, s.reread (.color high px found) = .color high px c ∧
      (c = found ∨ ∃ rd : Nat → Byte, (∀ j, rd j ∈ s.byteValues j) ∧ pixelIndex s.params rd px ≠ 7#3 ∧
        c = palRead s.params px.pal (pixelIndex s.params rd px)) ∧
      (s.olds = [] → c = found) := by
  rw [State.reread]
  cases ho : s.olds with
  | nil => exact ⟨found, rfl, .inl rfl, fun _ => rfl⟩
  | cons c cs =>
    dsimp only
    split
    · exact ⟨found, rfl, .inl rfl, fun _ => rfl⟩
    · next hidx => exact ⟨_, rfl, .inr ⟨s.racedByte, s.racedByte_mem, hidx, rfl⟩, nofun⟩

theorem State.reread_rereads (s : State) (m : Micro) : m.Rereads (s.reread m) := by
  cases m with
  | step k c => exact .inl rfl
  | wait more => exact .inl rfl
  | color high px found =>
    obtain ⟨c, hc, -⟩ := s.reread_color high px found
    exact .inr ⟨high, px, found, c, rfl, hc⟩

/-- The edge of an action is the action on the pins as they are, and then it is held: also of the first of an
operation and of a command. -/
theorem State.NextAction.noInput {s : State} {kind : CommandKind} {m : Micro} {ms : List Micro} {ops : List Op}
    (h : s.NextAction kind m ms ops) :
    ∃ (u : State) (m' : Micro), s.noInput = (u.micro m').setSeq (.running kind (holdOf s.params m) ms ops) ∧
      u.pins = s.pins ∧ u.trace = s.trace ∧ u.phase = .busy ∧ m.Rereads m' := by
  obtain ⟨hb, h⟩ := h
  have hop {v : State} {o : Op} (hv : v.opMicros o = m :: ms) :
      v.advance kind [] (o :: ops) =
        ((v.countRace o.reads).micro m).setSeq (.running kind (holdOf v.params m) ms ops) := by
    rw [State.advance]
    dsimp only
    rw [hv]
    rfl
  rw [State.noInput_busy s hb, State.tick]
  obtain hseq | ⟨o, hseq, ho⟩ | ⟨hseq, scroll, o, hplan, ho⟩ := h
  · rw [hseq]
    exact ⟨s.countRace m.reads, s.reread m, rfl, rfl, rfl, hb, s.reread_rereads m⟩
  · rw [hseq]
    exact ⟨s.countRace o.reads, m, hop ho, rfl, rfl, hb, .inl rfl⟩
  · rw [hseq]
    exact ⟨(s.start kind scroll).countRace o.reads, m, (State.begin_run hplan).trans (hop ho), rfl, rfl, hb, .inl rfl⟩

/-- While an action is held nothing but the count of its cycles changes. -/
theorem State.edges_hold {kind : CommandKind} {ms : List Micro} {ops : List Op} {u : State} (hb : u.phase = .busy)
    (n hold : Nat) :
    State.edges n (u.setSeq (.running kind (hold + n) ms ops)) = u.setSeq (.running kind hold ms ops) := by
  induction n with
  | zero => rfl
  | succ n ih =>
    have htick : (u.setSeq (.running kind (hold + (n + 1)) ms ops)).noInput =
        u.setSeq (.running kind (hold + n) ms ops) := State.noInput_busy _ hb
    rw [State.edges, htick, ih]

/-- An action and its hold, as edges. -/
theorem State.NextAction.edges {s : State} {kind : CommandKind} {m : Micro} {ms : List Micro} {ops : List Op}
    (h : s.NextAction kind m ms ops) {n : Nat} (h1 : 1 ≤ n) (hn : n ≤ holdOf s.params m + 1) :
    ∃ (u : State) (m' : Micro),
      State.edges n s = (u.micro m').setSeq (.running kind (holdOf s.params m + 1 - n) ms ops) ∧
      u.pins = s.pins ∧ u.trace = s.trace ∧ u.phase = .busy ∧ m.Rereads m' := by
  obtain ⟨u, m', hedge, hpins, htrace, hb, hm⟩ := h.noInput
  obtain ⟨k, rfl⟩ : ∃ k, n = k + 1 := ⟨n - 1, by omega⟩
  obtain ⟨hold, hhold⟩ : ∃ hold, holdOf s.params m = hold + k := ⟨holdOf s.params m - k, by omega⟩
  refine ⟨u, m', ?_, hpins, htrace, hb, hm⟩
  rw [State.edges, hedge, hhold, State.edges_hold (by rw [State.micro_phase, hb])]
  congr 2
  omega

/-! ### Hold times -/

/-- A vector like the last one leaves no mark in the trace (10_state.md R27). -/
theorem pushTrace_of_head {n : Pins} {tr : List Pins} (h : tr.head? = some n) : pushTrace n tr = tr := by
  cases tr with
  | nil => cases h
  | cons o rest => exact if_pos (Option.some.inj h).symm

/-- A field named takes its value, another keeps its own (40_bus_protocol.md R110). -/
theorem getD_named {α : Type} (o : Option α) (a : α) :
    (∀ v, o = some v → o.getD a = v) ∧ (o = none → o.getD a = a) := by
  cases o <;> simp

/-- Settles O20: an action, whichever it is of its operation and command, is held its cycles
(`State.NextAction.edges`). -/
theorem stepAndDelayHold : Obligations.StepAndDelayHold := by
  have hwait (s : State) (kind : CommandKind) (more : Nat) (ms : List Micro) (ops : List Op) (n : Nat)
      (h : s.NextAction kind (.wait more) ms ops) (hn : n ≤ more + 1) :
      (State.edges n s).pins = s.pins ∧ (State.edges n s).trace = s.trace ∧ (State.edges n s).phase = .busy ∧
        (1 ≤ n → (State.edges n s).seq = .running kind (more + 1 - n) ms ops) := by
    rcases Nat.eq_zero_or_pos n with rfl | h1
    · exact ⟨rfl, rfl, h.1, nofun⟩
    · obtain ⟨u, m', hedges, hpins, htrace, hb, rfl | ⟨_, _, _, _, hm, -⟩⟩ := h.edges h1 hn
      · rw [hedges]
        exact ⟨hpins, htrace, hb, fun _ => rfl⟩
      · cases hm
  refine ⟨fun n c => ?_, fun s kind k c ms ops n h h1 hn => ?_, hwait, fun s kind high px found ms ops n h h1 hn => ?_,
    fun s kind more ops n hb hseq hn => ?_⟩
  · obtain ⟨hd, hd'⟩ := getD_named c.d n.d
    obtain ⟨hrs, hrs'⟩ := getD_named c.rs n.rs
    obtain ⟨hcs, hcs'⟩ := getD_named c.cs n.cs
    obtain ⟨hwr, hwr'⟩ := getD_named c.wr n.wr
    obtain ⟨hrst, hrst'⟩ := getD_named c.rst n.rst
    obtain ⟨hbl, hbl'⟩ := getD_named c.bl n.bl
    exact ⟨hd, hd', hrs, hrs', hcs, hcs', hwr, hwr', hrst, hrst', hbl, hbl'⟩
  · obtain ⟨u, m', hedges, hpins, htrace, hb, rfl | ⟨_, _, _, _, hm, -⟩⟩ := h.edges h1 hn
    · dsimp only
      have htrace' : (State.edges n s).trace = pushTrace (s.pins.apply c) s.trace := by
        rw [hedges, ← hpins, ← htrace]
        rfl
      refine ⟨?_, htrace', ?_, ?_, fun hhead hsame => ?_⟩
      · rw [hedges, ← hpins]
        rfl
      · rw [hedges]
        exact hb
      · rw [hedges]
        rfl
      · rw [htrace', hsame, pushTrace_of_head hhead]
    · cases hm
  · have hcolor (u : State) (found' : Half) (hpins : u.pins = s.pins) (htrace : u.trace = s.trace)
        (hb : u.phase = .busy)
        (hedges : State.edges n s = (u.micro (.color high px found')).setSeq
          (.running kind (holdExtra s.params (if high then .w2 else .w5) + 1 - n) ms ops)) :
        (∃ v : Byte, (State.edges n s).pins = { s.pins with d := v } ∧
          (State.edges n s).trace = pushTrace { s.pins with d := v } s.trace) ∧
        (State.edges n s).phase = .busy ∧
        (State.edges n s).seq = .running kind (holdExtra s.params (if high then .w2 else .w5) + 1 - n) ms ops := by
      rw [hedges, ← hpins, ← htrace]
      exact ⟨⟨colorByte high found', rfl, rfl⟩, hb, rfl⟩
    obtain ⟨u, m', hedges, hpins, htrace, hb, rfl | ⟨_, _, _, found', hm, rfl⟩⟩ := h.edges h1 hn
    · exact hcolor u found hpins htrace hb hedges
    · cases hm
      exact hcolor u found' hpins htrace hb hedges
  · exact hwait s kind more [] ops n ⟨hb, .inr (.inl ⟨_, hseq, rfl⟩)⟩ hn

/-! ### Contested bytes -/

theorem State.byteValues_of_not_written {s : State} {k : Nat} (h : ∀ c ∈ s.olds, c.1 ≠ k) :
    s.byteValues k = [s.assetByte k] := by
  have hnone : s.olds.filter (fun c => c.1 == k) = [] :=
    List.filter_eq_nil_iff.2 fun c hc => by simpa using h c hc
  rw [State.byteValues, hnone]
  rfl

theorem State.mem_byteValues {s : State} {k : Nat} {v : Byte} (h : v ∈ s.byteValues k) :
    v = s.assetByte k ∨ (k, v) ∈ s.olds := by
  rw [State.byteValues, List.mem_cons, List.mem_map] at h
  refine h.imp_right ?_
  rintro ⟨c, hc, rfl⟩
  obtain ⟨hmem, hk⟩ := List.mem_filter.1 hc
  rwa [← eq_of_beq hk]

/-- A host write while BUSY adds one value to its byte's, and none to another's (20_memory.md R54). -/
theorem State.byteValues_hostWrite {s : State} (hb : s.phase = .busy) (hwf : Memory.wf s.assets) (a : AssetAddr)
    (b : Byte) (k : Nat) : (s.hostWrite a b).byteValues a.toNat = b :: s.byteValues a.toNat ∧
      (k ≠ a.toNat → (s.hostWrite a b).byteValues k = s.byteValues k) := by
  have holds : (s.hostWrite a b).olds = (a.toNat, s.assetByte a.toNat) :: s.olds := if_pos ((State.busy_iff s).mpr hb)
  constructor
  · have hbyte : (s.hostWrite a b).assetByte a.toNat = b := Memory.read_write_same _ hwf _ _
    simp [State.byteValues, holds, hbyte]
  · intro hk
    have hbyte : (s.hostWrite a b).assetByte k = s.assetByte k := Memory.read_write_other _ _ _ _ hk
    simp [State.byteValues, holds, hbyte, hk.symm]

/-- An edge of a command with `err_clr` or without, for the bus. -/
theorem State.busBlind_clearIf_countRace (errClr b : Bool) : BusBlind fun s => (s.clearIf errClr).countRace b :=
  fun _ m => by cases errClr <;> cases m <;> rfl

/-- What an edge makes of the block when it performs the action `m` and holds it. -/
theorem State.edge_action {s t : State} {errClr b : Bool} {m : Micro} {q : SeqPos} (hb : s.phase = .busy)
    (ht : t = (((s.clearIf errClr).countRace b).micro m).setSeq q) :
    t.pins = (s.micro m).pins ∧ t.trace = (s.micro m).trace ∧ t.controller = (s.micro m).controller ∧
      t.phase = .busy ∧ t.seq = q ∧ t.olds = s.olds := by
  have hblind := State.busBlind_clearIf_countRace errClr b s m
  dsimp only at hblind
  subst ht
  rw [hblind]
  cases errClr
  all_goals exact ⟨rfl, rfl, rfl, (State.micro_phase s m).trans hb, rfl, State.micro_olds s m⟩

/-- Settles O43: the values of a byte (`State.byteValues`), the actions of a pixel from bytes as read at its edge, and
the reads made anew at the two steps of its colour (`State.reread_color`). -/
theorem contestedByteOldOrNew : Obligations.ContestedByteOldOrNew := by
  intro s a b k
  refine ⟨s.racedByte_mem k, fun h => ?_, fun v hv => State.mem_byteValues hv, fun w => rfl,
    fun hb hwf => State.byteValues_hostWrite hb hwf a b k, fun kind px ops errClr offer hb hseq => ?_,
    fun p rd px u => State.micros_op u (.pixel px) p rd,
    fun kind high px found ms ops errClr offer hb hseq => ?_⟩
  · have hmem := s.racedByte_mem k
    rw [State.byteValues_of_not_written h] at hmem
    exact List.mem_singleton.1 hmem
  · obtain ⟨m, ms, hms⟩ := List.exists_cons_of_ne_nil (Op.micros_ne_nil s.params s.busyRead (.pixel px))
    have hop : (s.clearIf errClr).opMicros (.pixel px) = m :: ms := by
      cases errClr <;> exact hms
    have hedge : s.edge false errClr offer =
        (((s.clearIf errClr).countRace true).micro m).setSeq (.running kind (holdOf s.params m) ms ops) := by
      rw [State.edge_busy hb, State.tick, State.clearIf_seq, hseq, ← State.clearIf_params errClr s]
      dsimp only
      rw [State.advance]
      dsimp only
      rw [hop]
      rfl
    obtain ⟨hpins, htrace, hcontroller, hphase, hseq', holds⟩ := State.edge_action hb hedge
    exact ⟨s.busyRead, m, ms, s.busyRead_mem, hms, hpins, htrace, hcontroller, hphase, hseq', holds⟩
  · obtain ⟨c, hc, hread, hquiet⟩ := s.reread_color high px found
    have hreread : (s.clearIf errClr).reread (.color high px found) = .color high px c := by
      cases errClr <;> exact hc
    have hedge : s.edge false errClr offer = (((s.clearIf errClr).countRace true).micro (.color high px c)).setSeq
        (.running kind (holdExtra s.params (if high then .w2 else .w5)) ms ops) := by
      rw [State.edge_busy hb, State.tick, State.clearIf_seq, hseq, ← hreread, ← State.clearIf_params errClr s]
      rfl
    obtain ⟨hpins, htrace, -, hphase, hseq', holds⟩ := State.edge_action hb hedge
    refine ⟨c, hread, hquiet, hpins, ?_, hphase, holds, hseq'⟩
    rw [htrace, hpins]
    rfl

end Sys2Proof.Machine
end
